-- ==== Sys2Proof/Word.lean ====
section
/-! DEFINITION. The words of the depth-frame encoder (DFE): the command word and the byte. -/

namespace Sys2Proof

/-- A command word: "Every command is one 64-bit word" (spec/30 R80). -/
abbrev Word := BitVec 64

/-- One byte of the output stream (spec/20 R62). -/
abbrev Byte := BitVec 8

end Sys2Proof
end

