-- ==== Sys2Proof/Machine/Operands.lean ====
section
/-! DEFINITION. Fields of a command word and how each becomes an operand (spec/30 R81 to R85), and the
numbers the Huffman encoder computes from an operand: categories and raw bits (spec/42 R132, R133, R136). -/

namespace Sys2Proof.Machine

/-! ## Fields and operands of a command word -/

/-- `zext(word[hi:lo])`: bits `hi` down to `lo` as an unsigned number (spec/00 R9). -/
def zextField (word : Word) (hi lo : Nat) : Nat :=
  (word.extractLsb hi lo).toNat

/-- `sext_32(word[31:0])`: the low 32 bits as two's complement (spec/00 R9). -/
def sext32Field (word : Word) : Int :=
  (word.extractLsb 31 0).toInt

/-- OP, bits 63:60 (spec/30 R80). -/
def opcodeOf (word : Word) : Nat := zextField word 63 60

/-- The zero field of format N, bits 59:0 (spec/30 R81, R87). -/
def zeroFieldN (word : Word) : Nat := zextField word 59 0

/-- The zero field of formats D and S, bits 59:32 (spec/30 R82, R83, R87). -/
def zeroFieldDS (word : Word) : Nat := zextField word 59 32

/-- The zero field of format B, bits 59:38 (spec/30 R84, R87). -/
def zeroFieldB (word : Word) : Nat := zextField word 59 38

/-- W of format D: `zext_16(word[31:16])` (spec/30 R85). -/
def operandW (word : Word) : Nat := zextField word 31 16

/-- H of format D: `zext_16(word[15:0])` (spec/30 R85). -/
def operandH (word : Word) : Nat := zextField word 15 0

/-- A of PIXEL and of ENC_RUN: `zext_32(word[31:0])` (spec/30 R85). -/
def operandA (word : Word) : Nat := zextField word 31 0

/-- A of ENC_DELTA: the signed delta `sext_32(word[31:0])` (spec/30 R85). -/
def operandD (word : Word) : Int := sext32Field word

/-- N of PUT_BITS: `zext_6(word[37:32])` (spec/30 R85). -/
def operandN (word : Word) : Nat := zextField word 37 32

/-- V of PUT_BITS: `zext_32(word[31:0])` (spec/30 R85). -/
def operandV (word : Word) : Nat := zextField word 31 0

/-! ## Numbers of the Huffman encoder -/

/-- "Only its low N bits are used, V mod 2^N" (spec/30 R85); the `u` of spec/41 R101. -/
def lowBits (n v : Nat) : Nat := v % 2 ^ n

/-- "the least k ≥ 0 with m < 2^k" (spec/00 R9). -/
def bitlen (m : Nat) : Nat := if m = 0 then 0 else m.log2 + 1

/-- `DeltaCat(d)` = bitlen(|d|) (spec/42 R132). -/
def deltaCat (d : Int) : Nat := bitlen d.natAbs

/-- `DeltaRaw(d)`: d if d > 0, d + (2^k - 1) if d < 0, for k = DeltaCat(d) (spec/42 R133). -/
def deltaRaw (d : Int) : Nat :=
  if 0 < d then d.toNat else (d + (2 ^ deltaCat d - 1)).toNat

/-- The least run length that takes the escape category (spec/42 R136). -/
def runEscape : Nat := 255

/-- `RunCat(r)`: r if r ≤ 254, and 255 if r ≥ 255 (spec/42 R136). -/
def runCat (r : Nat) : Nat := if r ≤ 254 then r else runEscape

/-- What the escape's raw bits hold: r − 255 (spec/42 R136). -/
def runRemainder (r : Nat) : Nat := r - runEscape

end Sys2Proof.Machine
end

