-- ==== Sys2Proof/Syntax.lean ====
section
/-! DEFINITION. The nine commands (spec/30 R86), with their operands as the numbers that spec/30 R85 makes of
the fields of a command word. -/

namespace Sys2Proof

/-- The commands of the DFE (spec/30 R86). An operand is the mathematical integer of spec/30 R85; which
integers a command word can carry is `Instr.wellFormed`. -/
inductive Instr where
  /-- NOP, opcode 0x0 (spec/44 R190) -/
  | nop
  /-- CONFIG W, H, opcode 0x1 (spec/43 R160) -/
  | config (w h : Nat)
  /-- FRAME_START W, H, opcode 0x2 (spec/43 R162) -/
  | frameStart (w h : Nat)
  /-- PIXEL S, opcode 0x3 (spec/43 R164) -/
  | pixel (sample : Nat)
  /-- PUT_BITS N, V, opcode 0x4 (spec/41 R110) -/
  | putBits (n v : Nat)
  /-- FLUSH, opcode 0x5 (spec/41 R111) -/
  | flush
  /-- ENC_DELTA D, opcode 0x6, D signed (spec/42 R140) -/
  | encDelta (d : Int)
  /-- ENC_RUN R, opcode 0x7 (spec/42 R141) -/
  | encRun (r : Nat)
  /-- CLEAR, opcode 0x8 (spec/44 R191) -/
  | clear
deriving DecidableEq, Repr

end Sys2Proof
end

