-- ==== Sys2Proof/WellFormed.lean ====
section
/-! DEFINITION. Which commands a command word can carry: the operand ranges of spec/30 R82 to R85. -/

namespace Sys2Proof

/-- Every operand fits its field: "The field ranges are the encoding's (rules R82 to R84). The state-dependent
limits, N ≤ ACC_WIDTH and S < 2^SAMPLE_BITS, are checked by the DFE" (spec/30 R90). The syntax block of R90 gives CONFIG
the range 1 to 65535; that its fields range from 0 here, so that the assembler accepts `CONFIG 0, 5`, is DEDUCED (log
entry 16). -/
def Instr.wellFormed : Instr → Bool
  | .nop => true
  | .config w h => w < 2 ^ 16 && h < 2 ^ 16
  | .frameStart w h => w < 2 ^ 16 && h < 2 ^ 16
  | .pixel sample => sample < 2 ^ 32
  | .putBits n v => n < 2 ^ 6 && v < 2 ^ 32
  | .flush => true
  | .encDelta d => -2 ^ 31 ≤ d && d < 2 ^ 31
  | .encRun r => r < 2 ^ 32
  | .clear => true

end Sys2Proof
end

