-- ==== Sys2Proof/Decode.lean ====
section
/-! DEFINITION. The decoder of a command word (spec/30 R88), total on all 2^64 words and rejecting by name,
and the encoder (spec/30 R81 to R86). -/

namespace Sys2Proof

open Sys2Proof.Machine

/-- Why a word is reserved (spec/30 R87). -/
inductive ReservedReason where
  /-- (a) "a word with OP in 0x9..0xF" -/
  | opcode
  /-- (b) "a word whose OP is assigned but with a non-zero bit in a field its format marks `0`" -/
  | zeroField
deriving DecidableEq, Repr

/-- What a word decodes to (spec/30 R88). -/
inductive Decoded where
  | instr (i : Instr)
  | reserved (why : ReservedReason)
deriving DecidableEq, Repr

/-- "if the format's zero field of word != 0 then RESERVED" (spec/30 R88). -/
def checkZero (zeroField : Nat) (i : Instr) : Decoded :=
  if zeroField = 0 then .instr i else .reserved .zeroField

/-- `decode(word)` (spec/30 R88). -/
def decode (word : Word) : Decoded :=
  match opcodeOf word with
  | 0x0 => checkZero (zeroFieldN word) .nop
  | 0x1 => checkZero (zeroFieldDS word) (.config (operandW word) (operandH word))
  | 0x2 => checkZero (zeroFieldDS word) (.frameStart (operandW word) (operandH word))
  | 0x3 => checkZero (zeroFieldDS word) (.pixel (operandA word))
  | 0x4 => checkZero (zeroFieldB word) (.putBits (operandN word) (operandV word))
  | 0x5 => checkZero (zeroFieldN word) .flush
  | 0x6 => checkZero (zeroFieldDS word) (.encDelta (operandD word))
  | 0x7 => checkZero (zeroFieldDS word) (.encRun (operandA word))
  | 0x8 => checkZero (zeroFieldN word) .clear
  | _ => .reserved .opcode

/-! ## The encoder -/

/-- Format N: OP, then zeros (spec/30 R81). -/
def formatN (op : BitVec 4) : Word := op ++ 0#60

/-- Format D: OP, zeros, W in 31:16, H in 15:0 (spec/30 R82). -/
def formatD (op : BitVec 4) (w h : BitVec 16) : Word := op ++ 0#28 ++ w ++ h

/-- Format S: OP, zeros, A in 31:0 (spec/30 R83). -/
def formatS (op : BitVec 4) (a : BitVec 32) : Word := op ++ 0#28 ++ a

/-- Format B: OP, zeros, N in 37:32, V in 31:0 (spec/30 R84). -/
def formatB (op : BitVec 4) (n : BitVec 6) (v : BitVec 32) : Word := op ++ 0#22 ++ n ++ v

/-- The word of a well-formed command (spec/30 R81 to R86). -/
def encode : Instr → Word
  | .nop => formatN 0x0#4
  | .config w h => formatD 0x1#4 (BitVec.ofNat 16 w) (BitVec.ofNat 16 h)
  | .frameStart w h => formatD 0x2#4 (BitVec.ofNat 16 w) (BitVec.ofNat 16 h)
  | .pixel sample => formatS 0x3#4 (BitVec.ofNat 32 sample)
  | .putBits n v => formatB 0x4#4 (BitVec.ofNat 6 n) (BitVec.ofNat 32 v)
  | .flush => formatN 0x5#4
  | .encDelta d => formatS 0x6#4 (BitVec.ofInt 32 d)
  | .encRun r => formatS 0x7#4 (BitVec.ofNat 32 r)
  | .clear => formatN 0x8#4

/-- The word that the opcode table numbers `w` in `nbits` bits; a command is one word (spec/30 R80), so no
bit above the table's is ever set. -/
def tableWord (nbits w : Nat) : Word := BitVec.ofNat 64 (w % 2 ^ nbits)

/-- The instruction the decoder reads from the table's bits `w`; none where the word is reserved. -/
def decodeTableWord (nbits w : Nat) : Option Instr :=
  match decode (tableWord nbits w) with
  | .instr i => some i
  | .reserved _ => none

end Sys2Proof
end

