-- ==== Sys2Proof/Config.lean ====
section
/-! DEFINITION. What is fixed when a DFE is built (spec/00 R6: the parameters and the two codebook ROMs),
the answers of the sink, and the values the spec leaves open, as constants without a body. -/

namespace Sys2Proof

/-- The type of a codebook entry: "1 ≤ len ≤ 32 and 0 ≤ bits < 2^len" (spec/00 R8). -/
abbrev entryLegal (bits : BitVec 32) (len : BitVec 6) : Prop :=
  1 ≤ len.toNat ∧ len.toNat ≤ 32 ∧ bits.toNat < 2 ^ len.toNat

/-- A codebook entry: "a 32-bit `bits` field and a 6-bit `len` field" (spec/10 R32). An entry outside
spec/00 R8 cannot be written, as spec/70 R237 asks ("The model's codebook type excludes it"). The default
values serve only to show Lean that the type is inhabited. -/
structure Entry where
  bits : BitVec 32 := 0
  len : BitVec 6 := 1
  legal : entryLegal bits len := by decide
deriving DecidableEq, Repr, Inhabited

/-- The constraints of spec/00 R6 on the numeric parameters. -/
abbrev paramsLegal (accWidth sampleBits invalidMarker prevInit runEscBits : Nat) : Prop :=
  (accWidth % 8 = 0 ∧ 32 ≤ accWidth ∧ accWidth ≤ 64) ∧ (1 ≤ sampleBits ∧ sampleBits ≤ 31) ∧
    invalidMarker < 2 ^ sampleBits ∧ prevInit < 2 ^ sampleBits ∧ (1 ≤ runEscBits ∧ runEscBits ≤ accWidth)

/-- The implementation parameters (spec/00 R6). "A value outside its constraint is refused at elaboration"
(spec/93 I4): no value of this type breaks one. -/
structure Params where
  /-- ACC_WIDTH -/
  accWidth : Nat
  /-- SAMPLE_BITS -/
  sampleBits : Nat
  /-- INVALID_MARKER -/
  invalidMarker : Nat
  /-- PREV_INIT -/
  prevInit : Nat
  /-- RUN_ESC_BITS -/
  runEscBits : Nat
  /-- DELTA_CB, 32 entries (spec/10 R32) -/
  deltaCb : Vector Entry 32
  /-- RUN_CB, 256 entries (spec/10 R32) -/
  runCb : Vector Entry 256
  legal : paramsLegal accWidth sampleBits invalidMarker prevInit runEscBits
deriving DecidableEq, Repr

/-- What the sink answers to one offered byte: "exactly one of" `OK`, `ERR` and never (spec/20 R62). -/
inductive SinkAnswer where
  /-- (a) the byte is appended to the sink -/
  | ok
  /-- (b) the sink reports a write error -/
  | err
  /-- (c) the sink withholds acceptance forever -/
  | never
deriving DecidableEq, Repr, Inhabited

/-- The contents of DELTA_CB in the hardware: OPEN (spec/00 R6, spec/93 I1). DESIGN CHOICE (log entry 2):
an unknown constant. Safe. -/
opaque Config.deltaCb : Vector Entry 32

/-- The contents of RUN_CB in the hardware: OPEN (spec/00 R6, spec/93 I1). DESIGN CHOICE (log entry 2):
an unknown constant. Safe. -/
opaque Config.runCb : Vector Entry 256

/-- The sink's answer to the byte offered at draw `n`: "a draw of the environment, under no law"
(spec/20 R62). A free value (log entry 6). Safe. -/
opaque Config.sinkAnswer : Nat → SinkAnswer

/-- Whether the sink accepted the byte in flight when reset was asserted, at draw `n`: "unspecified ..., and
a model leaves it as a draw" (spec/70 R230). A free value (log entry 9). Safe. -/
opaque Config.inFlightAccepted : Nat → Bool

/-- What the register port returns, at draw `n`, to a read that overlaps a command: "an unspecified value,
which a model treats as a draw" (spec/70 R243). A free value (log entry 10). Safe. -/
opaque Config.overlappedRead : Nat → BitVec 32

/-- The parameters of the hardware this spec describes: the defaults of spec/00 R6, with the unknown ROMs. -/
def Params.default : Params where
  accWidth := 32
  sampleBits := 16
  invalidMarker := 0
  prevInit := 0
  runEscBits := 32
  deltaCb := Config.deltaCb
  runCb := Config.runCb
  legal := by decide

end Sys2Proof
end

