-- ==== Sys2Proof/Machine/State.lean ====
section
/-! DEFINITION. The state of the DFE (spec/10 R20 to R32), its ports, and the state after reset (spec/10 R37). -/

namespace Sys2Proof.Machine

/-- STATE, the state of the RLE state machine (spec/10 R21). -/
inductive Phase where
  /-- 0, UNCONF: no frame geometry configured (after reset) -/
  | unconf
  /-- 1, IDLE: configured, no frame in progress -/
  | idle
  /-- 2, FRAME: a frame is in progress -/
  | frame
  /-- 3, ERROR: a frame or bypass command was aborted; sticky until CLEAR or reset -/
  | error
deriving DecidableEq, Repr

/-- The response codes (spec/60 R201); "Codes 0x07-0x0F, 0x12-0xFF are never produced". -/
inductive Resp where
  | ok
  | rejReserved
  | rejState
  | rejOperand
  | rejMismatch
  | rejPending
  | rejOverflow
  | abortSink
  | abortOverflow
deriving DecidableEq, Repr

/-- The two abort codes (spec/60 R205). -/
inductive AbortCode where
  | sink
  | overflow
deriving DecidableEq, Repr

/-- The state of the machine. The first group is spec/10 R37's table; `params` is spec/00 R6; the rest stands at
the DFE's ports. All plain data. -/
structure State where
  /-- The build-time parameters and the codebook ROMs (spec/00 R6, spec/10 R32); no step changes them. -/
  params : Params
  /-- STATE (spec/10 R21) -/
  phase : Phase
  /-- CFG_W (spec/10 R22) -/
  cfgW : BitVec 16
  /-- CFG_H (spec/10 R22) -/
  cfgH : BitVec 16
  /-- PIX_IDX (spec/10 R23) -/
  pixIdx : BitVec 32
  /-- RUN_LEN (spec/10 R24) -/
  runLen : BitVec 32
  /-- ACC (spec/10 R25): its ACC_WIDTH bits are the low ones of this field; the higher ones are zero. -/
  acc : BitVec 64
  /-- FREE, "held in 7 bits" (spec/10 R25) -/
  free : BitVec 7
  /-- PREV (spec/10 R26): its SAMPLE_BITS bits are the low ones of this field; the higher ones are zero. -/
  prev : BitVec 31
  /-- FRAME_BYTES (spec/10 R27) -/
  frameBytes : BitVec 64
  /-- TOTAL_BYTES (spec/10 R28) -/
  totalBytes : BitVec 64
  /-- DONE (spec/10 R29) -/
  done : Bool
  /-- LAST_RESP (spec/10 R30) -/
  lastResp : Resp
  /-- ERR_CAUSE (spec/10 R31); none is 0x00 -/
  errCause : Option AbortCode
  /-- The words the host presents at the command port and the DFE has not yet taken (spec/70 R242). -/
  port : List Word
  /-- The bytes the sink has accepted, in order (spec/20 R62). -/
  sink : List Byte
  /-- The sink's answers to the next bytes offered (spec/20 R62: "The model takes the sink's answers as an
  input list"); after them each answer is the free value `Config.sinkAnswer`. The model's own field. -/
  sinkAnswers : List SinkAnswer
  /-- The byte that a command in progress has offered and the sink does not answer (spec/20 R62 (c)). It is
  none exactly when no command is in progress. -/
  inFlight : Option Byte
  /-- The reset input is asserted (spec/70 R230). -/
  resetLine : Bool
  /-- How many draws of the environment were made: the index of the next free value. The model's own field. -/
  draws : Nat
deriving DecidableEq, Repr

/-- The DFE raises no fault: "No behaviour of the DFE is a `fault`" and "Nothing in the DFE is undefined"
(spec/93, spec/60 R221). The type has no constructor, so that no step of the model stops with one. -/
inductive Fault where
deriving DecidableEq, Repr

/-- What the model refuses. -/
inductive Refusal where
  /-- Raised by `exec` alone, for a command that has no meaning yet; no arm raises it now. Safe: the model
  stops where the hardware goes on. -/
  | notModelled (mnemonic : String)
deriving DecidableEq, Repr

/-- What a step or a meaning answers. -/
abbrev Result := Host.Outcome State Fault Refusal

/-- The reset state of a DFE built with the parameters `p`: the table of spec/10 R37. The fields from `port`
on are the environment's: nothing presented, nothing accepted, nothing drawn (log entries 4 to 8). -/
def State.resetWith (p : Params) : State where
  params := p
  phase := .unconf
  cfgW := 0
  cfgH := 0
  pixIdx := 0
  runLen := 0
  acc := 0
  free := BitVec.ofNat 7 p.accWidth
  prev := BitVec.ofNat 31 p.prevInit
  frameBytes := 0
  totalBytes := 0
  done := false
  lastResp := .ok
  errCause := none
  port := []
  sink := []
  sinkAnswers := []
  inFlight := none
  resetLine := false
  draws := 0

/-- The machine right after reset, with the default parameters (spec/00 R6, spec/10 R37). -/
def State.reset : State := State.resetWith Params.default

end Sys2Proof.Machine
end

