-- ==== Sys2Proof/Machine/Flags.lean ====
section
/-! DEFINITION. The codes of the state elements (spec/10 R21, spec/60 R201), the conditions a command tests
(spec/60 R204, spec/42 R138) and the STATUS word with its flags (spec/10 R34). -/

namespace Sys2Proof.Machine

/-! ## Codes -/

/-- The 2-bit encoding of STATE (spec/10 R21). -/
def Phase.code : Phase → BitVec 2
  | .unconf => 0
  | .idle => 1
  | .frame => 2
  | .error => 3

/-- The 8-bit response codes (spec/60 R201). -/
def Resp.code : Resp → BitVec 8
  | .ok => 0x00
  | .rejReserved => 0x01
  | .rejState => 0x02
  | .rejOperand => 0x03
  | .rejMismatch => 0x04
  | .rejPending => 0x05
  | .rejOverflow => 0x06
  | .abortSink => 0x10
  | .abortOverflow => 0x11

/-- The class reject of spec/60 R201. -/
def Resp.isReject : Resp → Bool
  | .ok | .abortSink | .abortOverflow => false
  | .rejReserved | .rejState | .rejOperand | .rejMismatch | .rejPending | .rejOverflow => true

/-- The response that an abort records in LAST_RESP (spec/60 R205). -/
def AbortCode.resp : AbortCode → Resp
  | .sink => .abortSink
  | .overflow => .abortOverflow

/-- ERR_CAUSE as the register shows it: the abort code, or 0x00 (spec/10 R31). -/
def causeCode : Option AbortCode → BitVec 8
  | none => 0x00
  | some cause => cause.resp.code

/-! ## Conditions -/

/-- LENGTH = CFG_W·CFG_H, "held in 32 bits without wrap" (spec/10 R22). -/
def State.length (s : State) : Nat := s.cfgW.toNat * s.cfgH.toNat

/-- `OCC` = ACC_WIDTH − FREE, the count of pending bits (spec/10 R25). -/
def State.occ (s : State) : Nat := s.params.accWidth - s.free.toNat

/-- FREE = ACC_WIDTH: no pending bits (spec/10 R34, ACC_EMPTY). -/
def State.accEmpty (s : State) : Bool := s.free.toNat == s.params.accWidth

/-- The states in which CONFIG, PUT_BITS, FLUSH, ENC_DELTA and ENC_RUN are legal: UNCONF and IDLE
(spec/60 R204). -/
def Phase.acceptsBypass : Phase → Bool
  | .unconf | .idle => true
  | .frame | .error => false

/-- "DeltaOverflow(d) = (DeltaCat(d) > 31)" (spec/42 R138). -/
def deltaOverflow (d : Int) : Bool := 31 < deltaCat d

/-- "RunOverflow(r) = (r ≥ 255 and r − 255 ≥ 2^RUN_ESC_BITS)" (spec/42 R138). -/
def runOverflow (p : Params) (r : Nat) : Bool :=
  255 ≤ r && 2 ^ p.runEscBits ≤ r - 255

/-- A sample is invalid if it is INVALID_MARKER and valid otherwise (spec/43 R161). -/
def validSample (p : Params) (sample : Nat) : Bool := sample != p.invalidMarker

/-! ## STATUS -/

/-- The STATUS word (spec/10 R34): 31:24 reserved, 23:16 ERR_CAUSE, 15:8 LAST_RESP, 7:4 reserved,
3 ACC_EMPTY, 2 DONE, 1:0 STATE. -/
def State.statusWord (s : State) : BitVec 32 :=
  0#8 ++ causeCode s.errCause ++ s.lastResp.code ++ 0#4 ++ BitVec.ofBool s.accEmpty ++ BitVec.ofBool s.done ++
    s.phase.code

end Sys2Proof.Machine
end

