-- ==== Sys2Proof/Machine/Ops.lean ====
section
/-! DEFINITION. The operations every command is made of: responses, taking an abort and the return from it
(spec/60), the sink and the BitWriter (spec/20 R62, spec/41 R101 to R104), reset and the command port
(spec/70 R230, R242). -/

namespace Sys2Proof.Machine

/-! ## Responses -/

/-- `respond(code)` (spec/60 R200). -/
def State.respond (code : Resp) (s : State) : State := { s with lastResp := code }

/-- `reject(code)`: "No other state element changes, and no sink write is made" (spec/60 R203). -/
def State.reject (code : Resp) (s : State) : State := { s with lastResp := code }

/-! ## Taking an abort and the return from it -/

/-- `ACC <- 0 ; FREE <- ACC_WIDTH` (spec/41 R102, R104, spec/60 R205, spec/44 R191). -/
def State.emptyAcc (s : State) : State :=
  { s with acc := 0, free := BitVec.ofNat 7 s.params.accWidth }

/-- `abort(code)`, "the DFE's only trap" (spec/60 R205). What the command wrote before stays written. -/
def State.abort (code : AbortCode) (s : State) : State :=
  { s.emptyAcc with phase := .error, errCause := some code, lastResp := code.resp, done := false }

/-- The return from ERROR, and the abandoning of a frame: the writes of CLEAR (spec/44 R191, spec/60 R212). -/
def State.leaveError (s : State) : State :=
  { s.emptyAcc with
    runLen := 0
    prev := BitVec.ofNat 31 s.params.prevInit
    pixIdx := 0
    done := false
    errCause := none
    phase := if s.cfgW = 0 then .unconf else .idle }

/-! ## How a command goes on -/

/-- What one operation of a command comes to. -/
inductive Flow where
  /-- the command goes on in this state -/
  | going (s : State)
  /-- an abort was taken and the command has ended (spec/60 R205) -/
  | aborted (s : State)
  /-- the sink does not answer and the command never ends (spec/20 R62 (c), spec/70 R244) -/
  | waiting (s : State)
deriving DecidableEq, Repr

/-- The next operation of the command, if it goes on. -/
def Flow.andThen (f : Flow) (next : State → Flow) : Flow :=
  match f with
  | .going s => next s
  | .aborted s => .aborted s
  | .waiting s => .waiting s

/-- The end of a command: `respond(OK)` if it came to its end; an abort has written its own response
(spec/60 R200), and a command that waits for the sink writes none (spec/93 I7). -/
def Flow.close : Flow → State
  | .going s => s.respond .ok
  | .aborted s => s
  | .waiting s => s

/-! ## The sink -/

/-- The answer the sink gives to the `j`-th byte offered from here on (spec/20 R62): the input list's, and
beyond the list the free value (log entry 6). -/
def State.answerAt (s : State) (j : Nat) : SinkAnswer :=
  match s.sinkAnswers[j]? with
  | some answer => answer
  | none => Config.sinkAnswer (s.draws + j)

/-- One answer of the sink is used up. -/
def State.drawAnswer (s : State) : State :=
  { s with sinkAnswers := s.sinkAnswers.tail, draws := s.draws + 1 }

/-- The sink accepts a byte: it "is appended to the sink after every byte accepted before it" (spec/20 R62). -/
def State.acceptByte (b : Byte) (s : State) : State := { s with sink := s.sink ++ [b] }

/-- `SinkWrite(b)` (spec/20 R62): the answer, and the state after it. -/
def sinkWrite (b : Byte) (s : State) : SinkAnswer × State :=
  match s.answerAt 0 with
  | .ok => (.ok, s.drawAnswer.acceptByte b)
  | .err => (.err, s.drawAnswer)
  | .never => (.never, s.drawAnswer)

/-- The counting of an accepted byte (spec/41 R103, spec/10 R27, R28). -/
def State.countByte (s : State) : State :=
  { s with
    totalBytes := s.totalBytes + 1
    frameBytes := if s.phase = .frame then s.frameBytes + 1 else s.frameBytes }

/-- The command in progress waits for the sink's answer to `b` (spec/70 R244). -/
def State.holdByte (b : Byte) (s : State) : State := { s with inFlight := some b }

/-- `EmitByte(b)` (spec/41 R103). -/
def emitByte (b : Byte) (s : State) : Flow :=
  match sinkWrite b s with
  | (.ok, t) => .going t.countByte
  | (.err, t) => .aborted (t.abort .sink)
  | (.never, t) => .waiting (t.holdByte b)

/-- EmitByte for each byte of a list, in order; the first that fails ends it (spec/60 R206). -/
def emitBytes : List Byte → State → Flow
  | [], s => .going s
  | b :: rest, s => (emitByte b s).andThen (emitBytes rest)

/-! ## The BitWriter -/

/-- ACC and FREE are written. -/
def State.setAcc (acc free : Nat) (s : State) : State :=
  { s with acc := BitVec.ofNat 64 acc, free := BitVec.ofNat 7 free }

/-- `ACC[ACC_WIDTH-1-8j : ACC_WIDTH-8-8j]` (spec/41 R102, spec/20 R64). -/
def State.accByte (s : State) (j : Nat) : Byte :=
  (s.acc >>> (s.params.accWidth - 8 - 8 * j)).setWidth 8

/-- The first `count` bytes of ACC, the most significant first (spec/20 R64). -/
def State.accBytes (s : State) (count : Nat) : List Byte := (List.range count).map s.accByte

/-- `EmitWord()` (spec/41 R102). -/
def emitWord (s : State) : Flow :=
  (emitBytes (s.accBytes (s.params.accWidth / 8)) s).andThen fun t => .going t.emptyAcc

/-- `FlushBits()` (spec/41 R104): ceil(occ/8) bytes, then ACC and FREE emptied. -/
def flushBits (s : State) : Flow :=
  (emitBytes (s.accBytes ((s.occ + 7) / 8)) s).andThen fun t => .going t.emptyAcc

/-- The fast path of `PutBits` (spec/41 R101): `ACC | (u << (FREE - n))`, `FREE - n`. -/
def putBitsFast (n u : Nat) (s : State) : State :=
  s.setAcc (s.acc.toNat ||| u <<< (s.free.toNat - n)) (s.free.toNat - n)

/-- The slow path of `PutBits` (spec/41 R101), for r = n − FREE bits that do not fit. -/
def putBitsSlow (r u : Nat) (s : State) : Flow :=
  (emitWord (s.setAcc (s.acc.toNat ||| u >>> r) 0)).andThen fun t =>
    .going (t.setAcc (lowBits r u <<< (t.params.accWidth - r)) (t.params.accWidth - r))

/-- `PutBits(n, v)` (spec/41 R101), for n ≤ ACC_WIDTH. -/
def putBits (n v : Nat) (s : State) : Flow :=
  if n ≤ s.free.toNat then .going (putBitsFast n (lowBits n v) s)
  else putBitsSlow (n - s.free.toNat) (lowBits n v) s

/-! ## Reset and the command port -/

/-- The byte in flight when reset is asserted "may or may not have been accepted by the sink ... a draw"
(spec/70 R230): the free value `Config.inFlightAccepted` (log entry 9). -/
def State.settleInFlight (s : State) : State :=
  match s.inFlight with
  | none => s
  | some b =>
    { s with
      sink := if Config.inFlightAccepted s.draws then s.sink ++ [b] else s.sink
      inFlight := none
      draws := s.draws + 1 }

/-- The reset input takes effect (spec/70 R230): every state element as spec/10 R37 says; the ROMs and the
parameters unchanged (spec/70 R232); the words still at the port stay there (log entry 8), the sink keeps what
it accepted, and the input is seen once. -/
def State.takeReset (s : State) : State :=
  { State.resetWith s.params with
    port := s.port
    sink := s.settleInFlight.sink
    sinkAnswers := s.sinkAnswers
    draws := s.settleInFlight.draws }

/-- What the DFE does next. -/
inductive Poll where
  /-- reset is asserted: "Reset takes priority over everything" (spec/70 R230) -/
  | reset
  /-- nothing: a command waits for the sink (spec/70 R244), or no word is at the port (spec/70 R231) -/
  | hold
  /-- it takes this word, the port holding the rest (spec/70 R242) -/
  | word (w : Word) (rest : List Word)
deriving DecidableEq, Repr

/-- What the DFE does next (spec/70 R230, R242, R244). -/
def State.poll (s : State) : Poll :=
  if s.resetLine then .reset
  else
    match s.inFlight, s.port with
    | none, w :: rest => .word w rest
    | none, [] => .hold
    | some _, _ => .hold

/-- The word at the head of the port is taken; `rest` stays (spec/70 R242). -/
def State.takeWord (rest : List Word) (s : State) : State := { s with port := rest }

end Sys2Proof.Machine
end

