-- ==== Sys2Proof/Machine/BitWriter.lean ====
section
/-! DEFINITION. The bypass commands of the BitWriter: PUT_BITS and FLUSH (spec/41 R110, R111). -/

namespace Sys2Proof.Machine

/-- `PUT_BITS N, V` (spec/41 R110). -/
def execPutBits (n v : Nat) (s : State) : Result :=
  .next <|
    if !s.phase.acceptsBypass then s.reject .rejState
    else if s.params.accWidth < n then s.reject .rejOperand
    else (putBits n v s).close

/-- `FLUSH` (spec/41 R111). -/
def execFlush (s : State) : Result :=
  .next <|
    if !s.phase.acceptsBypass then s.reject .rejState
    else (flushBits s).close

end Sys2Proof.Machine
end

