-- ==== Sys2Proof/Machine/Control.lean ====
section
/-! DEFINITION. The control commands NOP and CLEAR (spec/44). -/

namespace Sys2Proof.Machine

/-- `NOP` (spec/44 R190). -/
def execNop (s : State) : Result := .next (s.respond .ok)

/-- `CLEAR` (spec/44 R191). -/
def execClear (s : State) : Result := .next (s.leaveError.respond .ok)

end Sys2Proof.Machine
end

