-- ==== Sys2Proof/Machine/Huffman.lean ====
section
/-! DEFINITION. The Huffman encoder (spec/42) and its bypass commands ENC_DELTA and ENC_RUN. -/

namespace Sys2Proof.Machine

/-- `CB_DELTA(k)` for 0 ≤ k ≤ 31 (spec/20 R61). -/
def cbDelta (p : Params) (k : Nat) : Entry := p.deltaCb.get (Fin.ofNat 32 k)

/-- `CB_RUN(c)` for 0 ≤ c ≤ 255 (spec/20 R61). -/
def cbRun (p : Params) (c : Nat) : Entry := p.runCb.get (Fin.ofNat 256 c)

/-- `EmitCode(e)`: `PutBits(len, bits)` (spec/42 R131). -/
def emitCode (e : Entry) (s : State) : Flow := putBits e.len.toNat e.bits.toNat s

/-- `EncDelta(d)` (spec/42 R134). -/
def encDelta (d : Int) (s : State) : Flow :=
  (emitCode (cbDelta s.params (deltaCat d)) s).andThen fun t =>
    if 1 ≤ deltaCat d then putBits (deltaCat d) (deltaRaw d) t else .going t

/-- `EncRun(r)` (spec/42 R137). -/
def encRun (r : Nat) (s : State) : Flow :=
  if r ≤ 254 then emitCode (cbRun s.params r) s
  else
    (emitCode (cbRun s.params runEscape) s).andThen fun t =>
      putBits t.params.runEscBits (runRemainder r) t

/-- `ENC_DELTA D` (spec/42 R140). -/
def execEncDelta (d : Int) (s : State) : Result :=
  .next <|
    if !s.phase.acceptsBypass then s.reject .rejState
    else if deltaOverflow d then s.reject .rejOverflow
    else (encDelta d s).close

/-- `ENC_RUN R` (spec/42 R141). -/
def execEncRun (r : Nat) (s : State) : Result :=
  .next <|
    if !s.phase.acceptsBypass then s.reject .rejState
    else if runOverflow s.params r then s.reject .rejOverflow
    else (encRun r s).close

end Sys2Proof.Machine
end

