-- ==== Sys2Proof/Machine/Frame.lean ====
section
/-! DEFINITION. The RLE state machine: CONFIG, FRAME_START, PIXEL and the end of a frame (spec/43). -/

namespace Sys2Proof.Machine

/-- The writes of an accepted CONFIG, "writer construction" (spec/43 R160). -/
def State.construct (w h : Nat) (s : State) : State :=
  { s with
    cfgW := BitVec.ofNat 16 w
    cfgH := BitVec.ofNat 16 h
    totalBytes := 0
    frameBytes := 0
    done := false
    pixIdx := 0
    runLen := 0
    prev := BitVec.ofNat 31 s.params.prevInit
    phase := .idle }

/-- `CONFIG W, H` (spec/43 R160). -/
def execConfig (w h : Nat) (s : State) : Result :=
  .next <|
    if !s.phase.acceptsBypass then s.reject .rejState
    else if w = 0 ∨ h = 0 then s.reject .rejOperand
    else if !s.accEmpty then s.reject .rejPending
    else (s.construct w h).respond .ok

/-- The writes of an accepted FRAME_START (spec/43 R162). -/
def State.beginFrame (s : State) : State :=
  { s with
    runLen := 0
    prev := BitVec.ofNat 31 s.params.prevInit
    pixIdx := 0
    frameBytes := 0
    done := false
    phase := .frame }

/-- `FRAME_START W, H` (spec/43 R162). -/
def execFrameStart (w h : Nat) (s : State) : Result :=
  .next <|
    if s.phase ≠ .idle then s.reject .rejState
    else if w ≠ s.cfgW.toNat ∨ h ≠ s.cfgH.toNat then s.reject .rejMismatch
    else if !s.accEmpty then s.reject .rejPending
    else s.beginFrame.respond .ok

/-- `RUN_LEN <- 0 ; PREV <- S` (spec/43 R164). -/
def State.setBaseline (sample : Nat) (s : State) : State :=
  { s with runLen := 0, prev := BitVec.ofNat 31 sample }

/-- `RUN_LEN <- RUN_LEN + 1` (spec/43 R164). -/
def State.extendRun (s : State) : State := { s with runLen := s.runLen + 1 }

/-- `PIX_IDX <- PIX_IDX + 1` (spec/43 R164). -/
def State.advance (s : State) : State := { s with pixIdx := s.pixIdx + 1 }

/-- `RUN_LEN <- 0` (spec/43 R166). -/
def State.clearRun (s : State) : State := { s with runLen := 0 }

/-- `STATE <- IDLE ; DONE <- 1` (spec/43 R166). -/
def State.finishFrame (s : State) : State := { s with phase := .idle, done := true }

/-- `EndFrame()` (spec/43 R166). -/
def endFrame (s : State) : Flow :=
  (encRun s.runLen.toNat s).andThen fun t =>
    (flushBits t.clearRun).andThen fun u => .going u.finishFrame

/-- `last <- (PIX_IDX + 1 = LENGTH)` (spec/43 R164). -/
def State.atLast (s : State) : Bool := s.pixIdx.toNat + 1 == s.length

/-- The overflow checks of a PIXEL, "before any emission" (spec/43 R164, spec/60 R207). -/
def pixelOverflow (sample : Nat) (s : State) : Bool :=
  if validSample s.params sample then runOverflow s.params s.runLen.toNat
  else s.atLast && runOverflow s.params (s.runLen.toNat + 1)

/-- What a PIXEL emits and writes for its sample: a valid one emits the run before it and its delta, which is
the exact integer difference (spec/43 R164, R165). -/
def consumeSample (sample : Nat) (s : State) : Flow :=
  if validSample s.params sample then
    (encRun s.runLen.toNat s).andThen fun t =>
      (encDelta ((sample : Int) - t.prev.toNat) t).andThen fun u => .going (u.setBaseline sample)
  else .going s.extendRun

/-- `PIXEL S` (spec/43 R164). -/
def execPixel (sample : Nat) (s : State) : Result :=
  .next <|
    if s.phase ≠ .frame then s.reject .rejState
    else if 2 ^ s.params.sampleBits ≤ sample then s.reject .rejOperand
    else if pixelOverflow sample s then s.abort .overflow
    else
      ((consumeSample sample s).andThen fun t =>
        if s.atLast then endFrame t.advance else .going t.advance).close

end Sys2Proof.Machine
end

