-- ==== Sys2Proof/Machine/Dispatch.lean ====
section
/-! DEFINITION. The meaning of each command: one arm per constructor of Instr, in the order of the opcode table. -/

namespace Sys2Proof.Machine

def exec (i : Instr) (s : State) : Host.Outcome State Fault Refusal :=
  match i with
  | .nop => Sys2Proof.Machine.execNop s
  | .config w h => Sys2Proof.Machine.execConfig w h s
  | .frameStart w h => Sys2Proof.Machine.execFrameStart w h s
  | .pixel sample => Sys2Proof.Machine.execPixel sample s
  | .putBits n v => Sys2Proof.Machine.execPutBits n v s
  | .flush => Sys2Proof.Machine.execFlush s
  | .encDelta d => Sys2Proof.Machine.execEncDelta d s
  | .encRun r => Sys2Proof.Machine.execEncRun r s
  | .clear => Sys2Proof.Machine.execClear s

end Sys2Proof.Machine
end

