-- ==== Sys2Proof/Machine/Command.lean ====
section
/-! DEFINITION. The running of one command word: decode, then the command's meaning, a reserved word being
rejected (spec/30 R87, R88). -/

namespace Sys2Proof.Machine

/-- "RESERVED executes as `reject(REJ_RESERVED)`" (spec/30 R88); any other word runs its command. -/
def runWord (w : Word) (s : State) : Result :=
  match decode w with
  | .instr i => exec i s
  | .reserved _ => .next (s.reject .rejReserved)

/-- The host presents `w` as the next word of the command port, and nothing keeps the DFE from taking it: no
reset is asserted and no earlier command is in progress (spec/70 R230, R242). -/
def State.presentWord (w : Word) (s : State) : State :=
  { s with port := w :: s.port, inFlight := none, resetLine := false }

end Sys2Proof.Machine
end

