-- ==== Sys2Proof/Machine/Step.lean ====
section
/-! DEFINITION. One step of the DFE: reset, or one command word, or nothing (spec/00 R12, spec/70 R230, R242). -/

namespace Sys2Proof.Machine

/-- One step: reset if it is asserted; else the next command word if the port holds one and no command is in
progress; else the DFE "holds its state" (spec/60 R220). -/
def step (s : State) : Host.Outcome State Fault Refusal :=
  match s.poll with
  | .reset => .next s.takeReset
  | .hold => .next s
  | .word w rest => runWord w (s.takeWord rest)

/-- `s` with the command word that the opcode table numbers `w` presented next at the command port, so that the
very next step takes and runs it (log entry 4). -/
def State.withFetchWord (s : State) (nbits w : Nat) : State := s.presentWord (tableWord nbits w)

end Sys2Proof.Machine
end

