-- ==== Sys2Proof/Machine/Assembler.lean ====
section
/-! DEFINITION. The assembly language of a command stream (spec/30 R90) and its pseudo-instructions (spec/30 R91).
The assembler stands outside the DFE: the step does not use it. -/

namespace Sys2Proof.Machine

/-! ## Lines and their expansion -/

/-- One line of assembly: a command (spec/30 R90) or a pseudo-instruction (spec/30 R91). -/
inductive AsmLine where
  | cmd (i : Instr)
  | pixelInv
  | frame (w h : Nat) (samples : List Nat)
  | pixelRep (sample count : Nat)
  | newWriter (w h : Nat)
deriving DecidableEq, Repr

/-- The commands, "An assembler refuses a number outside the field's range. It does not truncate"
(spec/30 R90). A CONFIG with W = 0 or H = 0 is not refused: DEDUCED (log entry 16). -/
def checked (is : List Instr) : Option (List Instr) :=
  if is.all Instr.wellFormed then some is else none

/-- The expansion of a line (spec/30 R91), for the INVALID_MARKER of the DFE that it is meant for. "An assembler
refuses a list whose length is not W·H." -/
def AsmLine.expand (invalidMarker : Nat) : AsmLine → Option (List Instr)
  | .cmd i => checked [i]
  | .pixelInv => checked [.pixel invalidMarker]
  | .frame w h samples =>
    if samples.length = w * h then checked (.frameStart w h :: samples.map .pixel) else none
  | .pixelRep sample count => checked (List.replicate count (.pixel sample))
  | .newWriter w h => checked [.clear, .config w h]

/-- The command words of a list of lines, or none if the assembler refuses one of them. -/
def assemble (invalidMarker : Nat) (ls : List AsmLine) : Option (List Word) :=
  (ls.mapM (AsmLine.expand invalidMarker)).map fun iss => iss.flatten.map encode

/-! ## The text of a line (spec/30 R90): "one command per line; `;` starts a comment; numbers are decimal or `0x`
hexadecimal, and negative numbers are allowed for ENC_DELTA only" -/

/-- The text before the comment. -/
def stripComment (cs : List Char) : List Char := cs.takeWhile (· != ';')

/-- The words of a text: runs of characters other than spaces, tabs, commas and colons, which separate. -/
def tokens : List Char → List (List Char)
  | [] => []
  | c :: cs =>
    if c = ' ' ∨ c = '\t' ∨ c = ',' ∨ c = ':' then tokens cs
    else
      match cs with
      | [] => [[c]]
      | d :: _ =>
        if d = ' ' ∨ d = '\t' ∨ d = ',' ∨ d = ':' then [c] :: tokens cs
        else
          match tokens cs with
          | [] => [[c]]
          | t :: ts => (c :: t) :: ts

/-- The value of a digit in a base up to 16. -/
def digitValue (base : Nat) (c : Char) : Option Nat :=
  let v :=
    if '0' ≤ c ∧ c ≤ '9' then some (c.toNat - '0'.toNat)
    else if 'a' ≤ c ∧ c ≤ 'f' then some (c.toNat - 'a'.toNat + 10)
    else if 'A' ≤ c ∧ c ≤ 'F' then some (c.toNat - 'A'.toNat + 10)
    else none
  v.filter (· < base)

/-- Digits, the most significant first, after the value of those before them. -/
def digits (base : Nat) (acc : Nat) : List Char → Option Nat
  | [] => some acc
  | c :: cs => (digitValue base c).bind fun v => digits base (acc * base + v) cs

/-- A number, decimal or `0x` hexadecimal. -/
def number : List Char → Option Nat
  | '0' :: 'x' :: c :: cs => digits 16 0 (c :: cs)
  | c :: cs => digits 10 0 (c :: cs)
  | [] => none

/-- A number that may be negative. -/
def signedNumber : List Char → Option Int
  | '-' :: cs => (number cs).map fun n => -(n : Int)
  | cs => (number cs).map fun n => (n : Int)

/-- A mnemonic with its operands. -/
def parseTokens : List (List Char) → Option AsmLine
  | [['N','O','P']] => some (.cmd .nop)
  | [['F','L','U','S','H']] => some (.cmd .flush)
  | [['C','L','E','A','R']] => some (.cmd .clear)
  | [['P','I','X','E','L','_','I','N','V']] => some .pixelInv
  | [['P','I','X','E','L'], s] => (number s).map fun s => .cmd (.pixel s)
  | [['E','N','C','_','D','E','L','T','A'], d] => (signedNumber d).map fun d => .cmd (.encDelta d)
  | [['E','N','C','_','R','U','N'], r] => (number r).map fun r => .cmd (.encRun r)
  | [['C','O','N','F','I','G'], w, h] =>
    (number w).bind fun w => (number h).map fun h => .cmd (.config w h)
  | [['F','R','A','M','E','_','S','T','A','R','T'], w, h] =>
    (number w).bind fun w => (number h).map fun h => .cmd (.frameStart w h)
  | [['P','U','T','_','B','I','T','S'], n, v] =>
    (number n).bind fun n => (number v).map fun v => .cmd (.putBits n v)
  | [['P','I','X','E','L','_','R','E','P'], s, k] =>
    (number s).bind fun s => (number k).map fun k => .pixelRep s k
  | [['N','E','W','_','W','R','I','T','E','R'], w, h] =>
    (number w).bind fun w => (number h).map fun h => .newWriter w h
  | ['F','R','A','M','E'] :: w :: h :: samples =>
    (number w).bind fun w => (number h).bind fun h => (samples.mapM number).map fun ss => .frame w h ss
  | _ => none

/-- One line of text: no command (an empty line or a comment), or a line of assembly; none if it is neither. -/
def parseLine (cs : List Char) : Option (List AsmLine) :=
  match tokens (stripComment cs) with
  | [] => some []
  | ts => (parseTokens ts).map fun l => [l]

end Sys2Proof.Machine
end

