-- ==== Sys2Proof/Machine/RegPort.lean ====
section
/-! DEFINITION. The register read port (spec/10 R33 to R35, spec/44 R193): a read is a function of the state and
changes nothing. -/

namespace Sys2Proof.Machine

/-- PARAM0: 7:0 ACC_WIDTH, 15:8 SAMPLE_BITS, 23:16 RUN_ESC_BITS, 31:24 zero (spec/10 R33). -/
def param0Word (p : Params) : BitVec 32 :=
  0#8 ++ BitVec.ofNat 8 p.runEscBits ++ BitVec.ofNat 8 p.sampleBits ++ BitVec.ofNat 8 p.accWidth

/-- The 32-bit value of the register at byte address `a`, between commands (spec/10 R33). "A read at an address
that is not a multiple of 4, or that is ≥ 0x40, returns 0." -/
def State.regRead (s : State) (a : Byte) : BitVec 32 :=
  match a.toNat with
  | 0x00 => s.statusWord
  | 0x04 => s.cfgW ++ s.cfgH
  | 0x08 => BitVec.ofNat 32 s.length
  | 0x0C => s.pixIdx
  | 0x10 => s.runLen
  | 0x14 => s.prev.setWidth 32
  | 0x18 => s.acc.setWidth 32
  | 0x1C => if 32 < s.params.accWidth then (s.acc >>> 32).setWidth 32 else 0
  | 0x20 => s.free.setWidth 32
  | 0x24 => s.frameBytes.setWidth 32
  | 0x28 => (s.frameBytes >>> 32).setWidth 32
  | 0x2C => s.totalBytes.setWidth 32
  | 0x30 => (s.totalBytes >>> 32).setWidth 32
  | 0x34 => param0Word s.params
  | 0x38 => BitVec.ofNat 32 s.params.invalidMarker
  | 0x3C => BitVec.ofNat 32 s.params.prevInit
  | _ => 0

/-- A read by the host. One that overlaps the execution of a command, as every read does while a command waits
for the sink, "returns an unspecified value, which a model treats as a draw" (spec/70 R243): the free value
`Config.overlappedRead` at the read's own draw index (log entry 10). -/
def State.hostRead (overlaps : Bool) (draw : Nat) (a : Byte) (s : State) : BitVec 32 :=
  if overlaps || s.inFlight.isSome then Config.overlappedRead draw else s.regRead a

/-- "The host reads register A at DFE_BASE + A" (spec/20 R68): DFE_BASE is an argument, and an address outside
the 256 bytes of the port's 8-bit address is not the DFE's. -/
def State.busRead (dfeBase addr : Nat) (overlaps : Bool) (draw : Nat) (s : State) : Option (BitVec 32) :=
  if dfeBase ≤ addr ∧ addr < dfeBase + 256 then
    some (s.hostRead overlaps draw (BitVec.ofNat 8 (addr - dfeBase)))
  else none

end Sys2Proof.Machine
end

