-- ==== Sys2Proof/Machine/Bitstream.lean ====
section
/-! DEFINITION. The output as one bit string (spec/00 R10, spec/20 R63), the bit strings of the symbols
(spec/42 R134, R137) and the frame bitstream (spec/43 R170). The step does not use it: it is what the
statements compare the step with. -/

namespace Sys2Proof.Machine

/-! ## Bit strings -/

/-- `bits_n(v)`: v[n-1], ..., v[0], "most significant bit first" (spec/00 R10). -/
def bitsN : Nat → Nat → List Bool
  | 0, _ => []
  | n + 1, v => v.testBit n :: bitsN n v

/-- The bits of a byte, bit 7 first (spec/20 R63). -/
def byteBits (b : Byte) : List Bool := bitsN 8 b.toNat

/-- The bits of a byte sequence, in order (spec/20 R63). -/
def bytesBits (bs : List Byte) : List Bool := bs.flatMap byteBits

/-- ACC[ACC_WIDTH−1 : FREE], the pending bits, first-emitted first (spec/10 R25). -/
def State.pendingBits (s : State) : List Bool := bitsN s.occ (s.acc.toNat >>> s.free.toNat)

/-- The bit string emitted so far: what the sink accepted, then what is pending (spec/20 R63, spec/10 R36). -/
def State.stream (s : State) : List Bool := bytesBits s.sink ++ s.pendingBits

/-- How many bits stay pending when `total` bits, pending ones and appended ones together, have passed through
an accumulator of `width` bits that is emptied only by an insertion that does not fit (spec/41 R106). -/
def lazyPending (width total : Nat) : Nat :=
  if total = 0 then 0 else (total - 1) % width + 1

/-- How many bytes have left that accumulator (spec/41 R101, R106). -/
def lazyBytes (width total : Nat) : Nat := (total - lazyPending width total) / 8

/-! ## Codebooks -/

/-- "the `len`-bit string bits[len-1], ..., bits[0]" (spec/00 R8). -/
def codeword (e : Entry) : List Bool := bitsN e.len.toNat e.bits.toNat

/-- Prefix-free: "for two distinct indices i ≠ j, codeword i is not a prefix of codeword j" (spec/00 R8). The
named premise of spec/70 R236. -/
abbrev prefixFree (n : Nat) (cb : Vector Entry n) : Prop :=
  ∀ i j : Fin n, i ≠ j → ¬ codeword (cb.get i) <+: codeword (cb.get j)

/-! ## Symbols -/

/-- A symbol of a frame: an invalid-run length or a pixel delta (spec/42). -/
inductive Symbol where
  | run (r : Nat)
  | delta (d : Int)
deriving DecidableEq, Repr

/-- The bits that EncRun(r) appends (spec/42 R137). -/
def runBits (p : Params) (r : Nat) : List Bool :=
  codeword (cbRun p (runCat r)) ++ if r ≤ 254 then [] else bitsN p.runEscBits (runRemainder r)

/-- The bits that EncDelta(d) appends (spec/42 R134). -/
def deltaBits (p : Params) (d : Int) : List Bool :=
  codeword (cbDelta p (deltaCat d)) ++ bitsN (deltaCat d) (deltaRaw d)

/-- The bits of a symbol. -/
def symbolBits (p : Params) : Symbol → List Bool
  | .run r => runBits p r
  | .delta d => deltaBits p d

/-! ## Frames -/

/-- The symbols of the rest of a frame, `run` invalid samples and the valid sample `prev` standing before it:
a Run before each valid sample, its Delta, and the closing Run (spec/43 R170). -/
def symbolsFrom (p : Params) (run : Nat) (prev : Nat) : List Nat → List Symbol
  | [] => [.run run]
  | sample :: rest =>
    if validSample p sample then
      .run run :: .delta ((sample : Int) - prev) :: symbolsFrom p 0 sample rest
    else symbolsFrom p (run + 1) prev rest

/-- The symbols of a frame (spec/43 R170): no run yet, and the baseline PREV_INIT. -/
def frameSymbols (p : Params) (samples : List Nat) : List Symbol := symbolsFrom p 0 p.prevInit samples

/-- The zero bits "to the next multiple of 8" after `n` bits (spec/43 R170, spec/41 R104). -/
def padding (n : Nat) : List Bool := List.replicate ((8 - n % 8) % 8) false

/-- A frame's symbols as bits, without the padding (spec/43 R170, R172). -/
def frameBody (p : Params) (samples : List Nat) : List Bool :=
  (frameSymbols p samples).flatMap (symbolBits p)

/-- `frame_bits` (spec/43 R170). -/
def frameBits (p : Params) (samples : List Nat) : List Bool :=
  frameBody p samples ++ padding (frameBody p samples).length

/-- The baseline after a list of samples: the last valid one, or the one before (spec/10 R26). -/
def baselineAfter (p : Params) (prev : Nat) : List Nat → Nat
  | [] => prev
  | sample :: rest => baselineAfter p (if validSample p sample then sample else prev) rest

end Sys2Proof.Machine
end

