-- ==== Sys2Proof/Safety.lean ====
section
/-! DEFINITION. What the statements claim of a state and of a run: the invariants of spec/10 R38, the states a
DFE can reach, and what it means that bits were appended to the output or flushed to the sink. -/

namespace Sys2Proof.Machine

/-! ## Invariants -/

/-- The accumulator's invariant (spec/10 R25, R38 item 1): 0 ≤ FREE ≤ ACC_WIDTH, ACC fits in ACC_WIDTH bits, and
ACC[FREE−1:0] = 0. -/
abbrev AccOk (s : State) : Prop :=
  s.free.toNat ≤ s.params.accWidth ∧ s.acc.toNat < 2 ^ s.params.accWidth ∧ s.acc.toNat % 2 ^ s.free.toNat = 0

/-- The invariants of spec/10 R38 (items 1 to 6), with the two facts of spec/10 R22 and R26 that they need:
CFG_W and CFG_H are 0 together, and PREV fits in SAMPLE_BITS bits. R38 speaks of the states between commands; while
a command waits for the sink, a frame's last PIXEL may already have counted its sample, so that PIX_IDX may equal
LENGTH. -/
structure StateInv (s : State) : Prop where
  accOk : AccOk s
  prev_lt : s.prev.toNat < 2 ^ s.params.sampleBits
  cfg_both : s.cfgW = 0 ↔ s.cfgH = 0
  unconf_cfg : s.phase = .unconf → s.cfgW = 0
  configured : s.phase = .idle ∨ s.phase = .frame → s.cfgW ≠ 0
  frame_pos : s.phase = .frame →
    s.runLen.toNat ≤ s.pixIdx.toNat ∧ s.pixIdx.toNat ≤ s.length ∧
      (s.inFlight = none → s.pixIdx.toNat < s.length)
  run_zero : s.phase = .unconf ∨ s.phase = .idle → s.runLen = 0
  cause : s.phase ≠ .error ↔ s.errCause = none
  done_idle : s.done = true → s.phase = .idle ∧ s.pixIdx.toNat = s.length

/-- A state the DFE built with `p` can be in: reset, one step, or a change of what only the environment decides
(the words at the port, the sink's next answers, the reset input). -/
inductive Reachable (p : Params) : State → Prop where
  | reset : Reachable p (State.resetWith p)
  | step (s t : State) : Reachable p s → step s = .next t → Reachable p t
  | environment (s : State) (port : List Word) (answers : List SinkAnswer) (resetLine : Bool) :
      Reachable p s → Reachable p { s with port := port, sinkAnswers := answers, resetLine := resetLine }

/-! ## Commands and states -/

/-- "legal in STATE" of the opcode map (spec/30 R86), which spec/60 R204 reads per state. -/
def legalIn : Instr → Phase → Bool
  | .nop, _ => true
  | .clear, _ => true
  | .frameStart _ _, p => p = .idle
  | .pixel _, p => p = .frame
  | .config _ _, p => p = .unconf || p = .idle
  | .putBits _ _, p => p = .unconf || p = .idle
  | .flush, p => p = .unconf || p = .idle
  | .encDelta _, p => p = .unconf || p = .idle
  | .encRun _, p => p = .unconf || p = .idle

/-- The commands that drive the BitWriter or the Huffman encoder outside a frame are accepted in UNCONF and IDLE
(spec/60 R204). -/
abbrev BypassState (s : State) : Prop := s.phase = .unconf ∨ s.phase = .idle

/-- The REJ_OPERAND condition of a command (spec/60 R201). -/
def badOperand (i : Instr) (s : State) : Bool :=
  match i with
  | .config w h => w = 0 || h = 0
  | .pixel sample => 2 ^ s.params.sampleBits ≤ sample
  | .putBits n _ => s.params.accWidth < n
  | .nop | .frameStart _ _ | .flush | .encDelta _ | .encRun _ | .clear => false

/-- The REJ_MISMATCH condition of a command (spec/60 R201). -/
def mismatched (i : Instr) (s : State) : Bool :=
  match i with
  | .frameStart w h => w ≠ s.cfgW.toNat || h ≠ s.cfgH.toNat
  | .nop | .config _ _ | .pixel _ | .putBits _ _ | .flush | .encDelta _ | .encRun _ | .clear => false

/-- The REJ_PENDING condition of a command (spec/60 R201). -/
def blockedByPending (i : Instr) (s : State) : Bool :=
  match i with
  | .config _ _ | .frameStart _ _ => s.free.toNat ≠ s.params.accWidth
  | .nop | .pixel _ | .putBits _ _ | .flush | .encDelta _ | .encRun _ | .clear => false

/-- The category overflow of a command (spec/60 R201, R207): REJ_OVERFLOW for a bypass symbol, ABORT_OVERFLOW for
a PIXEL. -/
def overflows (i : Instr) (s : State) : Bool :=
  match i with
  | .encDelta d => 31 < deltaCat d
  | .encRun r => 255 ≤ r && 2 ^ s.params.runEscBits ≤ r - 255
  | .pixel sample =>
    if sample = s.params.invalidMarker then
      s.pixIdx.toNat + 1 = s.length && runOverflow s.params (s.runLen.toNat + 1)
    else runOverflow s.params s.runLen.toNat
  | .nop | .config _ _ | .frameStart _ _ | .putBits _ _ | .flush | .clear => false

/-- The command meets none of the conditions of spec/60 R209 that reject or abort it before it emits anything. -/
abbrev Passes (i : Instr) (s : State) : Prop :=
  legalIn i s.phase = true ∧ badOperand i s = false ∧ mismatched i s = false ∧ blockedByPending i s = false ∧
    overflows i s = false

/-! ## What a command puts out -/

/-- The bits a bypass command appends, or the padding it adds (spec/41 R110, R111, spec/42 R140, R141). -/
def bypassBits (i : Instr) (s : State) : List Bool :=
  match i with
  | .putBits n v => bitsN n v
  | .flush => padding s.occ
  | .encDelta d => deltaBits s.params d
  | .encRun r => runBits s.params r
  | .nop | .config _ _ | .frameStart _ _ | .pixel _ | .clear => []

/-- What a PIXEL emits for its own sample: the run before a valid sample and its delta, nothing for an invalid one
(spec/43 R164). -/
def pixelBits (sample : Nat) (s : State) : List Bool :=
  if sample = s.params.invalidMarker then []
  else runBits s.params s.runLen.toNat ++ deltaBits s.params ((sample : Int) - s.prev.toNat)

/-- What the last PIXEL emits after it: the closing run (spec/43 R166). -/
def closingBits (sample : Nat) (s : State) : List Bool :=
  runBits s.params (if sample = s.params.invalidMarker then s.runLen.toNat + 1 else 0)

/-- The writes of a PIXEL to RUN_LEN, PREV and PIX_IDX (spec/43 R164). -/
def State.consume (sample : Nat) (s : State) : State :=
  if sample = s.params.invalidMarker then { s with runLen := s.runLen + 1, pixIdx := s.pixIdx + 1 }
  else { s with runLen := 0, prev := BitVec.ofNat 31 sample, pixIdx := s.pixIdx + 1 }

/-! ## Bits appended, bits flushed -/

/-- The sink answers OK to the next `n` bytes. -/
abbrev AnswersOk (n : Nat) (s : State) : Prop := ∀ j < n, s.answerAt j = .ok

/-- The sink accepts the bytes `bs`: it holds them after what it held, their answers are used up, and they are
counted, in FRAME_BYTES only in the FRAME state (spec/41 R103). ACC and FREE are as they were. -/
def State.afterBytes (bs : List Byte) (s : State) : State :=
  { s with
    sink := s.sink ++ bs
    sinkAnswers := s.sinkAnswers.drop bs.length
    draws := s.draws + bs.length
    totalBytes := s.totalBytes + BitVec.ofNat 64 bs.length
    frameBytes := if s.phase = .frame then s.frameBytes + BitVec.ofNat 64 bs.length else s.frameBytes }

/-- `s` with the accumulator of `t`. -/
def State.withAccOf (s t : State) : State := { s with acc := t.acc, free := t.free }

/-- How many bytes leave when `bits` are appended in `s` (spec/41 R106). -/
def appendedBytes (bits : List Bool) (s : State) : Nat :=
  lazyBytes s.params.accWidth (s.occ + bits.length)

/-- `t` is `s` after `bits` were appended to the output: the bytes `bs` that had to leave the accumulator did, the
rest is pending, and nothing else is changed (spec/20 R63, spec/41 R101, R105, R106). -/
structure Appends (bits : List Bool) (s t : State) : Prop where
  accOk : AccOk t
  stream : t.stream = s.stream ++ bits
  pending : t.occ = lazyPending s.params.accWidth (s.occ + bits.length)
  rest : ∃ bs : List Byte, bs.length = appendedBytes bits s ∧
    t = (s.afterBytes bs).withAccOf t

/-- How many bytes leave when `bits` are appended in `s` and everything is flushed (spec/41 R104). -/
def flushedBytes (bits : List Bool) (s : State) : Nat := (s.occ + bits.length + 7) / 8

/-- `t` is `s` after FlushBits: every pending bit is in the sink, padded with zero bits to a whole byte, and the
accumulator is empty (spec/41 R104). -/
structure Flushed (s t : State) : Prop where
  bits : bytesBits t.sink = s.stream ++ padding s.occ
  rest : ∃ bs : List Byte, bs.length = (s.occ + 7) / 8 ∧ t = (s.afterBytes bs).emptyAcc

/-- `t` is `s` after the sink accepted `k` bytes, answered ERR to the next one, and the abort was taken
(spec/60 R205, R206, R208); `bits` is what the command was to put in the sink after what is there. -/
def AbortsAfter (k : Nat) (bits : List Bool) (s t : State) : Prop :=
  ∃ bs : List Byte, bs.length = k ∧ bytesBits bs = bits.take (8 * k) ∧
    t = { (s.afterBytes bs).drawAnswer with
      acc := 0
      free := BitVec.ofNat 7 s.params.accWidth
      phase := .error
      errCause := some .sink
      lastResp := .abortSink
      done := false }

/-- `t` is `s` after the sink accepted `k` bytes and gave no answer to the next one: the command is in progress
and waits (spec/20 R62 (c), spec/70 R244); `bits` is what the command was to put in the sink after what is
there. -/
def WaitsAfter (k : Nat) (bits : List Bool) (s t : State) : Prop :=
  AccOk t ∧ ∃ (bs : List Byte) (b : Byte), bs.length = k ∧ bytesBits (bs ++ [b]) = bits.take (8 * (k + 1)) ∧
    t = ((s.afterBytes bs).drawAnswer.holdByte b).withAccOf t

/-! ## Sequences -/

/-- A sequence of PutBits(n, v) (spec/41 R105). -/
def putAll : List (Nat × Nat) → State → Flow
  | [], s => .going s
  | (n, v) :: rest, s => (putBits n v s).andThen (putAll rest)

/-- The bit strings of a sequence, one after the other (spec/41 R105). -/
def putAllBits (ps : List (Nat × Nat)) : List Bool := ps.flatMap fun nv => bitsN nv.1 nv.2

/-- The DFE is ready to run the pseudo-instruction FRAME with these samples, "in IDLE with an empty accumulator,
with no rejections and no sink errors" (spec/43 R167): the words are at the port, `rest` behind them, each sample
fits, no run of the frame overflows its escape (spec/60 R207), and the sink answers OK to each byte of the frame. -/
structure FrameReady (samples : List Nat) (rest : List Word) (s : State) : Prop where
  inv : StateInv s
  empty : s.free.toNat = s.params.accWidth
  idle : s.phase = .idle
  running : s.inFlight = none ∧ s.resetLine = false
  port : s.port = encode (.frameStart s.cfgW.toNat s.cfgH.toNat) :: (samples.map fun x => encode (.pixel x)) ++ rest
  full : samples.length = s.length ∧ samples ≠ []
  fits : ∀ x ∈ samples, x < 2 ^ s.params.sampleBits
  noOverflow : ∀ r, Symbol.run r ∈ frameSymbols s.params samples → runOverflow s.params r = false
  answers : AnswersOk (((frameBody s.params samples).length + 7) / 8) s

end Sys2Proof.Machine
end

