-- ==== Sys2Proof/Certificates/Slice0/Obligations.lean ====
section
/-! DEFINITION. The statements for the provers, from the numbered rules of spec/. An operand is quantified as the
bit field that carries it, so that no statement leaves a form of a command out. -/

open Sys2Proof Sys2Proof.Machine

/-! ## Parameters, reset, registers -/

/-- spec/00 R6, R8, spec/70 R237: no DFE has a parameter or a codebook entry outside its constraint; and spec/20
R61: a codebook read returns the entry at its index. -/
def Obligations.ParametersMeetTheirConstraints : Prop :=
  ∀ p : Params,
    (p.accWidth % 8 = 0 ∧ 32 ≤ p.accWidth ∧ p.accWidth ≤ 64) ∧ (1 ≤ p.sampleBits ∧ p.sampleBits ≤ 31) ∧
    p.invalidMarker < 2 ^ p.sampleBits ∧ p.prevInit < 2 ^ p.sampleBits ∧
    (1 ≤ p.runEscBits ∧ p.runEscBits ≤ p.accWidth) ∧
    (∀ k, 1 ≤ (cbDelta p k).len.toNat ∧ (cbDelta p k).len.toNat ≤ 32 ∧
      (cbDelta p k).bits.toNat < 2 ^ (cbDelta p k).len.toNat) ∧
    (∀ c, 1 ≤ (cbRun p c).len.toNat ∧ (cbRun p c).len.toNat ≤ 32 ∧
      (cbRun p c).bits.toNat < 2 ^ (cbRun p c).len.toNat) ∧
    (∀ (k : Nat) (h : k < 32), cbDelta p k = p.deltaCb[k]) ∧
    ∀ (c : Nat) (h : c < 256), cbRun p c = p.runCb[c]

/-- spec/10 R37: the value of every state element after reset, for every DFE; `State.reset` is the one with the
defaults of spec/00 R6. -/
def Obligations.ResetValues : Prop :=
  (∀ p : Params,
    (State.resetWith p).phase.code = 0 ∧ (State.resetWith p).cfgW = 0 ∧ (State.resetWith p).cfgH = 0 ∧
    (State.resetWith p).length = 0 ∧ (State.resetWith p).pixIdx = 0 ∧ (State.resetWith p).runLen = 0 ∧
    (State.resetWith p).prev.toNat = p.prevInit ∧ (State.resetWith p).acc = 0 ∧
    (State.resetWith p).free.toNat = p.accWidth ∧ (State.resetWith p).frameBytes = 0 ∧
    (State.resetWith p).totalBytes = 0 ∧ (State.resetWith p).done = false ∧
    (State.resetWith p).lastResp.code = 0x00 ∧ causeCode (State.resetWith p).errCause = 0x00 ∧
    (State.resetWith p).params.deltaCb = p.deltaCb ∧ (State.resetWith p).params.runCb = p.runCb) ∧
  State.reset = State.resetWith Params.default ∧ Params.default.accWidth = 32 ∧ Params.default.sampleBits = 16 ∧
  Params.default.invalidMarker = 0 ∧ Params.default.prevInit = 0 ∧ Params.default.runEscBits = 32

/-- spec/70 R230, R232: the step that sees the reset input resets every state element, whatever the DFE was doing;
a command in progress is abandoned, no pending bit is written, the byte in flight may or may not have been
accepted, and no parameter and no ROM changes. -/
def Obligations.ResetTakesPriority : Prop :=
  ∀ s : State, s.resetLine = true → ∃ t, step s = .next t ∧
    t.phase = .unconf ∧ t.cfgW = 0 ∧ t.cfgH = 0 ∧ t.pixIdx = 0 ∧ t.runLen = 0 ∧
    t.prev.toNat = s.params.prevInit ∧ t.acc = 0 ∧ t.free.toNat = s.params.accWidth ∧ t.frameBytes = 0 ∧
    t.totalBytes = 0 ∧ t.done = false ∧ t.lastResp = .ok ∧ t.errCause = none ∧ t.inFlight = none ∧
    (s.inFlight = none → t.sink = s.sink) ∧
    (∀ b, s.inFlight = some b → t.sink = s.sink ∨ t.sink = s.sink ++ [b]) ∧ t.params = s.params

/-- The model's choice (log entry 8): the words at the port stay there over a reset, the environment's answers are
untouched, and the input is seen once. -/
def Obligations.ResetKeepsThePort : Prop :=
  ∀ s t : State, s.resetLine = true → step s = .next t →
    t.port = s.port ∧ t.sinkAnswers = s.sinkAnswers ∧ t.resetLine = false

/-- spec/10 R33: the register map. -/
def Obligations.RegisterMap : Prop :=
  ∀ s : State,
    s.regRead 0x00 = s.statusWord ∧
    (s.regRead 0x04).toNat = s.cfgW.toNat * 2 ^ 16 + s.cfgH.toNat ∧
    (s.regRead 0x08).toNat = s.cfgW.toNat * s.cfgH.toNat ∧
    s.regRead 0x0C = s.pixIdx ∧ s.regRead 0x10 = s.runLen ∧
    (s.regRead 0x14).toNat = s.prev.toNat ∧
    (s.regRead 0x18).toNat = s.acc.toNat % 2 ^ 32 ∧
    (s.regRead 0x1C).toNat = (if 32 < s.params.accWidth then s.acc.toNat / 2 ^ 32 else 0) ∧
    (s.regRead 0x20).toNat = s.free.toNat ∧
    (s.regRead 0x24).toNat = s.frameBytes.toNat % 2 ^ 32 ∧ (s.regRead 0x28).toNat = s.frameBytes.toNat / 2 ^ 32 ∧
    (s.regRead 0x2C).toNat = s.totalBytes.toNat % 2 ^ 32 ∧ (s.regRead 0x30).toNat = s.totalBytes.toNat / 2 ^ 32 ∧
    (s.regRead 0x34).toNat =
      s.params.accWidth + s.params.sampleBits * 2 ^ 8 + s.params.runEscBits * 2 ^ 16 ∧
    (s.regRead 0x38).toNat = s.params.invalidMarker ∧ (s.regRead 0x3C).toNat = s.params.prevInit ∧
    (∀ a : Byte, a.toNat % 4 ≠ 0 ∨ 0x40 ≤ a.toNat → s.regRead a = 0) ∧
    ∀ (a : Byte) (deltaCb : Vector Entry 32) (runCb : Vector Entry 256),
      ({ s with params := { s.params with deltaCb := deltaCb, runCb := runCb } } : State).regRead a = s.regRead a

/-- spec/10 R34: the fields of STATUS; and the codes that stand in its LAST_RESP and ERR_CAUSE fields (spec/60
R201, spec/10 R31). -/
def Obligations.StatusFields : Prop :=
  (Resp.ok.code = 0x00 ∧ Resp.rejReserved.code = 0x01 ∧ Resp.rejState.code = 0x02 ∧ Resp.rejOperand.code = 0x03 ∧
    Resp.rejMismatch.code = 0x04 ∧ Resp.rejPending.code = 0x05 ∧ Resp.rejOverflow.code = 0x06 ∧
    Resp.abortSink.code = 0x10 ∧ Resp.abortOverflow.code = 0x11) ∧
  (causeCode none = 0x00 ∧ causeCode (some .sink) = 0x10 ∧ causeCode (some .overflow) = 0x11) ∧
  ∀ s : State,
    s.statusWord.extractLsb' 0 2 = s.phase.code ∧
    s.statusWord.getLsbD 2 = s.done ∧
    (s.statusWord.getLsbD 3 = true ↔ s.free.toNat = s.params.accWidth) ∧
    s.statusWord.extractLsb' 4 4 = 0 ∧
    s.statusWord.extractLsb' 8 8 = s.lastResp.code ∧
    s.statusWord.extractLsb' 16 8 = causeCode s.errCause ∧
    s.statusWord.extractLsb' 24 8 = 0

/-- spec/10 R35: both halves of a counter, read between the same two commands, join to the counter; a read that
overlaps a command, as every read does while a command waits for the sink, is the environment's draw
(spec/70 R243). -/
def Obligations.RegisterReadsBetweenCommands : Prop :=
  ∀ (s : State) (draw : Nat) (a : Byte),
    ((s.regRead 0x28) ++ (s.regRead 0x24) : BitVec 64) = s.frameBytes ∧
    ((s.regRead 0x30) ++ (s.regRead 0x2C) : BitVec 64) = s.totalBytes ∧
    (s.inFlight = none → s.hostRead false draw a = s.regRead a) ∧
    (s.inFlight ≠ none → s.hostRead false draw a = Config.overlappedRead draw) ∧
    s.hostRead true draw a = Config.overlappedRead draw

/-! ## Encoding -/

/-- spec/30 R92: the worked encodings. -/
def Obligations.DecodesWorkedEncodings : Prop :=
  decode 0x0000000000000000 = .instr .nop ∧
  decode 0x10000000028001E0 = .instr (.config 640 480) ∧
  decode 0x2000000000020002 = .instr (.frameStart 2 2) ∧
  decode 0x3000000000000005 = .instr (.pixel 5) ∧
  decode 0x40000014000ABCDE = .instr (.putBits 20 0xABCDE) ∧
  decode 0x5000000000000000 = .instr .flush ∧
  decode 0x60000000FFFFFFFF = .instr (.encDelta (-1)) ∧
  decode 0x70000000000000FF = .instr (.encRun 255) ∧
  decode 0x8000000000000000 = .instr .clear ∧
  ∀ s : State,
    runWord 0x9000000000000000 s = .next { s with lastResp := .rejReserved } ∧
    runWord 0x1000000100020002 s = .next { s with lastResp := .rejReserved }

/-- spec/30 R87, R88: `decode`, in the arithmetic of the word's value; and a reserved word "executes as
reject(REJ_RESERVED)". -/
def Obligations.DecodeReadsEveryField : Prop :=
  (∀ w : Word,
    decode w =
      match w.toNat / 2 ^ 60 with
      | 0x0 => if w.toNat % 2 ^ 60 = 0 then .instr .nop else .reserved .zeroField
      | 0x1 => if w.toNat / 2 ^ 32 % 2 ^ 28 = 0 then .instr (.config (w.toNat / 2 ^ 16 % 2 ^ 16) (w.toNat % 2 ^ 16))
          else .reserved .zeroField
      | 0x2 => if w.toNat / 2 ^ 32 % 2 ^ 28 = 0 then
            .instr (.frameStart (w.toNat / 2 ^ 16 % 2 ^ 16) (w.toNat % 2 ^ 16))
          else .reserved .zeroField
      | 0x3 => if w.toNat / 2 ^ 32 % 2 ^ 28 = 0 then .instr (.pixel (w.toNat % 2 ^ 32)) else .reserved .zeroField
      | 0x4 => if w.toNat / 2 ^ 38 % 2 ^ 22 = 0 then
            .instr (.putBits (w.toNat / 2 ^ 32 % 2 ^ 6) (w.toNat % 2 ^ 32))
          else .reserved .zeroField
      | 0x5 => if w.toNat % 2 ^ 60 = 0 then .instr .flush else .reserved .zeroField
      | 0x6 => if w.toNat / 2 ^ 32 % 2 ^ 28 = 0 then
            .instr (.encDelta (if w.toNat % 2 ^ 32 < 2 ^ 31 then (w.toNat % 2 ^ 32 : Nat)
              else ((w.toNat % 2 ^ 32 : Nat) : Int) - 2 ^ 32))
          else .reserved .zeroField
      | 0x7 => if w.toNat / 2 ^ 32 % 2 ^ 28 = 0 then .instr (.encRun (w.toNat % 2 ^ 32)) else .reserved .zeroField
      | 0x8 => if w.toNat % 2 ^ 60 = 0 then .instr .clear else .reserved .zeroField
      | _ => .reserved .opcode) ∧
  ∀ (w : Word) (why : ReservedReason) (s : State), decode w = .reserved why →
    runWord w s = .next { s with lastResp := .rejReserved }

/-- Decoding the word of a well-formed command gives the command back (spec/30 R81 to R88). -/
def Obligations.DecodeOfEncode : Prop :=
  ∀ i : Instr, i.wellFormed = true → decode (encode i) = .instr i

/-- Each word has one meaning: a word that decodes to a command is that command's word, and the command is
well-formed (spec/30 R80, R85, R87). -/
def Obligations.EncodeOfDecode : Prop :=
  ∀ (w : Word) (i : Instr), decode w = .instr i → encode i = w ∧ i.wellFormed = true

/-- spec/30 R91: the pseudo-instructions' expansions, and "An assembler refuses a list whose length is not
W·H". That NEW_WRITER expands for W = 0 or H = 0 too, and is not refused, is the model's deduction, log entry 16. -/
def Obligations.PseudoInstructionExpansions : Prop :=
  (∀ p : Params, AsmLine.pixelInv.expand p.invalidMarker = some [.pixel p.invalidMarker]) ∧
  (∀ (m : Nat) (w h : BitVec 16) (samples : List (BitVec 32)), samples.length = w.toNat * h.toNat →
    (AsmLine.frame w.toNat h.toNat (samples.map BitVec.toNat)).expand m =
      some (.frameStart w.toNat h.toNat :: samples.map fun x => .pixel x.toNat)) ∧
  (∀ (m w h : Nat) (samples : List Nat), samples.length ≠ w * h → (AsmLine.frame w h samples).expand m = none) ∧
  (∀ (m k : Nat) (x : BitVec 32), (AsmLine.pixelRep x.toNat k).expand m = some (List.replicate k (.pixel x.toNat))) ∧
  (∀ (m : Nat) (w h : BitVec 16),
    (AsmLine.newWriter w.toNat h.toNat).expand m = some [.clear, .config w.toNat h.toNat])

/-! ## Running words -/

/-- A step runs the decoded command: with no reset asserted and no command in progress, the word at the head of the
port is taken, and what it decodes to is what runs (spec/30 R88, spec/70 R242). The second clause is of
`withFetchWord`, by which a word is presented (log entry 4). -/
def Obligations.StepRunsDecodedCommand : Prop :=
  (∀ (s : State) (w : Word) (rest : List Word) (i : Instr),
    s.resetLine = false → s.inFlight = none → s.port = w :: rest → decode w = .instr i →
      i.wellFormed = true ∧ step s = exec i { s with port := rest }) ∧
  ∀ (s : State) (nbits w : Nat) (i : Instr), decode (tableWord nbits w) = .instr i →
    step (s.withFetchWord nbits w) = exec i { s with inFlight := none, resetLine := false }

/-- spec/60 R220, spec/70 R231: "Between commands it holds its state indefinitely". -/
def Obligations.IdleDfeHoldsItsState : Prop :=
  ∀ (n : Nat) (s : State), s.resetLine = false → s.port = [] → Host.Core.run core n s = .next s

/-- spec/70 R244: "A sink that never answers leaves the DFE in that command forever" (log entry 11: the command in
progress is the byte in `inFlight`). -/
def Obligations.UnansweredCommandHangs : Prop :=
  ∀ (n : Nat) (s : State) (b : Byte), s.resetLine = false → s.inFlight = some b →
    Host.Core.run core n s = .next s

/-- spec/70 R242: the command handshake. A word at the port is taken from the head, only when no command is in
progress, and is then the one that runs; the others are held, "not lost, not reordered and not merged". Of a step
that sees the reset input the first two clauses say that the held words stay, which R242 does not: that is the
model's choice, log entry 8. -/
def Obligations.PortIsTakenInOrder : Prop :=
  ∀ s t : State, step s = .next t →
    (t.port = s.port ∨
      ∃ w rest, s.port = w :: rest ∧ t.port = rest ∧ s.inFlight = none ∧
        step s = runWord w { s with port := rest }) ∧
    (s.inFlight ≠ none → t.port = s.port) ∧
    (∀ w rest, s.port = w :: rest → s.inFlight = none → s.resetLine = false → t.port = rest)

/-- spec/60 R221, spec/93: no command faults and none is refused, in any state; nor does any step. -/
def Obligations.EveryCommandAnswersANextState : Prop :=
  (∀ (i : Instr) (s : State), ∃ t, exec i s = .next t) ∧ ∀ s : State, ∃ t, step s = .next t

/-! ## The commands -/

/-- spec/44 R190: NOP. -/
def Obligations.NopWritesLastRespOnly : Prop :=
  decode 0 = .instr .nop ∧ decode (formatN 0x0) = .instr .nop ∧
  (∀ s : State, exec .nop s = .next { s with lastResp := .ok }) ∧
  ∀ (w : Word) (s : State), opcodeOf w = 0x0 → zeroFieldN w ≠ 0 →
    runWord w s = .next { s with lastResp := .rejReserved }

/-- spec/44 R191: CLEAR. CFG_W, CFG_H, FRAME_BYTES, TOTAL_BYTES and the sink are kept. -/
def Obligations.ClearLeavesErrorOrAbandonsFrame : Prop :=
  decode (formatN 0x8) = .instr .clear ∧
  (∀ s : State, exec .clear s = .next { s with
    acc := 0
    free := BitVec.ofNat 7 s.params.accWidth
    runLen := 0
    prev := BitVec.ofNat 31 s.params.prevInit
    pixIdx := 0
    done := false
    errCause := none
    phase := if s.cfgW ≠ 0 then .idle else .unconf
    lastResp := .ok }) ∧
  ∀ (w : Word) (s : State), opcodeOf w = 0x8 → zeroFieldN w ≠ 0 →
    runWord w s = .next { s with lastResp := .rejReserved }

/-- spec/43 R160: CONFIG. -/
def Obligations.ConfigConstructsWriter : Prop :=
  ∀ (w h : BitVec 16) (s : State),
    decode (formatD 0x1 w h) = .instr (.config w.toNat h.toNat) ∧
    (¬ BypassState s → exec (.config w.toNat h.toNat) s = .next { s with lastResp := .rejState }) ∧
    (BypassState s → w = 0 ∨ h = 0 →
      exec (.config w.toNat h.toNat) s = .next { s with lastResp := .rejOperand }) ∧
    (BypassState s → w ≠ 0 → h ≠ 0 → s.free.toNat ≠ s.params.accWidth →
      exec (.config w.toNat h.toNat) s = .next { s with lastResp := .rejPending }) ∧
    (BypassState s → w ≠ 0 → h ≠ 0 → s.free.toNat = s.params.accWidth →
      ∃ t, exec (.config w.toNat h.toNat) s = .next t ∧ t.length = w.toNat * h.toNat ∧
        t = { s with
          cfgW := w
          cfgH := h
          totalBytes := 0
          frameBytes := 0
          done := false
          pixIdx := 0
          runLen := 0
          prev := BitVec.ofNat 31 s.params.prevInit
          phase := .idle
          lastResp := .ok }) ∧
    ∀ word : Word, opcodeOf word = 0x1 → zeroFieldDS word ≠ 0 →
      runWord word s = .next { s with lastResp := .rejReserved }

/-- spec/43 R162: FRAME_START. -/
def Obligations.FrameStartBeginsFrame : Prop :=
  ∀ (w h : BitVec 16) (s : State),
    decode (formatD 0x2 w h) = .instr (.frameStart w.toNat h.toNat) ∧
    (s.phase ≠ .idle → exec (.frameStart w.toNat h.toNat) s = .next { s with lastResp := .rejState }) ∧
    (s.phase = .idle → w ≠ s.cfgW ∨ h ≠ s.cfgH →
      exec (.frameStart w.toNat h.toNat) s = .next { s with lastResp := .rejMismatch }) ∧
    (s.phase = .idle → w = s.cfgW → h = s.cfgH → s.free.toNat ≠ s.params.accWidth →
      exec (.frameStart w.toNat h.toNat) s = .next { s with lastResp := .rejPending }) ∧
    (s.phase = .idle → w = s.cfgW → h = s.cfgH → s.free.toNat = s.params.accWidth →
      exec (.frameStart w.toNat h.toNat) s = .next { s with
        runLen := 0
        prev := BitVec.ofNat 31 s.params.prevInit
        pixIdx := 0
        frameBytes := 0
        done := false
        phase := .frame
        lastResp := .ok }) ∧
    ∀ word : Word, opcodeOf word = 0x2 → zeroFieldDS word ≠ 0 →
      runWord word s = .next { s with lastResp := .rejReserved }

/-- spec/30 R91 (NEW_WRITER), spec/44 R191, spec/43 R160: CLEAR then CONFIG is writer construction from any
state. -/
def Obligations.NewWriterFromAnyState : Prop :=
  ∀ (w h : BitVec 16) (s : State), w ≠ 0 → h ≠ 0 →
    ∃ t, exec .clear s = .next t ∧
      exec (.config w.toNat h.toNat) t = .next { State.resetWith s.params with
        phase := .idle
        cfgW := w
        cfgH := h
        port := s.port
        sink := s.sink
        sinkAnswers := s.sinkAnswers
        inFlight := s.inFlight
        resetLine := s.resetLine
        draws := s.draws }

/-- spec/41 R110, R101, R102: PUT_BITS, with the fast and the slow path of PutBits. The premise is the
accumulator's invariant (spec/10 R25). -/
def Obligations.PutBitsAppends : Prop :=
  ∀ (n : BitVec 6) (v : BitVec 32) (s : State), AccOk s →
    decode (formatB 0x4 n v) = .instr (.putBits n.toNat v.toNat) ∧
    (¬ BypassState s → exec (.putBits n.toNat v.toNat) s = .next { s with lastResp := .rejState }) ∧
    (BypassState s → s.params.accWidth < n.toNat →
      exec (.putBits n.toNat v.toNat) s = .next { s with lastResp := .rejOperand }) ∧
    (BypassState s → n.toNat ≤ s.free.toNat →
      exec (.putBits n.toNat v.toNat) s = .next { s with
        acc := s.acc ||| BitVec.ofNat 64 (v.toNat % 2 ^ n.toNat * 2 ^ (s.free.toNat - n.toNat))
        free := BitVec.ofNat 7 (s.free.toNat - n.toNat)
        lastResp := .ok }) ∧
    (BypassState s → s.free.toNat < n.toNat → n.toNat ≤ s.params.accWidth →
      AnswersOk (s.params.accWidth / 8) s →
      ∃ bs : List Byte,
        bytesBits bs = bitsN s.params.accWidth
          (s.acc.toNat + v.toNat % 2 ^ n.toNat / 2 ^ (n.toNat - s.free.toNat)) ∧
        exec (.putBits n.toNat v.toNat) s = .next { s with
          acc := BitVec.ofNat 64 (v.toNat % 2 ^ (n.toNat - s.free.toNat) *
            2 ^ (s.params.accWidth - (n.toNat - s.free.toNat)))
          free := BitVec.ofNat 7 (s.params.accWidth - (n.toNat - s.free.toNat))
          totalBytes := s.totalBytes + BitVec.ofNat 64 (s.params.accWidth / 8)
          lastResp := .ok
          sink := s.sink ++ bs
          sinkAnswers := s.sinkAnswers.drop (s.params.accWidth / 8)
          draws := s.draws + s.params.accWidth / 8 }) ∧
    (∀ k < s.params.accWidth / 8, BypassState s → s.free.toNat < n.toNat → n.toNat ≤ s.params.accWidth →
      AnswersOk k s → s.answerAt k = .err →
      ∃ t, exec (.putBits n.toNat v.toNat) s = .next t ∧
        AbortsAfter k (s.pendingBits ++ bitsN n.toNat v.toNat) s t) ∧
    ∀ word : Word, opcodeOf word = 0x4 → zeroFieldB word ≠ 0 →
      runWord word s = .next { s with lastResp := .rejReserved }

/-- spec/41 R111, R104: FLUSH. -/
def Obligations.FlushWritesPendingBits : Prop :=
  decode (formatN 0x5) = .instr .flush ∧
  (∀ s : State, AccOk s →
    (¬ BypassState s → exec .flush s = .next { s with lastResp := .rejState }) ∧
    (BypassState s → AnswersOk ((s.occ + 7) / 8) s →
      ∃ bs : List Byte, bytesBits bs = s.pendingBits ++ List.replicate ((8 - s.occ % 8) % 8) false ∧
        exec .flush s = .next { s with
          acc := 0
          free := BitVec.ofNat 7 s.params.accWidth
          totalBytes := s.totalBytes + BitVec.ofNat 64 ((s.occ + 7) / 8)
          lastResp := .ok
          sink := s.sink ++ bs
          sinkAnswers := s.sinkAnswers.drop ((s.occ + 7) / 8)
          draws := s.draws + (s.occ + 7) / 8 }) ∧
    ∀ k < (s.occ + 7) / 8, BypassState s → AnswersOk k s → s.answerAt k = .err →
      ∃ t, exec .flush s = .next t ∧ AbortsAfter k (s.pendingBits ++ padding s.occ) s t) ∧
  ∀ (w : Word) (s : State), opcodeOf w = 0x5 → zeroFieldN w ≠ 0 →
    runWord w s = .next { s with lastResp := .rejReserved }

/-- spec/42 R140, R134: ENC_DELTA appends the codeword of the delta's category and its raw bits, and changes
nothing else. -/
def Obligations.EncDeltaAppendsSymbol : Prop :=
  ∀ (d : BitVec 32) (s : State), AccOk s →
    decode (formatS 0x6 d) = .instr (.encDelta d.toInt) ∧
    (¬ BypassState s → exec (.encDelta d.toInt) s = .next { s with lastResp := .rejState }) ∧
    (BypassState s → d = 0x80000000 → exec (.encDelta d.toInt) s = .next { s with lastResp := .rejOverflow }) ∧
    (BypassState s → d ≠ 0x80000000 →
      AnswersOk (appendedBytes (deltaBits s.params d.toInt) s) s →
      ∃ t, exec (.encDelta d.toInt) s = .next t ∧
        Appends (deltaBits s.params d.toInt) { s with lastResp := .ok } t) ∧
    (∀ k < appendedBytes (deltaBits s.params d.toInt) s, BypassState s → d ≠ 0x80000000 →
      AnswersOk k s → s.answerAt k = .err →
      ∃ t, exec (.encDelta d.toInt) s = .next t ∧
        AbortsAfter k (s.pendingBits ++ deltaBits s.params d.toInt) s t) ∧
    ∀ word : Word, opcodeOf word = 0x6 → zeroFieldDS word ≠ 0 →
      runWord word s = .next { s with lastResp := .rejReserved }

/-- spec/42 R141, R137: ENC_RUN appends the codeword of the run's category and, for the escape, its raw bits, and
changes nothing else. -/
def Obligations.EncRunAppendsSymbol : Prop :=
  ∀ (r : BitVec 32) (s : State), AccOk s →
    decode (formatS 0x7 r) = .instr (.encRun r.toNat) ∧
    (¬ BypassState s → exec (.encRun r.toNat) s = .next { s with lastResp := .rejState }) ∧
    (BypassState s → 255 ≤ r.toNat → 2 ^ s.params.runEscBits ≤ r.toNat - 255 →
      exec (.encRun r.toNat) s = .next { s with lastResp := .rejOverflow }) ∧
    (BypassState s → r.toNat < 255 ∨ r.toNat - 255 < 2 ^ s.params.runEscBits →
      AnswersOk (appendedBytes (runBits s.params r.toNat) s) s →
      ∃ t, exec (.encRun r.toNat) s = .next t ∧
        Appends (runBits s.params r.toNat) { s with lastResp := .ok } t) ∧
    (∀ k < appendedBytes (runBits s.params r.toNat) s, BypassState s →
      r.toNat < 255 ∨ r.toNat - 255 < 2 ^ s.params.runEscBits →
      AnswersOk k s → s.answerAt k = .err →
      ∃ t, exec (.encRun r.toNat) s = .next t ∧
        AbortsAfter k (s.pendingBits ++ runBits s.params r.toNat) s t) ∧
    ∀ word : Word, opcodeOf word = 0x7 → zeroFieldDS word ≠ 0 →
      runWord word s = .next { s with lastResp := .rejReserved }

/-- A bypass command that passes its checks and whose `k`-th byte the sink never answers waits, with the bytes
before it in the sink (spec/20 R62, spec/70 R244). What the state shows of a command in progress is the model's
deduction, log entry 11. -/
def Obligations.BypassCommandWaitsForTheSink : Prop :=
  ∀ (i : Instr) (s : State) (k : Nat), i = .flush ∨ (∃ n v, i = .putBits n v) ∨ (∃ d, i = .encDelta d) ∨
      (∃ r, i = .encRun r) → AccOk s → Passes i s →
    k < (if i = .flush then (s.occ + 7) / 8 else appendedBytes (bypassBits i s) s) →
    AnswersOk k s → s.answerAt k = .never →
    ∃ t, exec i s = .next t ∧ WaitsAfter k (s.pendingBits ++ bypassBits i s) s t

/-- spec/43 R164: the rejections of PIXEL, and a PIXEL that is not the last of its frame. An invalid sample extends
the run; a valid one emits the run before it and its delta (an exact integer difference, R165). -/
def Obligations.PixelConsumesSample : Prop :=
  ∀ (x : BitVec 32) (s : State), StateInv s →
    decode (formatS 0x3 x) = .instr (.pixel x.toNat) ∧
    (s.phase ≠ .frame → exec (.pixel x.toNat) s = .next { s with lastResp := .rejState }) ∧
    (s.phase = .frame → 2 ^ s.params.sampleBits ≤ x.toNat →
      exec (.pixel x.toNat) s = .next { s with lastResp := .rejOperand }) ∧
    (s.phase = .frame → s.pixIdx.toNat + 1 ≠ s.length → x.toNat = s.params.invalidMarker →
      exec (.pixel x.toNat) s = .next { s with
        runLen := s.runLen + 1
        pixIdx := s.pixIdx + 1
        lastResp := .ok }) ∧
    (s.phase = .frame → s.pixIdx.toNat + 1 ≠ s.length → x.toNat < 2 ^ s.params.sampleBits →
      x.toNat ≠ s.params.invalidMarker → runOverflow s.params s.runLen.toNat = false →
      AnswersOk (appendedBytes (runBits s.params s.runLen.toNat ++
        deltaBits s.params ((x.toNat : Int) - s.prev.toNat)) s) s →
      ∃ t, exec (.pixel x.toNat) s = .next t ∧
        Appends (runBits s.params s.runLen.toNat ++ deltaBits s.params ((x.toNat : Int) - s.prev.toNat))
          { s with
            runLen := 0
            prev := BitVec.ofNat 31 x.toNat
            pixIdx := s.pixIdx + 1
            lastResp := .ok } t) ∧
    ∀ word : Word, opcodeOf word = 0x3 → zeroFieldDS word ≠ 0 →
      runWord word s = .next { s with lastResp := .rejReserved }

/-- spec/43 R166, R164: the PIXEL that consumes position LENGTH − 1 emits its own bits, the closing run and the
padding, and ends the frame. -/
def Obligations.LastPixelEndsFrame : Prop :=
  ∀ (x : BitVec 32) (s : State), StateInv s → s.phase = .frame → s.pixIdx.toNat + 1 = s.length →
    x.toNat < 2 ^ s.params.sampleBits → overflows (.pixel x.toNat) s = false →
    AnswersOk (flushedBytes (pixelBits x.toNat s ++ closingBits x.toNat s) s) s →
    ∃ bs : List Byte,
      bs.length = flushedBytes (pixelBits x.toNat s ++ closingBits x.toNat s) s ∧
      bytesBits bs = s.pendingBits ++ pixelBits x.toNat s ++ closingBits x.toNat s ++
        padding (s.pendingBits ++ pixelBits x.toNat s ++ closingBits x.toNat s).length ∧
      exec (.pixel x.toNat) s = .next { s with
        runLen := 0
        prev := if x.toNat = s.params.invalidMarker then s.prev else BitVec.ofNat 31 x.toNat
        pixIdx := s.pixIdx + 1
        acc := 0
        free := BitVec.ofNat 7 s.params.accWidth
        frameBytes := s.frameBytes + BitVec.ofNat 64 bs.length
        totalBytes := s.totalBytes + BitVec.ofNat 64 bs.length
        phase := .idle
        done := true
        lastResp := .ok
        sink := s.sink ++ bs
        sinkAnswers := s.sinkAnswers.drop bs.length
        draws := s.draws + bs.length }

/-- spec/60 R207: the cause of ABORT_OVERFLOW, which is raised before any other write of the PIXEL (R206), and is
unreachable at the default RUN_ESC_BITS. -/
def Obligations.PixelOverflowAborts : Prop :=
  (∀ (x : BitVec 32) (s : State), s.phase = .frame → x.toNat < 2 ^ s.params.sampleBits →
    (x.toNat ≠ s.params.invalidMarker ∧ 255 ≤ s.runLen.toNat ∧
        2 ^ s.params.runEscBits ≤ s.runLen.toNat - 255) ∨
      (x.toNat = s.params.invalidMarker ∧ s.pixIdx.toNat + 1 = s.length ∧ 255 ≤ s.runLen.toNat + 1 ∧
        2 ^ s.params.runEscBits ≤ s.runLen.toNat + 1 - 255) →
    exec (.pixel x.toNat) s = .next { s with
      phase := .error
      errCause := some .overflow
      lastResp := .abortOverflow
      acc := 0
      free := BitVec.ofNat 7 s.params.accWidth
      done := false }) ∧
  (∀ (x : BitVec 32) (s t : State), exec (.pixel x.toNat) s = .next t → s.inFlight = none → t.inFlight = none →
    t.lastResp = .abortOverflow →
    s.phase = .frame ∧ x.toNat < 2 ^ s.params.sampleBits ∧ overflows (.pixel x.toNat) s = true) ∧
  ∀ (x : BitVec 32) (s : State), s.params.runEscBits = 32 → StateInv s → s.phase = .frame →
    overflows (.pixel x.toNat) s = false

/-- spec/60 R208, R206, R210: the sink error of a PIXEL, at each place in its emission order. The state writes made
before the failing byte stay: none of them while the sample's own bits are emitted, those of the sample while the
closing run is, and RUN_LEN = 0 too while the frame's end is flushed (R205, with the order of R164 and R166). That
the sample is consumed, and PIX_IDX advanced, by a PIXEL that aborts at the frame's end is the model's deduction, log
entry 14: spec/10 R23 says "not rejected or aborted". -/
def Obligations.PixelSinkErrorAborts : Prop :=
  ∀ (x : BitVec 32) (s : State) (k : Nat), StateInv s → Passes (.pixel x.toNat) s →
    AnswersOk k s → s.answerAt k = .err →
    (k < appendedBytes (pixelBits x.toNat s) s →
      ∃ t, exec (.pixel x.toNat) s = .next t ∧
        AbortsAfter k (s.pendingBits ++ pixelBits x.toNat s) s t) ∧
    (s.pixIdx.toNat + 1 = s.length → appendedBytes (pixelBits x.toNat s) s ≤ k →
      k < appendedBytes (pixelBits x.toNat s ++ closingBits x.toNat s) s →
      ∃ t, exec (.pixel x.toNat) s = .next t ∧
        AbortsAfter k (s.pendingBits ++ pixelBits x.toNat s ++ closingBits x.toNat s) (s.consume x.toNat) t) ∧
    (s.pixIdx.toNat + 1 = s.length → appendedBytes (pixelBits x.toNat s ++ closingBits x.toNat s) s ≤ k →
      k < flushedBytes (pixelBits x.toNat s ++ closingBits x.toNat s) s →
      ∃ t, exec (.pixel x.toNat) s = .next t ∧
        AbortsAfter k (s.pendingBits ++ pixelBits x.toNat s ++ closingBits x.toNat s ++
          padding (s.pendingBits ++ pixelBits x.toNat s ++ closingBits x.toNat s).length)
          { s.consume x.toNat with runLen := 0 } t)

/-- The same three places for a byte the sink never answers: the PIXEL waits there (spec/20 R62, spec/70 R244). The
state a waiting PIXEL shows is the model's deduction: the writes made before the byte (log entry 11), the sample
consumed at the frame's end among them (log entry 14). -/
def Obligations.PixelWaitsForTheSink : Prop :=
  ∀ (x : BitVec 32) (s : State) (k : Nat), StateInv s → Passes (.pixel x.toNat) s →
    AnswersOk k s → s.answerAt k = .never →
    (k < appendedBytes (pixelBits x.toNat s) s →
      ∃ t, exec (.pixel x.toNat) s = .next t ∧
        WaitsAfter k (s.pendingBits ++ pixelBits x.toNat s) s t) ∧
    (s.pixIdx.toNat + 1 = s.length → appendedBytes (pixelBits x.toNat s) s ≤ k →
      k < appendedBytes (pixelBits x.toNat s ++ closingBits x.toNat s) s →
      ∃ t, exec (.pixel x.toNat) s = .next t ∧
        WaitsAfter k (s.pendingBits ++ pixelBits x.toNat s ++ closingBits x.toNat s) (s.consume x.toNat) t) ∧
    (s.pixIdx.toNat + 1 = s.length → appendedBytes (pixelBits x.toNat s ++ closingBits x.toNat s) s ≤ k →
      k < flushedBytes (pixelBits x.toNat s ++ closingBits x.toNat s) s →
      ∃ t, exec (.pixel x.toNat) s = .next t ∧
        WaitsAfter k (s.pendingBits ++ pixelBits x.toNat s ++ closingBits x.toNat s ++
          padding (s.pendingBits ++ pixelBits x.toNat s ++ closingBits x.toNat s).length)
          { s.consume x.toNat with runLen := 0 } t)

/-! ## Responses, rejections, aborts -/

/-- spec/60 R203: a rejected command changes nothing but LAST_RESP. -/
def Obligations.RejectionChangesOnlyLastResp : Prop :=
  ∀ (w : Word) (s t : State), runWord w s = .next t → t.inFlight = none → t.lastResp.isReject = true →
    t = { s with lastResp := t.lastResp }

/-- spec/60 R204: the commands each STATE accepts; any other is REJ_STATE. -/
def Obligations.IllegalStateRejected : Prop :=
  (∀ (i : Instr) (s : State), legalIn i s.phase = false → exec i s = .next { s with lastResp := .rejState }) ∧
  (∀ (i : Instr) (s t : State), legalIn i s.phase = true → exec i s = .next t → t.inFlight = none →
    t.lastResp ≠ .rejState) ∧
  ∀ (w h : Nat) (x n v r : Nat) (d : Int),
    (∀ p : Phase, legalIn .nop p = true ∧ legalIn .clear p = true) ∧
    (∀ p : Phase, (legalIn (.config w h) p = true ↔ p = .unconf ∨ p = .idle) ∧
      (legalIn (.putBits n v) p = true ↔ p = .unconf ∨ p = .idle) ∧
      (legalIn .flush p = true ↔ p = .unconf ∨ p = .idle) ∧
      (legalIn (.encDelta d) p = true ↔ p = .unconf ∨ p = .idle) ∧
      (legalIn (.encRun r) p = true ↔ p = .unconf ∨ p = .idle) ∧
      (legalIn (.frameStart w h) p = true ↔ p = .idle) ∧
      (legalIn (.pixel x) p = true ↔ p = .frame))

/-- spec/60 R209: the conditions are tested in this order, and the first that holds is reported. -/
def Obligations.ConditionPriority : Prop :=
  ∀ s : State,
    (∀ (w : Word) (why : ReservedReason), decode w = .reserved why →
      runWord w s = .next { s with lastResp := .rejReserved }) ∧
    ∀ i : Instr,
      (legalIn i s.phase = false → exec i s = .next { s with lastResp := .rejState }) ∧
      (legalIn i s.phase = true → badOperand i s = true → exec i s = .next { s with lastResp := .rejOperand }) ∧
      (legalIn i s.phase = true → badOperand i s = false → mismatched i s = true →
        exec i s = .next { s with lastResp := .rejMismatch }) ∧
      (legalIn i s.phase = true → badOperand i s = false → mismatched i s = false →
        blockedByPending i s = true → exec i s = .next { s with lastResp := .rejPending }) ∧
      (legalIn i s.phase = true → badOperand i s = false → mismatched i s = false →
        blockedByPending i s = false → overflows i s = true →
        ∃ t, exec i s = .next t ∧
          ((∃ x, i = .pixel x) → t.lastResp = .abortOverflow ∧ t.phase = .error) ∧
          ((¬ ∃ x, i = .pixel x) → t = { s with lastResp := .rejOverflow })) ∧
      (Passes i s → ∀ t, exec i s = .next t → t.inFlight = none →
        t.lastResp = .ok ∨ (t.lastResp = .abortSink ∧ t.phase = .error))

/-- spec/60 R205, R206: what an abort leaves. ABORT_OVERFLOW changes nothing else; ABORT_SINK keeps the bytes that
were accepted before the failing one, in the sink and in TOTAL_BYTES. -/
def Obligations.AbortEntry : Prop :=
  ∀ (i : Instr) (s t : State), exec i s = .next t → s.phase ≠ .error → t.phase = .error →
    t.acc = 0 ∧ t.free.toNat = s.params.accWidth ∧ t.done = false ∧
    t.params = s.params ∧ t.cfgW = s.cfgW ∧ t.cfgH = s.cfgH ∧
    ((t.errCause = some .overflow ∧ t.lastResp = .abortOverflow ∧
        t = { s with
          phase := .error
          errCause := some .overflow
          lastResp := .abortOverflow
          acc := 0
          free := t.free
          done := false }) ∨
      (t.errCause = some .sink ∧ t.lastResp = .abortSink ∧
        ∃ bs : List Byte, t.sink = s.sink ++ bs ∧ t.totalBytes = s.totalBytes + BitVec.ofNat 64 bs.length))

/-- spec/60 R211: in ERROR only NOP and CLEAR are accepted, no command writes the sink or aborts, and the state
written at abort entry stays until CLEAR or reset. -/
def Obligations.ErrorHoldsUntilClearOrReset : Prop :=
  (∀ (i : Instr) (s : State), s.phase = .error → i ≠ .nop → i ≠ .clear →
    exec i s = .next { s with lastResp := .rejState }) ∧
  ∀ s t : State, s.phase = .error → s.resetLine = false → step s = .next t →
    (∀ w rest, s.port = w :: rest → decode w ≠ .instr .clear) →
    t = { s with port := t.port, lastResp := t.lastResp }

/-- spec/10 R21: the transitions of STATE, and no others. -/
def Obligations.PhaseTransitions : Prop :=
  (Phase.unconf.code = 0 ∧ Phase.idle.code = 1 ∧ Phase.frame.code = 2 ∧ Phase.error.code = 3) ∧
  ∀ s t : State, StateInv s → step s = .next t → t.phase ≠ s.phase →
    (s.resetLine = true ∧ t.phase = .unconf) ∨
    (s.resetLine = false ∧ s.inFlight = none ∧ ∃ w rest i, s.port = w :: rest ∧ decode w = .instr i ∧
      ((s.phase = .unconf ∧ t.phase = .idle ∧ ∃ a b, i = .config a b) ∨
        (s.phase = .idle ∧ t.phase = .frame ∧ ∃ a b, i = .frameStart a b) ∨
        (s.phase = .frame ∧ t.phase = .idle ∧ s.pixIdx.toNat + 1 = s.length ∧ ∃ x, i = .pixel x) ∨
        (s.phase ≠ .error ∧ t.phase = .error ∧ (t.lastResp = .abortSink ∨ t.lastResp = .abortOverflow)) ∨
        ((s.phase = .error ∨ s.phase = .frame ∨ s.phase = .idle) ∧ (t.phase = .idle ∨ t.phase = .unconf) ∧
          i = .clear)))

/-! ## What commands leave alone -/

/-- spec/10 R27, R28: TOTAL_BYTES counts every accepted byte and is set to 0 by an accepted CONFIG only; FRAME_BYTES
counts those accepted in FRAME, and an accepted FRAME_START (or CONFIG, spec/43 R160) sets it to 0. -/
def Obligations.CountersCountAcceptedBytes : Prop :=
  ∀ (i : Instr) (s t : State), exec i s = .next t →
    ∃ bs : List Byte, t.sink = s.sink ++ bs ∧
      (Passes i s → (∃ w h, i = .config w h) → bs = [] ∧ t.totalBytes = 0 ∧ t.frameBytes = 0) ∧
      (Passes i s → (∃ w h, i = .frameStart w h) → bs = [] ∧ t.totalBytes = s.totalBytes ∧ t.frameBytes = 0) ∧
      (¬ (Passes i s ∧ ((∃ w h, i = .config w h) ∨ ∃ w h, i = .frameStart w h)) →
        t.totalBytes = s.totalBytes + BitVec.ofNat 64 bs.length ∧
        t.frameBytes =
          if s.phase = .frame then s.frameBytes + BitVec.ofNat 64 bs.length else s.frameBytes)

/-- spec/10 R22: CFG_W and CFG_H are written by an accepted CONFIG alone, which takes only values ≥ 1. -/
def Obligations.OnlyConfigWritesGeometry : Prop :=
  ∀ (i : Instr) (s t : State), i.wellFormed = true → exec i s = .next t →
    (t.cfgW = s.cfgW ∧ t.cfgH = s.cfgH) ∨
    ∃ w h, i = .config w h ∧ t.lastResp = .ok ∧ t.cfgW.toNat = w ∧ t.cfgH.toNat = h ∧ 1 ≤ w ∧ 1 ≤ h

/-- spec/10 R23, R20: PIX_IDX advances by exactly one per accepted PIXEL; CONFIG, FRAME_START and CLEAR set it to
0; nothing else writes it. A PIXEL that aborts at the frame's end, or waits there, has already advanced it
(spec/60 R205, log entry 14). -/
def Obligations.PixIdxAdvancesByAcceptedPixels : Prop :=
  ∀ (i : Instr) (s t : State), exec i s = .next t →
    (t.pixIdx = s.pixIdx ∨
      (∃ x, i = .pixel x ∧ s.phase = .frame ∧ t.pixIdx = s.pixIdx + 1) ∨
      (((∃ w h, i = .config w h) ∨ (∃ w h, i = .frameStart w h) ∨ i = .clear) ∧ t.pixIdx = 0 ∧
        t.lastResp = .ok)) ∧
    ∀ x, i = .pixel x → Passes i s → t.inFlight = none → t.lastResp = .ok → t.pixIdx = s.pixIdx + 1

/-- spec/10 R26: a valid PIXEL that goes through leaves its sample in PREV; an accepted CONFIG, FRAME_START or CLEAR
leaves PREV_INIT; an invalid sample leaves PREV unchanged, and so does every other command. -/
def Obligations.PrevIsTheLastValidSample : Prop :=
  ∀ (i : Instr) (s t : State), exec i s = .next t →
    (t.prev = s.prev ∨
      (∃ x, i = .pixel x ∧ x ≠ s.params.invalidMarker ∧ x < 2 ^ s.params.sampleBits ∧ s.phase = .frame ∧
        t.prev.toNat = x) ∨
      (((∃ w h, i = .config w h) ∨ (∃ w h, i = .frameStart w h) ∨ i = .clear) ∧
        t.prev.toNat = s.params.prevInit)) ∧
    (∀ x, i = .pixel x → x ≠ s.params.invalidMarker → Passes i s → t.inFlight = none → t.lastResp = .ok →
      t.prev.toNat = x) ∧
    (i = .pixel s.params.invalidMarker → t.prev = s.prev) ∧
    (((∃ w h, i = .config w h) ∨ (∃ w h, i = .frameStart w h) ∨ i = .clear) → Passes i s →
      t.prev.toNat = s.params.prevInit)

/-- spec/41 R110, R111, spec/42 R140, R141: PUT_BITS, FLUSH, ENC_DELTA and ENC_RUN, however they end, leave the
geometry, the run state, PREV, FRAME_BYTES and the port as they were; DONE is changed by an abort alone. -/
def Obligations.BypassLeavesRunState : Prop :=
  ∀ (i : Instr) (s t : State), i = .flush ∨ (∃ n v, i = .putBits n v) ∨ (∃ d, i = .encDelta d) ∨
      (∃ r, i = .encRun r) → exec i s = .next t →
    t.params = s.params ∧ t.cfgW = s.cfgW ∧ t.cfgH = s.cfgH ∧ t.pixIdx = s.pixIdx ∧ t.runLen = s.runLen ∧
    t.prev = s.prev ∧ t.frameBytes = s.frameBytes ∧ t.port = s.port ∧ t.resetLine = s.resetLine ∧
    ((t.done = s.done ∧ t.phase = s.phase ∧ t.errCause = s.errCause) ∨
      (t.done = false ∧ t.phase = .error ∧ t.errCause = some .sink ∧ t.lastResp = .abortSink))

/-- spec/10 R29: DONE is set by the PIXEL that completes a frame, that is, takes STATE from FRAME to IDLE, and by
nothing else; after CONFIG, FRAME_START, CLEAR and any abort it is 0. -/
def Obligations.DoneMarksCompletedFrame : Prop :=
  ∀ (i : Instr) (s t : State), StateInv s → exec i s = .next t →
    (t.done = true → s.done = false →
      ∃ x, i = .pixel x ∧ s.phase = .frame ∧ t.phase = .idle ∧ t.pixIdx.toNat = t.length) ∧
    ((∃ x, i = .pixel x) → s.phase = .frame → t.phase = .idle → t.done = true) ∧
    (t.phase = .error → t.done = false) ∧
    (((∃ w h, i = .config w h) ∨ (∃ w h, i = .frameStart w h) ∨ i = .clear) → Passes i s → t.done = false)

/-! ## The BitWriter and the Huffman encoder -/

/-- spec/41 R103, spec/20 R62: EmitByte, for each of the sink's three answers. -/
def Obligations.EmitByteCountsAcceptedBytes : Prop :=
  ∀ (b : Byte) (s : State),
    (s.answerAt 0 = .ok → emitByte b s = .going { s with
      sink := s.sink ++ [b]
      totalBytes := s.totalBytes + 1
      frameBytes := if s.phase = .frame then s.frameBytes + 1 else s.frameBytes
      sinkAnswers := s.sinkAnswers.tail
      draws := s.draws + 1 }) ∧
    (s.answerAt 0 = .err → emitByte b s = .aborted { s with
      phase := .error
      errCause := some .sink
      lastResp := .abortSink
      acc := 0
      free := BitVec.ofNat 7 s.params.accWidth
      done := false
      sinkAnswers := s.sinkAnswers.tail
      draws := s.draws + 1 }) ∧
    (s.answerAt 0 = .never → emitByte b s = .waiting { s with
      inFlight := some b
      sinkAnswers := s.sinkAnswers.tail
      draws := s.draws + 1 })

/-- spec/41 R106: bytes leave only in an insertion that does not fit and in a flush; an insertion of no bits
changes nothing at all. -/
def Obligations.LazyEmission : Prop :=
  (∀ (v : Nat) (s : State), putBits 0 v s = .going s) ∧
  (∀ (n v : Nat) (s : State), n ≤ s.free.toNat → ∃ t, putBits n v s = .going t ∧
    t = { s with acc := t.acc, free := BitVec.ofNat 7 (s.free.toNat - n) }) ∧
  (∀ (n v : Nat) (s t : State), AccOk s → s.free.toNat < n → n ≤ s.params.accWidth →
    putBits n v s = .going t → t.sink.length = s.sink.length + s.params.accWidth / 8) ∧
  ∀ s t : State, flushBits s = .going t → t.sink.length = s.sink.length + (s.occ + 7) / 8

/-- spec/41 R105: the stream law. The bytes are the bit strings one after the other and zero bits to a byte; at each
point between, what the sink holds is a prefix of them that lags by at most ACC_WIDTH bits. -/
def Obligations.StreamLaw : Prop :=
  ∀ (ps : List (Nat × Nat)) (s : State), AccOk s → s.free.toNat = s.params.accWidth →
    (∀ nv ∈ ps, nv.1 ≤ s.params.accWidth) → AnswersOk (((putAllBits ps).length + 7) / 8) s →
    (∃ (t : State) (bs : List Byte), (putAll ps s).andThen flushBits = .going t ∧ t.sink = s.sink ++ bs ∧
      bytesBits bs = putAllBits ps ++ List.replicate ((8 - (putAllBits ps).length % 8) % 8) false ∧
      bs.length = ((putAllBits ps).length + 7) / 8) ∧
    ∀ qs, qs <+: ps → ∃ (u : State) (bs : List Byte), putAll qs s = .going u ∧ u.sink = s.sink ++ bs ∧
      bytesBits bs <+: putAllBits qs ∧ (putAllBits qs).length - 8 * bs.length ≤ s.params.accWidth

/-- spec/42 R132: the delta categories. -/
def Obligations.DeltaCategories : Prop :=
  (∀ d : Int, deltaCat d = 0 ↔ d = 0) ∧
  (∀ (d : Int) (k : Nat), 1 ≤ k → (deltaCat d = k ↔ 2 ^ (k - 1) ≤ d.natAbs ∧ d.natAbs ≤ 2 ^ k - 1)) ∧
  ∀ m k : Nat, bitlen m = k ↔ m < 2 ^ k ∧ ∀ j < k, 2 ^ j ≤ m

/-- spec/42 R133: the raw bits. DeltaRaw is a bijection from category k onto 0..2^k−1, the positive deltas take the
upper half and the negative ones the lower; delta overflow is |d| ≥ 2^31. -/
def Obligations.DeltaRawIsABijection : Prop :=
  (∀ k : Nat, 1 ≤ k → Set.BijOn deltaRaw {d | deltaCat d = k} {m | m < 2 ^ k}) ∧
  (∀ d : Int, 0 < d → (deltaRaw d : Int) = d ∧ (deltaRaw d).testBit (deltaCat d - 1) = true) ∧
  (∀ d : Int, d < 0 → (deltaRaw d : Int) = d + (2 ^ deltaCat d - 1) ∧
    (deltaRaw d).testBit (deltaCat d - 1) = false) ∧
  ∀ d : Int, deltaOverflow d = true ↔ 2 ^ 31 ≤ d.natAbs

/-- spec/42 R135: a frame's deltas never overflow. -/
def Obligations.FrameDeltaNeverOverflows : Prop :=
  ∀ (p : Params) (x y : Nat), x < 2 ^ p.sampleBits → y < 2 ^ p.sampleBits →
    deltaCat ((x : Int) - y) ≤ p.sampleBits ∧ deltaOverflow ((x : Int) - y) = false

/-- spec/42 R136: the run categories, and run overflow, which no run of 32 bits meets at the default RUN_ESC_BITS
and some run meets at a smaller one. -/
def Obligations.RunCategories : Prop :=
  (∀ r : Nat, runCat r = if r ≤ 254 then r else 255) ∧
  (∀ (p : Params) (r : Nat), runOverflow p r = true ↔ 255 ≤ r ∧ 2 ^ p.runEscBits ≤ r - 255) ∧
  (∀ (p : Params) (r : Nat), p.runEscBits = 32 → r < 2 ^ 32 → runOverflow p r = false) ∧
  (∀ p : Params, p.runEscBits < 32 → ∃ r < 2 ^ 32, runOverflow p r = true) ∧
  ∀ (p : Params) (r : Nat),
    runBits p r = if r ≤ 254 then codeword (cbRun p r)
      else codeword (cbRun p 255) ++ bitsN p.runEscBits (r - 255)

/-- spec/42 R139: with prefix-free codebooks a decoder that knows which alphabet comes next reads exactly one symbol
from any stream, and inverts the raw bits. -/
def Obligations.SymbolsDecodable : Prop :=
  (∀ (p : Params) (r q : Nat) (x y : List Bool), prefixFree 256 p.runCb →
    runOverflow p r = false → runOverflow p q = false → runBits p r ++ x = runBits p q ++ y → r = q ∧ x = y) ∧
  (∀ (p : Params) (d e : Int) (x y : List Bool), prefixFree 32 p.deltaCb →
    deltaOverflow d = false → deltaOverflow e = false → deltaBits p d ++ x = deltaBits p e ++ y →
    d = e ∧ x = y) ∧
  (∀ d : Int, d ≠ 0 → d = if 2 ^ (deltaCat d - 1) ≤ deltaRaw d then (deltaRaw d : Int)
    else (deltaRaw d : Int) - (2 ^ deltaCat d - 1)) ∧
  ∀ r : Nat, 255 ≤ r → r = 255 + runRemainder r

/-! ## Invariants -/

/-- The reset state meets the invariants of spec/10 R38, for every DFE. -/
def Obligations.ResetMeetsInvariant : Prop := ∀ p : Params, StateInv (State.resetWith p)

/-- Every step keeps the invariants of spec/10 R38, from every state that has them. -/
def Obligations.StepKeepsInvariant : Prop := ∀ s t : State, StateInv s → step s = .next t → StateInv t

/-- spec/10 R38: the invariants that hold between commands in every reachable state. -/
def Obligations.ReachableStatesMeetR38 : Prop :=
  (∀ (p : Params) (s : State), Reachable p s → s.inFlight = none →
    (s.free.toNat ≤ p.accWidth ∧ (0 < s.free.toNat → s.acc.toNat % 2 ^ s.free.toNat = 0)) ∧
    ((s.phase = .unconf → s.cfgW = 0 ∧ s.cfgH = 0) ∧
      (s.phase = .idle ∨ s.phase = .frame → 1 ≤ s.cfgW.toNat ∧ 1 ≤ s.cfgH.toNat)) ∧
    (s.phase = .frame → s.pixIdx.toNat < s.length ∧ s.runLen.toNat ≤ s.pixIdx.toNat) ∧
    (s.phase = .unconf ∨ s.phase = .idle → s.runLen = 0) ∧
    (s.phase ≠ .error ↔ causeCode s.errCause = 0) ∧
    (s.done = true → s.phase = .idle ∧ s.pixIdx.toNat = s.length)) ∧
  ∀ (p : Params) (s t : State) (x : Nat), Reachable p s → exec (.pixel x) s = .next t →
    s.phase = .frame → t.phase = .idle → t.free.toNat = p.accWidth ∧ t.acc = 0

/-! ## Frames -/

/-- spec/43 R170, R171: the symbols of a frame. A run of invalid samples before a valid one is one Run and its
Delta; what is left is the closing Run; with m valid samples there are 2m + 1 symbols, Run and Delta in turn. -/
def Obligations.FrameGrammar : Prop :=
  (∀ (p : Params) (prev r v : Nat) (rest : List Nat), v ≠ p.invalidMarker →
    symbolsFrom p 0 prev (List.replicate r p.invalidMarker ++ v :: rest) =
      .run r :: .delta ((v : Int) - prev) :: symbolsFrom p 0 v rest) ∧
  (∀ (p : Params) (prev r : Nat), symbolsFrom p 0 prev (List.replicate r p.invalidMarker) = [.run r]) ∧
  ∀ (p : Params) (samples : List Nat),
    (frameSymbols p samples).length = 2 * samples.countP (· ≠ p.invalidMarker) + 1 ∧
    ∀ j < (frameSymbols p samples).length,
      (j % 2 = 0 → ∃ r, (frameSymbols p samples)[j]? = some (.run r)) ∧
      (j % 2 = 1 → ∃ d, (frameSymbols p samples)[j]? = some (.delta d))

/-- spec/43 R167, R170, R172: the words of FRAME, run from IDLE with an empty accumulator, put exactly the frame's
bitstream in the sink, count its bytes in FRAME_BYTES and in TOTAL_BYTES, and end in IDLE with DONE = 1. The whole
final state is given. -/
def Obligations.FrameWritesItsBitstream : Prop :=
  ∀ (samples : List Nat) (rest : List Word) (s : State), FrameReady samples rest s →
    ∃ bs : List Byte, bytesBits bs = frameBits s.params samples ∧
      bs.length = ((frameBody s.params samples).length + 7) / 8 ∧
      Host.Core.run core (samples.length + 1) s = .next { s with
        phase := .idle
        pixIdx := BitVec.ofNat 32 samples.length
        runLen := 0
        prev := BitVec.ofNat 31 (baselineAfter s.params s.params.prevInit samples)
        acc := 0
        frameBytes := BitVec.ofNat 64 bs.length
        totalBytes := s.totalBytes + BitVec.ofNat 64 bs.length
        done := true
        lastResp := .ok
        port := rest
        sink := s.sink ++ bs
        sinkAnswers := s.sinkAnswers.drop bs.length
        draws := s.draws + bs.length }

/-- spec/43 R173: a frame's bytes depend on its samples, PREV_INIT, INVALID_MARKER, RUN_ESC_BITS and the codebooks
alone: two DFEs that agree on those, in whatever states and with whatever ACC_WIDTH, put the same bytes in their
sinks. -/
def Obligations.FrameDeterminism : Prop :=
  ∀ (samples : List Nat) (rest₁ rest₂ : List Word) (s₁ s₂ : State),
    FrameReady samples rest₁ s₁ → FrameReady samples rest₂ s₂ →
    s₁.params.prevInit = s₂.params.prevInit → s₁.params.invalidMarker = s₂.params.invalidMarker →
    s₁.params.runEscBits = s₂.params.runEscBits → s₁.params.deltaCb = s₂.params.deltaCb →
    s₁.params.runCb = s₂.params.runCb →
    ∃ (t₁ t₂ : State) (bs : List Byte),
      Host.Core.run core (samples.length + 1) s₁ = .next t₁ ∧
      Host.Core.run core (samples.length + 1) s₂ = .next t₂ ∧
      t₁.sink = s₁.sink ++ bs ∧ t₂.sink = s₂.sink ++ bs ∧ t₁.frameBytes = t₂.frameBytes

/-- spec/43 R174: with prefix-free codebooks, a decoder that knows LENGTH splits a concatenation: two streams that
begin with a frame of the same length and are equal begin with the same frame, and go on equal. -/
def Obligations.FramesSelfDelimiting : Prop :=
  ∀ (p : Params) (f g : List Nat) (x y : List Bool), prefixFree 32 p.deltaCb → prefixFree 256 p.runCb →
    f.length = g.length → (∀ v ∈ f, v < 2 ^ p.sampleBits) → (∀ v ∈ g, v < 2 ^ p.sampleBits) →
    (∀ r, Symbol.run r ∈ frameSymbols p f → runOverflow p r = false) →
    (∀ r, Symbol.run r ∈ frameSymbols p g → runOverflow p r = false) →
    frameBits p f ++ x = frameBits p g ++ y → f = g ∧ x = y

/-- What the source asks of the codec (spec/43 R175), as far as the encoder can show it: from what the sink received
the frame is determined. If the bytes of one run are a prefix of another's, the two frames are equal. -/
def Obligations.SinkBytesDetermineTheFrame : Prop :=
  ∀ (f g : List Nat) (rest₁ rest₂ : List Word) (s₁ s₂ t₁ t₂ : State),
    FrameReady f rest₁ s₁ → FrameReady g rest₂ s₂ → s₁.params = s₂.params → f.length = g.length →
    prefixFree 32 s₁.params.deltaCb → prefixFree 256 s₁.params.runCb →
    Host.Core.run core (f.length + 1) s₁ = .next t₁ → Host.Core.run core (g.length + 1) s₂ = .next t₂ →
    t₁.sink.drop s₁.sink.length <+: t₂.sink.drop s₂.sink.length → f = g
end

