-- ==== Sys2Proof/Laws/Bits.lean ====
section
/-! SUPPORT. Lemmas about bit strings (`bitsN`, `bytesBits`), about the numbers of the Huffman encoder
(`bitlen`, `deltaRaw`) and about the lazy accumulator's arithmetic (`lazyPending`, `lazyBytes`). -/

namespace Sys2Proof.Machine

/-! ## bitsN -/

@[simp] theorem bitsN_zero (v : Nat) : bitsN 0 v = [] := rfl

theorem bitsN_succ (n v : Nat) : bitsN (n + 1) v = v.testBit n :: bitsN n v := rfl

@[simp] theorem length_bitsN (n v : Nat) : (bitsN n v).length = n := by
  induction n with
  | zero => rfl
  | succ n ih => simp [bitsN_succ, ih]

theorem bitsN_congr {n v w : Nat} (h : ∀ i < n, v.testBit i = w.testBit i) : bitsN n v = bitsN n w := by
  induction n with
  | zero => rfl
  | succ n ih =>
    rw [bitsN_succ, bitsN_succ, h n (Nat.lt_succ_self n), ih fun i hi => h i (Nat.lt_succ_of_lt hi)]

/-- Only the low `n` bits count (spec/30 R85). -/
theorem bitsN_mod (n v : Nat) : bitsN n (v % 2 ^ n) = bitsN n v :=
  bitsN_congr fun i hi => by simp [Nat.testBit_mod_two_pow, hi]

theorem bitsN_zero_value (n : Nat) : bitsN n 0 = List.replicate n false := by
  induction n with
  | zero => rfl
  | succ n ih => simp [bitsN_succ, ih, List.replicate_succ]

/-- The high `a` bits, then the low `b` bits. -/
theorem bitsN_add (a b v : Nat) : bitsN (a + b) v = bitsN a (v >>> b) ++ bitsN b v := by
  induction a with
  | zero => simp
  | succ a ih =>
    rw [show a + 1 + b = (a + b) + 1 by omega, bitsN_succ, bitsN_succ, ih, Nat.testBit_shiftRight, Nat.add_comm b a]
    rfl

/-- A bit string determines the number, up to its width. -/
theorem bitsN_inj {n v w : Nat} (h : bitsN n v = bitsN n w) : v % 2 ^ n = w % 2 ^ n := by
  have key : ∀ i < n, v.testBit i = w.testBit i := by
    induction n with
    | zero => intro i hi; omega
    | succ n ih =>
      rw [bitsN_succ, bitsN_succ, List.cons.injEq] at h
      intro i hi
      rcases Nat.lt_succ_iff_lt_or_eq.mp hi with hlt | rfl
      · exact ih h.2 i hlt
      · exact h.1
  apply Nat.eq_of_testBit_eq
  intro i
  rw [Nat.testBit_mod_two_pow, Nat.testBit_mod_two_pow]
  by_cases hi : i < n
  · rw [key i hi]
  · simp [hi]

/-! ## bytesBits -/

@[simp] theorem bytesBits_nil : bytesBits [] = [] := rfl

@[simp] theorem bytesBits_cons (b : Byte) (bs : List Byte) : bytesBits (b :: bs) = byteBits b ++ bytesBits bs := rfl

@[simp] theorem bytesBits_append (xs ys : List Byte) : bytesBits (xs ++ ys) = bytesBits xs ++ bytesBits ys := by
  simp [bytesBits]

@[simp] theorem length_byteBits (b : Byte) : (byteBits b).length = 8 := length_bitsN 8 _

@[simp] theorem length_bytesBits (bs : List Byte) : (bytesBits bs).length = 8 * bs.length := by
  induction bs with
  | nil => rfl
  | cons b bs ih => simp [ih]; omega

theorem byteBits_inj {a b : Byte} (h : byteBits a = byteBits b) : a = b := by
  have := bitsN_inj h
  apply BitVec.eq_of_toNat_eq
  have ha := a.isLt
  have hb := b.isLt
  rwa [Nat.mod_eq_of_lt ha, Nat.mod_eq_of_lt hb] at this

/-- The bytes are determined by their bits. -/
theorem bytesBits_inj {xs ys : List Byte} (h : bytesBits xs = bytesBits ys) : xs = ys := by
  induction xs generalizing ys with
  | nil =>
    cases ys with
    | nil => rfl
    | cons y ys => have := congrArg List.length h; simp at this; omega
  | cons x xs ih =>
    cases ys with
    | nil => have := congrArg List.length h; simp at this
    | cons y ys =>
      have := List.append_inj h (by simp)
      rw [byteBits_inj this.1, ih this.2]

/-! ## bitlen, categories and raw bits -/

/-- "the least k ≥ 0 with m < 2^k" (spec/00 R9). -/
theorem lt_two_pow_iff_bitlen_le (m k : Nat) : m < 2 ^ k ↔ bitlen m ≤ k := by
  unfold bitlen
  split
  · next h => subst h; simp
  · next h => rw [← Nat.log2_lt h]; omega

theorem bitlen_pos {m : Nat} (h : m ≠ 0) : 1 ≤ bitlen m := by
  unfold bitlen; simp [h]

theorem two_pow_bitlen_le {m : Nat} (h : m ≠ 0) : 2 ^ (bitlen m - 1) ≤ m := by
  have h1 := lt_two_pow_iff_bitlen_le m (bitlen m - 1)
  have h2 := bitlen_pos h
  by_contra hc
  have := h1.mp (by omega)
  omega

theorem deltaCat_zero : deltaCat 0 = 0 := rfl

/-- Category k ≥ 1 is 2^(k−1) ≤ |d| ≤ 2^k − 1 (spec/42 R132). -/
theorem deltaCat_bounds {d : Int} (h : d ≠ 0) :
    1 ≤ deltaCat d ∧ 2 ^ (deltaCat d - 1) ≤ d.natAbs ∧ d.natAbs < 2 ^ deltaCat d := by
  have h0 : d.natAbs ≠ 0 := by omega
  exact ⟨bitlen_pos h0, two_pow_bitlen_le h0, (lt_two_pow_iff_bitlen_le _ _).mpr (Nat.le_refl _)⟩

theorem deltaCat_le_iff (d : Int) (k : Nat) : deltaCat d ≤ k ↔ d.natAbs < 2 ^ k :=
  (lt_two_pow_iff_bitlen_le _ _).symm

/-- The raw bits fit in the category's width (spec/42 R133). -/
theorem deltaRaw_lt (d : Int) : deltaRaw d < 2 ^ deltaCat d := by
  by_cases h : d = 0
  · subst h; decide
  · obtain ⟨-, -, h3⟩ := deltaCat_bounds h
    unfold deltaRaw
    have : (0 : Int) < 2 ^ deltaCat d := by positivity
    have h3' : (d.natAbs : Int) < 2 ^ deltaCat d := by exact_mod_cast h3
    zify
    split
    · omega
    · omega

/-- The decoder's inverse of DeltaRaw (spec/42 R139): the raw value is at least 2^(k−1) for a positive delta and
below it for a negative one. -/
theorem deltaRaw_inverse {d : Int} (h : d ≠ 0) :
    d = if 2 ^ (deltaCat d - 1) ≤ deltaRaw d then (deltaRaw d : Int)
      else (deltaRaw d : Int) - (2 ^ deltaCat d - 1) := by
  obtain ⟨h1, h2, h3⟩ := deltaCat_bounds h
  have hp : (2 : Int) ^ deltaCat d = 2 * 2 ^ (deltaCat d - 1) := by
    rw [← pow_succ']; congr 1; omega
  have h2' : (2 : Int) ^ (deltaCat d - 1) ≤ d.natAbs := by exact_mod_cast h2
  have h3' : (d.natAbs : Int) < 2 ^ deltaCat d := by exact_mod_cast h3
  have hcast : (2 ^ (deltaCat d - 1) ≤ deltaRaw d) ↔ (2 : Int) ^ (deltaCat d - 1) ≤ (deltaRaw d : Int) := by
    constructor <;> intro h <;> exact_mod_cast h
  unfold deltaRaw at *
  generalize (2 : Int) ^ (deltaCat d - 1) = P at *
  by_cases hd : 0 < d
  · simp only [if_pos hd] at *
    rw [if_pos (hcast.mpr (by omega))]
    omega
  · simp only [if_neg hd] at *
    rw [if_neg (fun hc => by have := hcast.mp hc; omega)]
    omega

/-- Two deltas of one category with the same raw bits are equal. -/
theorem deltaRaw_inj {d e : Int} (hc : deltaCat d = deltaCat e) (hr : deltaRaw d = deltaRaw e) : d = e := by
  by_cases hd : d = 0
  · by_cases he : e = 0
    · rw [hd, he]
    · have := (deltaCat_bounds he).1
      rw [← hc, hd, deltaCat_zero] at this
      omega
  · by_cases he : e = 0
    · have := (deltaCat_bounds hd).1
      rw [hc, he, deltaCat_zero] at this
      omega
    · rw [deltaRaw_inverse hd, deltaRaw_inverse he, hc, hr]

theorem runCat_le (r : Nat) : runCat r ≤ 255 := by
  unfold runCat runEscape; split <;> omega

/-! ## The lazy accumulator -/

@[simp] theorem lazyPending_zero (w : Nat) : lazyPending w 0 = 0 := rfl

theorem lazyPending_le {w : Nat} (hw : 0 < w) (n : Nat) : lazyPending w n ≤ w := by
  unfold lazyPending
  split
  · omega
  · have := Nat.mod_lt (n - 1) hw; omega

theorem lazyPending_le_self (w n : Nat) : lazyPending w n ≤ n := by
  unfold lazyPending
  split
  · omega
  · have := Nat.mod_le (n - 1) w; omega

/-- What fits stays. -/
theorem lazyPending_of_le {w n : Nat} (h : n ≤ w) : lazyPending w n = n := by
  unfold lazyPending
  split
  · omega
  · rw [Nat.mod_eq_of_lt (by omega)]; omega

/-- One word leaves when what is there does not fit and twice the width would hold it. -/
theorem lazyPending_of_gt {w n : Nat} (h1 : w < n) (h2 : n ≤ 2 * w) : lazyPending w n = n - w := by
  unfold lazyPending
  rw [if_neg (by omega), show n - 1 = (n - w - 1) + w by omega, Nat.add_mod_right, Nat.mod_eq_of_lt (by omega)]
  omega

/-- The total decides what is pending, not the way it was split into insertions. -/
theorem lazyPending_add {w : Nat} (a b : Nat) :
    lazyPending w (lazyPending w a + b) = lazyPending w (a + b) := by
  by_cases ha : a = 0
  · simp [ha]
  · have h1 : lazyPending w a = (a - 1) % w + 1 := by unfold lazyPending; rw [if_neg ha]
    rw [h1]
    unfold lazyPending
    rw [if_neg (by omega), if_neg (by omega)]
    congr 1
    rw [show (a - 1) % w + 1 + b - 1 = (a - 1) % w + b by omega, show a + b - 1 = (a - 1) + b by omega,
      Nat.mod_add_mod]

/-- What left is a whole number of words. -/
theorem dvd_sub_lazyPending {w : Nat} (n : Nat) : w ∣ n - lazyPending w n := by
  unfold lazyPending
  split
  · next h => subst h; simp
  · next h =>
    rw [show n - ((n - 1) % w + 1) = (n - 1) - (n - 1) % w by omega]
    exact Nat.dvd_sub_mod (n - 1)

theorem eight_mul_lazyBytes {w : Nat} (hw : w % 8 = 0) (n : Nat) : 8 * lazyBytes w n = n - lazyPending w n := by
  unfold lazyBytes
  exact Nat.mul_div_cancel' ((Nat.dvd_of_mod_eq_zero hw).trans (dvd_sub_lazyPending n))

/-- The bytes that left in two insertions one after the other. -/
theorem lazyBytes_add {w : Nat} (hw : w % 8 = 0) (a b : Nat) :
    lazyBytes w a + lazyBytes w (lazyPending w a + b) = lazyBytes w (a + b) := by
  have h1 := eight_mul_lazyBytes hw a
  have h2 := eight_mul_lazyBytes hw (lazyPending w a + b)
  have h3 := eight_mul_lazyBytes hw (a + b)
  rw [lazyPending_add] at h2
  have h4 := lazyPending_le_self w a
  have h5 := lazyPending_le_self w (lazyPending w a + b)
  rw [lazyPending_add] at h5
  omega

theorem lazyBytes_of_le {w n : Nat} (h : n ≤ w) : lazyBytes w n = 0 := by
  unfold lazyBytes; rw [lazyPending_of_le h]; simp

theorem lazyBytes_of_gt {w n : Nat} (h1 : w < n) (h2 : n ≤ 2 * w) : lazyBytes w n = w / 8 := by
  unfold lazyBytes; rw [lazyPending_of_gt h1 h2]; congr 1; omega

/-! ## Padding -/

@[simp] theorem length_padding (n : Nat) : (padding n).length = (8 - n % 8) % 8 := by simp [padding]

end Sys2Proof.Machine
end

