-- ==== Sys2Proof/Laws/State.lean ====
section
/-! SUPPORT. One lemma per field for every update of the state: what each update leaves in each field. -/

namespace Sys2Proof.Machine

variable (s : State)

/-! ## respond -/

@[simp] theorem State.respond_params (c : Resp) : (s.respond c).params = s.params := rfl
@[simp] theorem State.respond_phase (c : Resp) : (s.respond c).phase = s.phase := rfl
@[simp] theorem State.respond_cfgW (c : Resp) : (s.respond c).cfgW = s.cfgW := rfl
@[simp] theorem State.respond_cfgH (c : Resp) : (s.respond c).cfgH = s.cfgH := rfl
@[simp] theorem State.respond_pixIdx (c : Resp) : (s.respond c).pixIdx = s.pixIdx := rfl
@[simp] theorem State.respond_runLen (c : Resp) : (s.respond c).runLen = s.runLen := rfl
@[simp] theorem State.respond_acc (c : Resp) : (s.respond c).acc = s.acc := rfl
@[simp] theorem State.respond_free (c : Resp) : (s.respond c).free = s.free := rfl
@[simp] theorem State.respond_prev (c : Resp) : (s.respond c).prev = s.prev := rfl
@[simp] theorem State.respond_frameBytes (c : Resp) : (s.respond c).frameBytes = s.frameBytes := rfl
@[simp] theorem State.respond_totalBytes (c : Resp) : (s.respond c).totalBytes = s.totalBytes := rfl
@[simp] theorem State.respond_done (c : Resp) : (s.respond c).done = s.done := rfl
@[simp] theorem State.respond_lastResp (c : Resp) : (s.respond c).lastResp = c := rfl
@[simp] theorem State.respond_errCause (c : Resp) : (s.respond c).errCause = s.errCause := rfl
@[simp] theorem State.respond_port (c : Resp) : (s.respond c).port = s.port := rfl
@[simp] theorem State.respond_sink (c : Resp) : (s.respond c).sink = s.sink := rfl
@[simp] theorem State.respond_sinkAnswers (c : Resp) : (s.respond c).sinkAnswers = s.sinkAnswers := rfl
@[simp] theorem State.respond_inFlight (c : Resp) : (s.respond c).inFlight = s.inFlight := rfl
@[simp] theorem State.respond_resetLine (c : Resp) : (s.respond c).resetLine = s.resetLine := rfl
@[simp] theorem State.respond_draws (c : Resp) : (s.respond c).draws = s.draws := rfl

/-! ## reject -/

@[simp] theorem State.reject_params (c : Resp) : (s.reject c).params = s.params := rfl
@[simp] theorem State.reject_phase (c : Resp) : (s.reject c).phase = s.phase := rfl
@[simp] theorem State.reject_cfgW (c : Resp) : (s.reject c).cfgW = s.cfgW := rfl
@[simp] theorem State.reject_cfgH (c : Resp) : (s.reject c).cfgH = s.cfgH := rfl
@[simp] theorem State.reject_pixIdx (c : Resp) : (s.reject c).pixIdx = s.pixIdx := rfl
@[simp] theorem State.reject_runLen (c : Resp) : (s.reject c).runLen = s.runLen := rfl
@[simp] theorem State.reject_acc (c : Resp) : (s.reject c).acc = s.acc := rfl
@[simp] theorem State.reject_free (c : Resp) : (s.reject c).free = s.free := rfl
@[simp] theorem State.reject_prev (c : Resp) : (s.reject c).prev = s.prev := rfl
@[simp] theorem State.reject_frameBytes (c : Resp) : (s.reject c).frameBytes = s.frameBytes := rfl
@[simp] theorem State.reject_totalBytes (c : Resp) : (s.reject c).totalBytes = s.totalBytes := rfl
@[simp] theorem State.reject_done (c : Resp) : (s.reject c).done = s.done := rfl
@[simp] theorem State.reject_lastResp (c : Resp) : (s.reject c).lastResp = c := rfl
@[simp] theorem State.reject_errCause (c : Resp) : (s.reject c).errCause = s.errCause := rfl
@[simp] theorem State.reject_port (c : Resp) : (s.reject c).port = s.port := rfl
@[simp] theorem State.reject_sink (c : Resp) : (s.reject c).sink = s.sink := rfl
@[simp] theorem State.reject_sinkAnswers (c : Resp) : (s.reject c).sinkAnswers = s.sinkAnswers := rfl
@[simp] theorem State.reject_inFlight (c : Resp) : (s.reject c).inFlight = s.inFlight := rfl
@[simp] theorem State.reject_resetLine (c : Resp) : (s.reject c).resetLine = s.resetLine := rfl
@[simp] theorem State.reject_draws (c : Resp) : (s.reject c).draws = s.draws := rfl

/-! ## emptyAcc -/

@[simp] theorem State.emptyAcc_params : (s.emptyAcc).params = s.params := rfl
@[simp] theorem State.emptyAcc_phase : (s.emptyAcc).phase = s.phase := rfl
@[simp] theorem State.emptyAcc_cfgW : (s.emptyAcc).cfgW = s.cfgW := rfl
@[simp] theorem State.emptyAcc_cfgH : (s.emptyAcc).cfgH = s.cfgH := rfl
@[simp] theorem State.emptyAcc_pixIdx : (s.emptyAcc).pixIdx = s.pixIdx := rfl
@[simp] theorem State.emptyAcc_runLen : (s.emptyAcc).runLen = s.runLen := rfl
@[simp] theorem State.emptyAcc_acc : (s.emptyAcc).acc = 0 := rfl
@[simp] theorem State.emptyAcc_free : (s.emptyAcc).free = BitVec.ofNat 7 s.params.accWidth := rfl
@[simp] theorem State.emptyAcc_prev : (s.emptyAcc).prev = s.prev := rfl
@[simp] theorem State.emptyAcc_frameBytes : (s.emptyAcc).frameBytes = s.frameBytes := rfl
@[simp] theorem State.emptyAcc_totalBytes : (s.emptyAcc).totalBytes = s.totalBytes := rfl
@[simp] theorem State.emptyAcc_done : (s.emptyAcc).done = s.done := rfl
@[simp] theorem State.emptyAcc_lastResp : (s.emptyAcc).lastResp = s.lastResp := rfl
@[simp] theorem State.emptyAcc_errCause : (s.emptyAcc).errCause = s.errCause := rfl
@[simp] theorem State.emptyAcc_port : (s.emptyAcc).port = s.port := rfl
@[simp] theorem State.emptyAcc_sink : (s.emptyAcc).sink = s.sink := rfl
@[simp] theorem State.emptyAcc_sinkAnswers : (s.emptyAcc).sinkAnswers = s.sinkAnswers := rfl
@[simp] theorem State.emptyAcc_inFlight : (s.emptyAcc).inFlight = s.inFlight := rfl
@[simp] theorem State.emptyAcc_resetLine : (s.emptyAcc).resetLine = s.resetLine := rfl
@[simp] theorem State.emptyAcc_draws : (s.emptyAcc).draws = s.draws := rfl

/-! ## abort -/

@[simp] theorem State.abort_params (c : AbortCode) : (s.abort c).params = s.params := rfl
@[simp] theorem State.abort_phase (c : AbortCode) : (s.abort c).phase = .error := rfl
@[simp] theorem State.abort_cfgW (c : AbortCode) : (s.abort c).cfgW = s.cfgW := rfl
@[simp] theorem State.abort_cfgH (c : AbortCode) : (s.abort c).cfgH = s.cfgH := rfl
@[simp] theorem State.abort_pixIdx (c : AbortCode) : (s.abort c).pixIdx = s.pixIdx := rfl
@[simp] theorem State.abort_runLen (c : AbortCode) : (s.abort c).runLen = s.runLen := rfl
@[simp] theorem State.abort_acc (c : AbortCode) : (s.abort c).acc = 0 := rfl
@[simp] theorem State.abort_free (c : AbortCode) : (s.abort c).free = BitVec.ofNat 7 s.params.accWidth := rfl
@[simp] theorem State.abort_prev (c : AbortCode) : (s.abort c).prev = s.prev := rfl
@[simp] theorem State.abort_frameBytes (c : AbortCode) : (s.abort c).frameBytes = s.frameBytes := rfl
@[simp] theorem State.abort_totalBytes (c : AbortCode) : (s.abort c).totalBytes = s.totalBytes := rfl
@[simp] theorem State.abort_done (c : AbortCode) : (s.abort c).done = false := rfl
@[simp] theorem State.abort_lastResp (c : AbortCode) : (s.abort c).lastResp = c.resp := rfl
@[simp] theorem State.abort_errCause (c : AbortCode) : (s.abort c).errCause = some c := rfl
@[simp] theorem State.abort_port (c : AbortCode) : (s.abort c).port = s.port := rfl
@[simp] theorem State.abort_sink (c : AbortCode) : (s.abort c).sink = s.sink := rfl
@[simp] theorem State.abort_sinkAnswers (c : AbortCode) : (s.abort c).sinkAnswers = s.sinkAnswers := rfl
@[simp] theorem State.abort_inFlight (c : AbortCode) : (s.abort c).inFlight = s.inFlight := rfl
@[simp] theorem State.abort_resetLine (c : AbortCode) : (s.abort c).resetLine = s.resetLine := rfl
@[simp] theorem State.abort_draws (c : AbortCode) : (s.abort c).draws = s.draws := rfl

/-! ## leaveError -/

@[simp] theorem State.leaveError_params : (s.leaveError).params = s.params := rfl
@[simp] theorem State.leaveError_phase : (s.leaveError).phase = if s.cfgW = 0 then .unconf else .idle := rfl
@[simp] theorem State.leaveError_cfgW : (s.leaveError).cfgW = s.cfgW := rfl
@[simp] theorem State.leaveError_cfgH : (s.leaveError).cfgH = s.cfgH := rfl
@[simp] theorem State.leaveError_pixIdx : (s.leaveError).pixIdx = 0 := rfl
@[simp] theorem State.leaveError_runLen : (s.leaveError).runLen = 0 := rfl
@[simp] theorem State.leaveError_acc : (s.leaveError).acc = 0 := rfl
@[simp] theorem State.leaveError_free : (s.leaveError).free = BitVec.ofNat 7 s.params.accWidth := rfl
@[simp] theorem State.leaveError_prev : (s.leaveError).prev = BitVec.ofNat 31 s.params.prevInit := rfl
@[simp] theorem State.leaveError_frameBytes : (s.leaveError).frameBytes = s.frameBytes := rfl
@[simp] theorem State.leaveError_totalBytes : (s.leaveError).totalBytes = s.totalBytes := rfl
@[simp] theorem State.leaveError_done : (s.leaveError).done = false := rfl
@[simp] theorem State.leaveError_lastResp : (s.leaveError).lastResp = s.lastResp := rfl
@[simp] theorem State.leaveError_errCause : (s.leaveError).errCause = none := rfl
@[simp] theorem State.leaveError_port : (s.leaveError).port = s.port := rfl
@[simp] theorem State.leaveError_sink : (s.leaveError).sink = s.sink := rfl
@[simp] theorem State.leaveError_sinkAnswers : (s.leaveError).sinkAnswers = s.sinkAnswers := rfl
@[simp] theorem State.leaveError_inFlight : (s.leaveError).inFlight = s.inFlight := rfl
@[simp] theorem State.leaveError_resetLine : (s.leaveError).resetLine = s.resetLine := rfl
@[simp] theorem State.leaveError_draws : (s.leaveError).draws = s.draws := rfl

/-! ## drawAnswer -/

@[simp] theorem State.drawAnswer_params : (s.drawAnswer).params = s.params := rfl
@[simp] theorem State.drawAnswer_phase : (s.drawAnswer).phase = s.phase := rfl
@[simp] theorem State.drawAnswer_cfgW : (s.drawAnswer).cfgW = s.cfgW := rfl
@[simp] theorem State.drawAnswer_cfgH : (s.drawAnswer).cfgH = s.cfgH := rfl
@[simp] theorem State.drawAnswer_pixIdx : (s.drawAnswer).pixIdx = s.pixIdx := rfl
@[simp] theorem State.drawAnswer_runLen : (s.drawAnswer).runLen = s.runLen := rfl
@[simp] theorem State.drawAnswer_acc : (s.drawAnswer).acc = s.acc := rfl
@[simp] theorem State.drawAnswer_free : (s.drawAnswer).free = s.free := rfl
@[simp] theorem State.drawAnswer_prev : (s.drawAnswer).prev = s.prev := rfl
@[simp] theorem State.drawAnswer_frameBytes : (s.drawAnswer).frameBytes = s.frameBytes := rfl
@[simp] theorem State.drawAnswer_totalBytes : (s.drawAnswer).totalBytes = s.totalBytes := rfl
@[simp] theorem State.drawAnswer_done : (s.drawAnswer).done = s.done := rfl
@[simp] theorem State.drawAnswer_lastResp : (s.drawAnswer).lastResp = s.lastResp := rfl
@[simp] theorem State.drawAnswer_errCause : (s.drawAnswer).errCause = s.errCause := rfl
@[simp] theorem State.drawAnswer_port : (s.drawAnswer).port = s.port := rfl
@[simp] theorem State.drawAnswer_sink : (s.drawAnswer).sink = s.sink := rfl
@[simp] theorem State.drawAnswer_sinkAnswers : (s.drawAnswer).sinkAnswers = s.sinkAnswers.tail := rfl
@[simp] theorem State.drawAnswer_inFlight : (s.drawAnswer).inFlight = s.inFlight := rfl
@[simp] theorem State.drawAnswer_resetLine : (s.drawAnswer).resetLine = s.resetLine := rfl
@[simp] theorem State.drawAnswer_draws : (s.drawAnswer).draws = s.draws + 1 := rfl

/-! ## acceptByte -/

@[simp] theorem State.acceptByte_params (b : Byte) : (s.acceptByte b).params = s.params := rfl
@[simp] theorem State.acceptByte_phase (b : Byte) : (s.acceptByte b).phase = s.phase := rfl
@[simp] theorem State.acceptByte_cfgW (b : Byte) : (s.acceptByte b).cfgW = s.cfgW := rfl
@[simp] theorem State.acceptByte_cfgH (b : Byte) : (s.acceptByte b).cfgH = s.cfgH := rfl
@[simp] theorem State.acceptByte_pixIdx (b : Byte) : (s.acceptByte b).pixIdx = s.pixIdx := rfl
@[simp] theorem State.acceptByte_runLen (b : Byte) : (s.acceptByte b).runLen = s.runLen := rfl
@[simp] theorem State.acceptByte_acc (b : Byte) : (s.acceptByte b).acc = s.acc := rfl
@[simp] theorem State.acceptByte_free (b : Byte) : (s.acceptByte b).free = s.free := rfl
@[simp] theorem State.acceptByte_prev (b : Byte) : (s.acceptByte b).prev = s.prev := rfl
@[simp] theorem State.acceptByte_frameBytes (b : Byte) : (s.acceptByte b).frameBytes = s.frameBytes := rfl
@[simp] theorem State.acceptByte_totalBytes (b : Byte) : (s.acceptByte b).totalBytes = s.totalBytes := rfl
@[simp] theorem State.acceptByte_done (b : Byte) : (s.acceptByte b).done = s.done := rfl
@[simp] theorem State.acceptByte_lastResp (b : Byte) : (s.acceptByte b).lastResp = s.lastResp := rfl
@[simp] theorem State.acceptByte_errCause (b : Byte) : (s.acceptByte b).errCause = s.errCause := rfl
@[simp] theorem State.acceptByte_port (b : Byte) : (s.acceptByte b).port = s.port := rfl
@[simp] theorem State.acceptByte_sink (b : Byte) : (s.acceptByte b).sink = s.sink ++ [b] := rfl
@[simp] theorem State.acceptByte_sinkAnswers (b : Byte) : (s.acceptByte b).sinkAnswers = s.sinkAnswers := rfl
@[simp] theorem State.acceptByte_inFlight (b : Byte) : (s.acceptByte b).inFlight = s.inFlight := rfl
@[simp] theorem State.acceptByte_resetLine (b : Byte) : (s.acceptByte b).resetLine = s.resetLine := rfl
@[simp] theorem State.acceptByte_draws (b : Byte) : (s.acceptByte b).draws = s.draws := rfl

/-! ## countByte -/

@[simp] theorem State.countByte_params : (s.countByte).params = s.params := rfl
@[simp] theorem State.countByte_phase : (s.countByte).phase = s.phase := rfl
@[simp] theorem State.countByte_cfgW : (s.countByte).cfgW = s.cfgW := rfl
@[simp] theorem State.countByte_cfgH : (s.countByte).cfgH = s.cfgH := rfl
@[simp] theorem State.countByte_pixIdx : (s.countByte).pixIdx = s.pixIdx := rfl
@[simp] theorem State.countByte_runLen : (s.countByte).runLen = s.runLen := rfl
@[simp] theorem State.countByte_acc : (s.countByte).acc = s.acc := rfl
@[simp] theorem State.countByte_free : (s.countByte).free = s.free := rfl
@[simp] theorem State.countByte_prev : (s.countByte).prev = s.prev := rfl
@[simp] theorem State.countByte_frameBytes : (s.countByte).frameBytes = if s.phase = .frame then s.frameBytes + 1 else s.frameBytes := rfl
@[simp] theorem State.countByte_totalBytes : (s.countByte).totalBytes = s.totalBytes + 1 := rfl
@[simp] theorem State.countByte_done : (s.countByte).done = s.done := rfl
@[simp] theorem State.countByte_lastResp : (s.countByte).lastResp = s.lastResp := rfl
@[simp] theorem State.countByte_errCause : (s.countByte).errCause = s.errCause := rfl
@[simp] theorem State.countByte_port : (s.countByte).port = s.port := rfl
@[simp] theorem State.countByte_sink : (s.countByte).sink = s.sink := rfl
@[simp] theorem State.countByte_sinkAnswers : (s.countByte).sinkAnswers = s.sinkAnswers := rfl
@[simp] theorem State.countByte_inFlight : (s.countByte).inFlight = s.inFlight := rfl
@[simp] theorem State.countByte_resetLine : (s.countByte).resetLine = s.resetLine := rfl
@[simp] theorem State.countByte_draws : (s.countByte).draws = s.draws := rfl

/-! ## holdByte -/

@[simp] theorem State.holdByte_params (b : Byte) : (s.holdByte b).params = s.params := rfl
@[simp] theorem State.holdByte_phase (b : Byte) : (s.holdByte b).phase = s.phase := rfl
@[simp] theorem State.holdByte_cfgW (b : Byte) : (s.holdByte b).cfgW = s.cfgW := rfl
@[simp] theorem State.holdByte_cfgH (b : Byte) : (s.holdByte b).cfgH = s.cfgH := rfl
@[simp] theorem State.holdByte_pixIdx (b : Byte) : (s.holdByte b).pixIdx = s.pixIdx := rfl
@[simp] theorem State.holdByte_runLen (b : Byte) : (s.holdByte b).runLen = s.runLen := rfl
@[simp] theorem State.holdByte_acc (b : Byte) : (s.holdByte b).acc = s.acc := rfl
@[simp] theorem State.holdByte_free (b : Byte) : (s.holdByte b).free = s.free := rfl
@[simp] theorem State.holdByte_prev (b : Byte) : (s.holdByte b).prev = s.prev := rfl
@[simp] theorem State.holdByte_frameBytes (b : Byte) : (s.holdByte b).frameBytes = s.frameBytes := rfl
@[simp] theorem State.holdByte_totalBytes (b : Byte) : (s.holdByte b).totalBytes = s.totalBytes := rfl
@[simp] theorem State.holdByte_done (b : Byte) : (s.holdByte b).done = s.done := rfl
@[simp] theorem State.holdByte_lastResp (b : Byte) : (s.holdByte b).lastResp = s.lastResp := rfl
@[simp] theorem State.holdByte_errCause (b : Byte) : (s.holdByte b).errCause = s.errCause := rfl
@[simp] theorem State.holdByte_port (b : Byte) : (s.holdByte b).port = s.port := rfl
@[simp] theorem State.holdByte_sink (b : Byte) : (s.holdByte b).sink = s.sink := rfl
@[simp] theorem State.holdByte_sinkAnswers (b : Byte) : (s.holdByte b).sinkAnswers = s.sinkAnswers := rfl
@[simp] theorem State.holdByte_inFlight (b : Byte) : (s.holdByte b).inFlight = some b := rfl
@[simp] theorem State.holdByte_resetLine (b : Byte) : (s.holdByte b).resetLine = s.resetLine := rfl
@[simp] theorem State.holdByte_draws (b : Byte) : (s.holdByte b).draws = s.draws := rfl

/-! ## setAcc -/

@[simp] theorem State.setAcc_params (a f : Nat) : (s.setAcc a f).params = s.params := rfl
@[simp] theorem State.setAcc_phase (a f : Nat) : (s.setAcc a f).phase = s.phase := rfl
@[simp] theorem State.setAcc_cfgW (a f : Nat) : (s.setAcc a f).cfgW = s.cfgW := rfl
@[simp] theorem State.setAcc_cfgH (a f : Nat) : (s.setAcc a f).cfgH = s.cfgH := rfl
@[simp] theorem State.setAcc_pixIdx (a f : Nat) : (s.setAcc a f).pixIdx = s.pixIdx := rfl
@[simp] theorem State.setAcc_runLen (a f : Nat) : (s.setAcc a f).runLen = s.runLen := rfl
@[simp] theorem State.setAcc_acc (a f : Nat) : (s.setAcc a f).acc = BitVec.ofNat 64 a := rfl
@[simp] theorem State.setAcc_free (a f : Nat) : (s.setAcc a f).free = BitVec.ofNat 7 f := rfl
@[simp] theorem State.setAcc_prev (a f : Nat) : (s.setAcc a f).prev = s.prev := rfl
@[simp] theorem State.setAcc_frameBytes (a f : Nat) : (s.setAcc a f).frameBytes = s.frameBytes := rfl
@[simp] theorem State.setAcc_totalBytes (a f : Nat) : (s.setAcc a f).totalBytes = s.totalBytes := rfl
@[simp] theorem State.setAcc_done (a f : Nat) : (s.setAcc a f).done = s.done := rfl
@[simp] theorem State.setAcc_lastResp (a f : Nat) : (s.setAcc a f).lastResp = s.lastResp := rfl
@[simp] theorem State.setAcc_errCause (a f : Nat) : (s.setAcc a f).errCause = s.errCause := rfl
@[simp] theorem State.setAcc_port (a f : Nat) : (s.setAcc a f).port = s.port := rfl
@[simp] theorem State.setAcc_sink (a f : Nat) : (s.setAcc a f).sink = s.sink := rfl
@[simp] theorem State.setAcc_sinkAnswers (a f : Nat) : (s.setAcc a f).sinkAnswers = s.sinkAnswers := rfl
@[simp] theorem State.setAcc_inFlight (a f : Nat) : (s.setAcc a f).inFlight = s.inFlight := rfl
@[simp] theorem State.setAcc_resetLine (a f : Nat) : (s.setAcc a f).resetLine = s.resetLine := rfl
@[simp] theorem State.setAcc_draws (a f : Nat) : (s.setAcc a f).draws = s.draws := rfl

/-! ## takeReset -/

@[simp] theorem State.takeReset_params : (s.takeReset).params = s.params := rfl
@[simp] theorem State.takeReset_phase : (s.takeReset).phase = .unconf := rfl
@[simp] theorem State.takeReset_cfgW : (s.takeReset).cfgW = 0 := rfl
@[simp] theorem State.takeReset_cfgH : (s.takeReset).cfgH = 0 := rfl
@[simp] theorem State.takeReset_pixIdx : (s.takeReset).pixIdx = 0 := rfl
@[simp] theorem State.takeReset_runLen : (s.takeReset).runLen = 0 := rfl
@[simp] theorem State.takeReset_acc : (s.takeReset).acc = 0 := rfl
@[simp] theorem State.takeReset_free : (s.takeReset).free = BitVec.ofNat 7 s.params.accWidth := rfl
@[simp] theorem State.takeReset_prev : (s.takeReset).prev = BitVec.ofNat 31 s.params.prevInit := rfl
@[simp] theorem State.takeReset_frameBytes : (s.takeReset).frameBytes = 0 := rfl
@[simp] theorem State.takeReset_totalBytes : (s.takeReset).totalBytes = 0 := rfl
@[simp] theorem State.takeReset_done : (s.takeReset).done = false := rfl
@[simp] theorem State.takeReset_lastResp : (s.takeReset).lastResp = .ok := rfl
@[simp] theorem State.takeReset_errCause : (s.takeReset).errCause = none := rfl
@[simp] theorem State.takeReset_port : (s.takeReset).port = s.port := rfl
@[simp] theorem State.takeReset_sink : (s.takeReset).sink = s.settleInFlight.sink := rfl
@[simp] theorem State.takeReset_sinkAnswers : (s.takeReset).sinkAnswers = s.sinkAnswers := rfl
@[simp] theorem State.takeReset_inFlight : (s.takeReset).inFlight = none := rfl
@[simp] theorem State.takeReset_resetLine : (s.takeReset).resetLine = false := rfl
@[simp] theorem State.takeReset_draws : (s.takeReset).draws = s.settleInFlight.draws := rfl

/-! ## takeWord -/

@[simp] theorem State.takeWord_params (ws : List Word) : (s.takeWord ws).params = s.params := rfl
@[simp] theorem State.takeWord_phase (ws : List Word) : (s.takeWord ws).phase = s.phase := rfl
@[simp] theorem State.takeWord_cfgW (ws : List Word) : (s.takeWord ws).cfgW = s.cfgW := rfl
@[simp] theorem State.takeWord_cfgH (ws : List Word) : (s.takeWord ws).cfgH = s.cfgH := rfl
@[simp] theorem State.takeWord_pixIdx (ws : List Word) : (s.takeWord ws).pixIdx = s.pixIdx := rfl
@[simp] theorem State.takeWord_runLen (ws : List Word) : (s.takeWord ws).runLen = s.runLen := rfl
@[simp] theorem State.takeWord_acc (ws : List Word) : (s.takeWord ws).acc = s.acc := rfl
@[simp] theorem State.takeWord_free (ws : List Word) : (s.takeWord ws).free = s.free := rfl
@[simp] theorem State.takeWord_prev (ws : List Word) : (s.takeWord ws).prev = s.prev := rfl
@[simp] theorem State.takeWord_frameBytes (ws : List Word) : (s.takeWord ws).frameBytes = s.frameBytes := rfl
@[simp] theorem State.takeWord_totalBytes (ws : List Word) : (s.takeWord ws).totalBytes = s.totalBytes := rfl
@[simp] theorem State.takeWord_done (ws : List Word) : (s.takeWord ws).done = s.done := rfl
@[simp] theorem State.takeWord_lastResp (ws : List Word) : (s.takeWord ws).lastResp = s.lastResp := rfl
@[simp] theorem State.takeWord_errCause (ws : List Word) : (s.takeWord ws).errCause = s.errCause := rfl
@[simp] theorem State.takeWord_port (ws : List Word) : (s.takeWord ws).port = ws := rfl
@[simp] theorem State.takeWord_sink (ws : List Word) : (s.takeWord ws).sink = s.sink := rfl
@[simp] theorem State.takeWord_sinkAnswers (ws : List Word) : (s.takeWord ws).sinkAnswers = s.sinkAnswers := rfl
@[simp] theorem State.takeWord_inFlight (ws : List Word) : (s.takeWord ws).inFlight = s.inFlight := rfl
@[simp] theorem State.takeWord_resetLine (ws : List Word) : (s.takeWord ws).resetLine = s.resetLine := rfl
@[simp] theorem State.takeWord_draws (ws : List Word) : (s.takeWord ws).draws = s.draws := rfl

/-! ## construct -/

@[simp] theorem State.construct_params (w h : Nat) : (s.construct w h).params = s.params := rfl
@[simp] theorem State.construct_phase (w h : Nat) : (s.construct w h).phase = .idle := rfl
@[simp] theorem State.construct_cfgW (w h : Nat) : (s.construct w h).cfgW = BitVec.ofNat 16 w := rfl
@[simp] theorem State.construct_cfgH (w h : Nat) : (s.construct w h).cfgH = BitVec.ofNat 16 h := rfl
@[simp] theorem State.construct_pixIdx (w h : Nat) : (s.construct w h).pixIdx = 0 := rfl
@[simp] theorem State.construct_runLen (w h : Nat) : (s.construct w h).runLen = 0 := rfl
@[simp] theorem State.construct_acc (w h : Nat) : (s.construct w h).acc = s.acc := rfl
@[simp] theorem State.construct_free (w h : Nat) : (s.construct w h).free = s.free := rfl
@[simp] theorem State.construct_prev (w h : Nat) : (s.construct w h).prev = BitVec.ofNat 31 s.params.prevInit := rfl
@[simp] theorem State.construct_frameBytes (w h : Nat) : (s.construct w h).frameBytes = 0 := rfl
@[simp] theorem State.construct_totalBytes (w h : Nat) : (s.construct w h).totalBytes = 0 := rfl
@[simp] theorem State.construct_done (w h : Nat) : (s.construct w h).done = false := rfl
@[simp] theorem State.construct_lastResp (w h : Nat) : (s.construct w h).lastResp = s.lastResp := rfl
@[simp] theorem State.construct_errCause (w h : Nat) : (s.construct w h).errCause = s.errCause := rfl
@[simp] theorem State.construct_port (w h : Nat) : (s.construct w h).port = s.port := rfl
@[simp] theorem State.construct_sink (w h : Nat) : (s.construct w h).sink = s.sink := rfl
@[simp] theorem State.construct_sinkAnswers (w h : Nat) : (s.construct w h).sinkAnswers = s.sinkAnswers := rfl
@[simp] theorem State.construct_inFlight (w h : Nat) : (s.construct w h).inFlight = s.inFlight := rfl
@[simp] theorem State.construct_resetLine (w h : Nat) : (s.construct w h).resetLine = s.resetLine := rfl
@[simp] theorem State.construct_draws (w h : Nat) : (s.construct w h).draws = s.draws := rfl

/-! ## beginFrame -/

@[simp] theorem State.beginFrame_params : (s.beginFrame).params = s.params := rfl
@[simp] theorem State.beginFrame_phase : (s.beginFrame).phase = .frame := rfl
@[simp] theorem State.beginFrame_cfgW : (s.beginFrame).cfgW = s.cfgW := rfl
@[simp] theorem State.beginFrame_cfgH : (s.beginFrame).cfgH = s.cfgH := rfl
@[simp] theorem State.beginFrame_pixIdx : (s.beginFrame).pixIdx = 0 := rfl
@[simp] theorem State.beginFrame_runLen : (s.beginFrame).runLen = 0 := rfl
@[simp] theorem State.beginFrame_acc : (s.beginFrame).acc = s.acc := rfl
@[simp] theorem State.beginFrame_free : (s.beginFrame).free = s.free := rfl
@[simp] theorem State.beginFrame_prev : (s.beginFrame).prev = BitVec.ofNat 31 s.params.prevInit := rfl
@[simp] theorem State.beginFrame_frameBytes : (s.beginFrame).frameBytes = 0 := rfl
@[simp] theorem State.beginFrame_totalBytes : (s.beginFrame).totalBytes = s.totalBytes := rfl
@[simp] theorem State.beginFrame_done : (s.beginFrame).done = false := rfl
@[simp] theorem State.beginFrame_lastResp : (s.beginFrame).lastResp = s.lastResp := rfl
@[simp] theorem State.beginFrame_errCause : (s.beginFrame).errCause = s.errCause := rfl
@[simp] theorem State.beginFrame_port : (s.beginFrame).port = s.port := rfl
@[simp] theorem State.beginFrame_sink : (s.beginFrame).sink = s.sink := rfl
@[simp] theorem State.beginFrame_sinkAnswers : (s.beginFrame).sinkAnswers = s.sinkAnswers := rfl
@[simp] theorem State.beginFrame_inFlight : (s.beginFrame).inFlight = s.inFlight := rfl
@[simp] theorem State.beginFrame_resetLine : (s.beginFrame).resetLine = s.resetLine := rfl
@[simp] theorem State.beginFrame_draws : (s.beginFrame).draws = s.draws := rfl

/-! ## setBaseline -/

@[simp] theorem State.setBaseline_params (x : Nat) : (s.setBaseline x).params = s.params := rfl
@[simp] theorem State.setBaseline_phase (x : Nat) : (s.setBaseline x).phase = s.phase := rfl
@[simp] theorem State.setBaseline_cfgW (x : Nat) : (s.setBaseline x).cfgW = s.cfgW := rfl
@[simp] theorem State.setBaseline_cfgH (x : Nat) : (s.setBaseline x).cfgH = s.cfgH := rfl
@[simp] theorem State.setBaseline_pixIdx (x : Nat) : (s.setBaseline x).pixIdx = s.pixIdx := rfl
@[simp] theorem State.setBaseline_runLen (x : Nat) : (s.setBaseline x).runLen = 0 := rfl
@[simp] theorem State.setBaseline_acc (x : Nat) : (s.setBaseline x).acc = s.acc := rfl
@[simp] theorem State.setBaseline_free (x : Nat) : (s.setBaseline x).free = s.free := rfl
@[simp] theorem State.setBaseline_prev (x : Nat) : (s.setBaseline x).prev = BitVec.ofNat 31 x := rfl
@[simp] theorem State.setBaseline_frameBytes (x : Nat) : (s.setBaseline x).frameBytes = s.frameBytes := rfl
@[simp] theorem State.setBaseline_totalBytes (x : Nat) : (s.setBaseline x).totalBytes = s.totalBytes := rfl
@[simp] theorem State.setBaseline_done (x : Nat) : (s.setBaseline x).done = s.done := rfl
@[simp] theorem State.setBaseline_lastResp (x : Nat) : (s.setBaseline x).lastResp = s.lastResp := rfl
@[simp] theorem State.setBaseline_errCause (x : Nat) : (s.setBaseline x).errCause = s.errCause := rfl
@[simp] theorem State.setBaseline_port (x : Nat) : (s.setBaseline x).port = s.port := rfl
@[simp] theorem State.setBaseline_sink (x : Nat) : (s.setBaseline x).sink = s.sink := rfl
@[simp] theorem State.setBaseline_sinkAnswers (x : Nat) : (s.setBaseline x).sinkAnswers = s.sinkAnswers := rfl
@[simp] theorem State.setBaseline_inFlight (x : Nat) : (s.setBaseline x).inFlight = s.inFlight := rfl
@[simp] theorem State.setBaseline_resetLine (x : Nat) : (s.setBaseline x).resetLine = s.resetLine := rfl
@[simp] theorem State.setBaseline_draws (x : Nat) : (s.setBaseline x).draws = s.draws := rfl

/-! ## extendRun -/

@[simp] theorem State.extendRun_params : (s.extendRun).params = s.params := rfl
@[simp] theorem State.extendRun_phase : (s.extendRun).phase = s.phase := rfl
@[simp] theorem State.extendRun_cfgW : (s.extendRun).cfgW = s.cfgW := rfl
@[simp] theorem State.extendRun_cfgH : (s.extendRun).cfgH = s.cfgH := rfl
@[simp] theorem State.extendRun_pixIdx : (s.extendRun).pixIdx = s.pixIdx := rfl
@[simp] theorem State.extendRun_runLen : (s.extendRun).runLen = s.runLen + 1 := rfl
@[simp] theorem State.extendRun_acc : (s.extendRun).acc = s.acc := rfl
@[simp] theorem State.extendRun_free : (s.extendRun).free = s.free := rfl
@[simp] theorem State.extendRun_prev : (s.extendRun).prev = s.prev := rfl
@[simp] theorem State.extendRun_frameBytes : (s.extendRun).frameBytes = s.frameBytes := rfl
@[simp] theorem State.extendRun_totalBytes : (s.extendRun).totalBytes = s.totalBytes := rfl
@[simp] theorem State.extendRun_done : (s.extendRun).done = s.done := rfl
@[simp] theorem State.extendRun_lastResp : (s.extendRun).lastResp = s.lastResp := rfl
@[simp] theorem State.extendRun_errCause : (s.extendRun).errCause = s.errCause := rfl
@[simp] theorem State.extendRun_port : (s.extendRun).port = s.port := rfl
@[simp] theorem State.extendRun_sink : (s.extendRun).sink = s.sink := rfl
@[simp] theorem State.extendRun_sinkAnswers : (s.extendRun).sinkAnswers = s.sinkAnswers := rfl
@[simp] theorem State.extendRun_inFlight : (s.extendRun).inFlight = s.inFlight := rfl
@[simp] theorem State.extendRun_resetLine : (s.extendRun).resetLine = s.resetLine := rfl
@[simp] theorem State.extendRun_draws : (s.extendRun).draws = s.draws := rfl

/-! ## advance -/

@[simp] theorem State.advance_params : (s.advance).params = s.params := rfl
@[simp] theorem State.advance_phase : (s.advance).phase = s.phase := rfl
@[simp] theorem State.advance_cfgW : (s.advance).cfgW = s.cfgW := rfl
@[simp] theorem State.advance_cfgH : (s.advance).cfgH = s.cfgH := rfl
@[simp] theorem State.advance_pixIdx : (s.advance).pixIdx = s.pixIdx + 1 := rfl
@[simp] theorem State.advance_runLen : (s.advance).runLen = s.runLen := rfl
@[simp] theorem State.advance_acc : (s.advance).acc = s.acc := rfl
@[simp] theorem State.advance_free : (s.advance).free = s.free := rfl
@[simp] theorem State.advance_prev : (s.advance).prev = s.prev := rfl
@[simp] theorem State.advance_frameBytes : (s.advance).frameBytes = s.frameBytes := rfl
@[simp] theorem State.advance_totalBytes : (s.advance).totalBytes = s.totalBytes := rfl
@[simp] theorem State.advance_done : (s.advance).done = s.done := rfl
@[simp] theorem State.advance_lastResp : (s.advance).lastResp = s.lastResp := rfl
@[simp] theorem State.advance_errCause : (s.advance).errCause = s.errCause := rfl
@[simp] theorem State.advance_port : (s.advance).port = s.port := rfl
@[simp] theorem State.advance_sink : (s.advance).sink = s.sink := rfl
@[simp] theorem State.advance_sinkAnswers : (s.advance).sinkAnswers = s.sinkAnswers := rfl
@[simp] theorem State.advance_inFlight : (s.advance).inFlight = s.inFlight := rfl
@[simp] theorem State.advance_resetLine : (s.advance).resetLine = s.resetLine := rfl
@[simp] theorem State.advance_draws : (s.advance).draws = s.draws := rfl

/-! ## clearRun -/

@[simp] theorem State.clearRun_params : (s.clearRun).params = s.params := rfl
@[simp] theorem State.clearRun_phase : (s.clearRun).phase = s.phase := rfl
@[simp] theorem State.clearRun_cfgW : (s.clearRun).cfgW = s.cfgW := rfl
@[simp] theorem State.clearRun_cfgH : (s.clearRun).cfgH = s.cfgH := rfl
@[simp] theorem State.clearRun_pixIdx : (s.clearRun).pixIdx = s.pixIdx := rfl
@[simp] theorem State.clearRun_runLen : (s.clearRun).runLen = 0 := rfl
@[simp] theorem State.clearRun_acc : (s.clearRun).acc = s.acc := rfl
@[simp] theorem State.clearRun_free : (s.clearRun).free = s.free := rfl
@[simp] theorem State.clearRun_prev : (s.clearRun).prev = s.prev := rfl
@[simp] theorem State.clearRun_frameBytes : (s.clearRun).frameBytes = s.frameBytes := rfl
@[simp] theorem State.clearRun_totalBytes : (s.clearRun).totalBytes = s.totalBytes := rfl
@[simp] theorem State.clearRun_done : (s.clearRun).done = s.done := rfl
@[simp] theorem State.clearRun_lastResp : (s.clearRun).lastResp = s.lastResp := rfl
@[simp] theorem State.clearRun_errCause : (s.clearRun).errCause = s.errCause := rfl
@[simp] theorem State.clearRun_port : (s.clearRun).port = s.port := rfl
@[simp] theorem State.clearRun_sink : (s.clearRun).sink = s.sink := rfl
@[simp] theorem State.clearRun_sinkAnswers : (s.clearRun).sinkAnswers = s.sinkAnswers := rfl
@[simp] theorem State.clearRun_inFlight : (s.clearRun).inFlight = s.inFlight := rfl
@[simp] theorem State.clearRun_resetLine : (s.clearRun).resetLine = s.resetLine := rfl
@[simp] theorem State.clearRun_draws : (s.clearRun).draws = s.draws := rfl

/-! ## finishFrame -/

@[simp] theorem State.finishFrame_params : (s.finishFrame).params = s.params := rfl
@[simp] theorem State.finishFrame_phase : (s.finishFrame).phase = .idle := rfl
@[simp] theorem State.finishFrame_cfgW : (s.finishFrame).cfgW = s.cfgW := rfl
@[simp] theorem State.finishFrame_cfgH : (s.finishFrame).cfgH = s.cfgH := rfl
@[simp] theorem State.finishFrame_pixIdx : (s.finishFrame).pixIdx = s.pixIdx := rfl
@[simp] theorem State.finishFrame_runLen : (s.finishFrame).runLen = s.runLen := rfl
@[simp] theorem State.finishFrame_acc : (s.finishFrame).acc = s.acc := rfl
@[simp] theorem State.finishFrame_free : (s.finishFrame).free = s.free := rfl
@[simp] theorem State.finishFrame_prev : (s.finishFrame).prev = s.prev := rfl
@[simp] theorem State.finishFrame_frameBytes : (s.finishFrame).frameBytes = s.frameBytes := rfl
@[simp] theorem State.finishFrame_totalBytes : (s.finishFrame).totalBytes = s.totalBytes := rfl
@[simp] theorem State.finishFrame_done : (s.finishFrame).done = true := rfl
@[simp] theorem State.finishFrame_lastResp : (s.finishFrame).lastResp = s.lastResp := rfl
@[simp] theorem State.finishFrame_errCause : (s.finishFrame).errCause = s.errCause := rfl
@[simp] theorem State.finishFrame_port : (s.finishFrame).port = s.port := rfl
@[simp] theorem State.finishFrame_sink : (s.finishFrame).sink = s.sink := rfl
@[simp] theorem State.finishFrame_sinkAnswers : (s.finishFrame).sinkAnswers = s.sinkAnswers := rfl
@[simp] theorem State.finishFrame_inFlight : (s.finishFrame).inFlight = s.inFlight := rfl
@[simp] theorem State.finishFrame_resetLine : (s.finishFrame).resetLine = s.resetLine := rfl
@[simp] theorem State.finishFrame_draws : (s.finishFrame).draws = s.draws := rfl

/-! ## presentWord -/

@[simp] theorem State.presentWord_params (w : Word) : (s.presentWord w).params = s.params := rfl
@[simp] theorem State.presentWord_phase (w : Word) : (s.presentWord w).phase = s.phase := rfl
@[simp] theorem State.presentWord_cfgW (w : Word) : (s.presentWord w).cfgW = s.cfgW := rfl
@[simp] theorem State.presentWord_cfgH (w : Word) : (s.presentWord w).cfgH = s.cfgH := rfl
@[simp] theorem State.presentWord_pixIdx (w : Word) : (s.presentWord w).pixIdx = s.pixIdx := rfl
@[simp] theorem State.presentWord_runLen (w : Word) : (s.presentWord w).runLen = s.runLen := rfl
@[simp] theorem State.presentWord_acc (w : Word) : (s.presentWord w).acc = s.acc := rfl
@[simp] theorem State.presentWord_free (w : Word) : (s.presentWord w).free = s.free := rfl
@[simp] theorem State.presentWord_prev (w : Word) : (s.presentWord w).prev = s.prev := rfl
@[simp] theorem State.presentWord_frameBytes (w : Word) : (s.presentWord w).frameBytes = s.frameBytes := rfl
@[simp] theorem State.presentWord_totalBytes (w : Word) : (s.presentWord w).totalBytes = s.totalBytes := rfl
@[simp] theorem State.presentWord_done (w : Word) : (s.presentWord w).done = s.done := rfl
@[simp] theorem State.presentWord_lastResp (w : Word) : (s.presentWord w).lastResp = s.lastResp := rfl
@[simp] theorem State.presentWord_errCause (w : Word) : (s.presentWord w).errCause = s.errCause := rfl
@[simp] theorem State.presentWord_port (w : Word) : (s.presentWord w).port = w :: s.port := rfl
@[simp] theorem State.presentWord_sink (w : Word) : (s.presentWord w).sink = s.sink := rfl
@[simp] theorem State.presentWord_sinkAnswers (w : Word) : (s.presentWord w).sinkAnswers = s.sinkAnswers := rfl
@[simp] theorem State.presentWord_inFlight (w : Word) : (s.presentWord w).inFlight = none := rfl
@[simp] theorem State.presentWord_resetLine (w : Word) : (s.presentWord w).resetLine = false := rfl
@[simp] theorem State.presentWord_draws (w : Word) : (s.presentWord w).draws = s.draws := rfl

/-! ## afterBytes -/

@[simp] theorem State.afterBytes_params (bs : List Byte) : (s.afterBytes bs).params = s.params := rfl
@[simp] theorem State.afterBytes_phase (bs : List Byte) : (s.afterBytes bs).phase = s.phase := rfl
@[simp] theorem State.afterBytes_cfgW (bs : List Byte) : (s.afterBytes bs).cfgW = s.cfgW := rfl
@[simp] theorem State.afterBytes_cfgH (bs : List Byte) : (s.afterBytes bs).cfgH = s.cfgH := rfl
@[simp] theorem State.afterBytes_pixIdx (bs : List Byte) : (s.afterBytes bs).pixIdx = s.pixIdx := rfl
@[simp] theorem State.afterBytes_runLen (bs : List Byte) : (s.afterBytes bs).runLen = s.runLen := rfl
@[simp] theorem State.afterBytes_acc (bs : List Byte) : (s.afterBytes bs).acc = s.acc := rfl
@[simp] theorem State.afterBytes_free (bs : List Byte) : (s.afterBytes bs).free = s.free := rfl
@[simp] theorem State.afterBytes_prev (bs : List Byte) : (s.afterBytes bs).prev = s.prev := rfl
@[simp] theorem State.afterBytes_frameBytes (bs : List Byte) : (s.afterBytes bs).frameBytes = if s.phase = .frame then s.frameBytes + BitVec.ofNat 64 bs.length else s.frameBytes := rfl
@[simp] theorem State.afterBytes_totalBytes (bs : List Byte) : (s.afterBytes bs).totalBytes = s.totalBytes + BitVec.ofNat 64 bs.length := rfl
@[simp] theorem State.afterBytes_done (bs : List Byte) : (s.afterBytes bs).done = s.done := rfl
@[simp] theorem State.afterBytes_lastResp (bs : List Byte) : (s.afterBytes bs).lastResp = s.lastResp := rfl
@[simp] theorem State.afterBytes_errCause (bs : List Byte) : (s.afterBytes bs).errCause = s.errCause := rfl
@[simp] theorem State.afterBytes_port (bs : List Byte) : (s.afterBytes bs).port = s.port := rfl
@[simp] theorem State.afterBytes_sink (bs : List Byte) : (s.afterBytes bs).sink = s.sink ++ bs := rfl
@[simp] theorem State.afterBytes_sinkAnswers (bs : List Byte) : (s.afterBytes bs).sinkAnswers = s.sinkAnswers.drop bs.length := rfl
@[simp] theorem State.afterBytes_inFlight (bs : List Byte) : (s.afterBytes bs).inFlight = s.inFlight := rfl
@[simp] theorem State.afterBytes_resetLine (bs : List Byte) : (s.afterBytes bs).resetLine = s.resetLine := rfl
@[simp] theorem State.afterBytes_draws (bs : List Byte) : (s.afterBytes bs).draws = s.draws + bs.length := rfl

/-! ## withAccOf -/

@[simp] theorem State.withAccOf_params (t : State) : (s.withAccOf t).params = s.params := rfl
@[simp] theorem State.withAccOf_phase (t : State) : (s.withAccOf t).phase = s.phase := rfl
@[simp] theorem State.withAccOf_cfgW (t : State) : (s.withAccOf t).cfgW = s.cfgW := rfl
@[simp] theorem State.withAccOf_cfgH (t : State) : (s.withAccOf t).cfgH = s.cfgH := rfl
@[simp] theorem State.withAccOf_pixIdx (t : State) : (s.withAccOf t).pixIdx = s.pixIdx := rfl
@[simp] theorem State.withAccOf_runLen (t : State) : (s.withAccOf t).runLen = s.runLen := rfl
@[simp] theorem State.withAccOf_acc (t : State) : (s.withAccOf t).acc = t.acc := rfl
@[simp] theorem State.withAccOf_free (t : State) : (s.withAccOf t).free = t.free := rfl
@[simp] theorem State.withAccOf_prev (t : State) : (s.withAccOf t).prev = s.prev := rfl
@[simp] theorem State.withAccOf_frameBytes (t : State) : (s.withAccOf t).frameBytes = s.frameBytes := rfl
@[simp] theorem State.withAccOf_totalBytes (t : State) : (s.withAccOf t).totalBytes = s.totalBytes := rfl
@[simp] theorem State.withAccOf_done (t : State) : (s.withAccOf t).done = s.done := rfl
@[simp] theorem State.withAccOf_lastResp (t : State) : (s.withAccOf t).lastResp = s.lastResp := rfl
@[simp] theorem State.withAccOf_errCause (t : State) : (s.withAccOf t).errCause = s.errCause := rfl
@[simp] theorem State.withAccOf_port (t : State) : (s.withAccOf t).port = s.port := rfl
@[simp] theorem State.withAccOf_sink (t : State) : (s.withAccOf t).sink = s.sink := rfl
@[simp] theorem State.withAccOf_sinkAnswers (t : State) : (s.withAccOf t).sinkAnswers = s.sinkAnswers := rfl
@[simp] theorem State.withAccOf_inFlight (t : State) : (s.withAccOf t).inFlight = s.inFlight := rfl
@[simp] theorem State.withAccOf_resetLine (t : State) : (s.withAccOf t).resetLine = s.resetLine := rfl
@[simp] theorem State.withAccOf_draws (t : State) : (s.withAccOf t).draws = s.draws := rfl

end Sys2Proof.Machine
end

