-- ==== Sys2Proof/Laws/Sink.lean ====
section
/-! SUPPORT. What one byte, and a list of bytes, offered to the sink can come to (spec/20 R62, spec/41 R103). -/

namespace Sys2Proof.Machine

@[simp] theorem Flow.andThen_going (s : State) (k : State → Flow) : (Flow.going s).andThen k = k s := rfl

@[simp] theorem Flow.andThen_aborted (s : State) (k : State → Flow) :
    (Flow.aborted s).andThen k = .aborted s := rfl

@[simp] theorem Flow.andThen_waiting (s : State) (k : State → Flow) :
    (Flow.waiting s).andThen k = .waiting s := rfl

@[simp] theorem Flow.close_going (s : State) : (Flow.going s).close = s.respond .ok := rfl

@[simp] theorem Flow.close_aborted (s : State) : (Flow.aborted s).close = s := rfl

@[simp] theorem Flow.close_waiting (s : State) : (Flow.waiting s).close = s := rfl

theorem Flow.andThen_assoc (f : Flow) (g h : State → Flow) :
    (f.andThen g).andThen h = f.andThen fun s => (g s).andThen h := by
  cases f <;> rfl

/-! ## Answers -/

/-- The answers after `bs` were accepted are the later ones. -/
@[simp] theorem answerAt_afterBytes (bs : List Byte) (s : State) (j : Nat) :
    (s.afterBytes bs).answerAt j = s.answerAt (bs.length + j) := by
  simp only [State.answerAt, State.afterBytes_sinkAnswers, State.afterBytes_draws, List.getElem?_drop, Nat.add_assoc]

@[simp] theorem afterBytes_nil (s : State) : s.afterBytes [] = s := by
  cases s; simp [State.afterBytes]

theorem afterBytes_append (xs ys : List Byte) (s : State) :
    (s.afterBytes xs).afterBytes ys = s.afterBytes (xs ++ ys) := by
  simp only [State.afterBytes, List.append_assoc, List.drop_drop, List.length_append, BitVec.ofNat_add,
    BitVec.add_assoc, Nat.add_assoc]
  split <;> simp [BitVec.add_assoc]

theorem answersOk_mono {m n : Nat} {s : State} (h : AnswersOk n s) (hm : m ≤ n) : AnswersOk m s :=
  fun j hj => h j (by omega)

theorem answersOk_afterBytes {n : Nat} {bs : List Byte} {s : State} (h : AnswersOk (bs.length + n) s) :
    AnswersOk n (s.afterBytes bs) := fun j hj => by
  rw [answerAt_afterBytes]; exact h _ (by omega)

/-- An answer depends only on the environment's fields. -/
theorem answerAt_congr {s t : State} (h1 : t.sinkAnswers = s.sinkAnswers) (h2 : t.draws = s.draws) (j : Nat) :
    t.answerAt j = s.answerAt j := by
  simp only [State.answerAt, h1, h2]

/-! ## One byte -/

theorem emitByte_ok {b : Byte} {s : State} (h : s.answerAt 0 = .ok) :
    emitByte b s = .going (s.afterBytes [b]) := by
  simp [emitByte, sinkWrite, h, State.countByte, State.acceptByte, State.drawAnswer, State.afterBytes]

theorem emitByte_err {b : Byte} {s : State} (h : s.answerAt 0 = .err) :
    emitByte b s = .aborted (s.drawAnswer.abort .sink) := by
  simp [emitByte, sinkWrite, h]

theorem emitByte_never {b : Byte} {s : State} (h : s.answerAt 0 = .never) :
    emitByte b s = .waiting (s.drawAnswer.holdByte b) := by
  simp [emitByte, sinkWrite, h]

/-! ## A list of bytes -/

theorem emitBytes_ok {bs : List Byte} {s : State} (h : AnswersOk bs.length s) :
    emitBytes bs s = .going (s.afterBytes bs) := by
  induction bs generalizing s with
  | nil => simp [emitBytes]
  | cons b bs ih =>
    have h0 : s.answerAt 0 = .ok := h 0 (by simp)
    rw [emitBytes, emitByte_ok h0, Flow.andThen_going, ih, afterBytes_append, List.singleton_append]
    exact answersOk_afterBytes (by simpa [Nat.add_comm] using h)

/-- The first answer that is not OK ends the bytes. -/
theorem emitBytes_stop {bs : List Byte} {s : State} {k : Nat} (hk : k < bs.length) (h : AnswersOk k s) :
    emitBytes bs s = (emitByte bs[k] (s.afterBytes (bs.take k))).andThen (emitBytes (bs.drop (k + 1))) := by
  induction bs generalizing s k with
  | nil => simp at hk
  | cons b bs ih =>
    cases k with
    | zero => simp [emitBytes]
    | succ k =>
      have h0 : s.answerAt 0 = .ok := h 0 (by omega)
      rw [emitBytes, emitByte_ok h0, Flow.andThen_going, ih (k := k) (by simpa using hk), afterBytes_append]
      · simp
      · exact answersOk_afterBytes (by simpa [Nat.add_comm] using h)

theorem emitBytes_err {bs : List Byte} {s : State} {k : Nat} (hk : k < bs.length) (h : AnswersOk k s)
    (he : s.answerAt k = .err) :
    emitBytes bs s = .aborted ((s.afterBytes (bs.take k)).drawAnswer.abort .sink) := by
  rw [emitBytes_stop hk h, emitByte_err, Flow.andThen_aborted]
  rw [answerAt_afterBytes, List.length_take, Nat.min_eq_left (by omega)]; exact he

theorem emitBytes_never {bs : List Byte} {s : State} {k : Nat} (hk : k < bs.length) (h : AnswersOk k s)
    (he : s.answerAt k = .never) :
    emitBytes bs s = .waiting ((s.afterBytes (bs.take k)).drawAnswer.holdByte bs[k]) := by
  rw [emitBytes_stop hk h, emitByte_never, Flow.andThen_waiting]
  rw [answerAt_afterBytes, List.length_take, Nat.min_eq_left (by omega)]; exact he

/-- The first of `n` answers that is not OK, if there is one. -/
theorem answers_cases (n : Nat) (s : State) :
    AnswersOk n s ∨ ∃ k < n, AnswersOk k s ∧ (s.answerAt k = .err ∨ s.answerAt k = .never) := by
  induction n with
  | zero => exact .inl fun j hj => absurd hj (by omega)
  | succ n ih =>
    rcases ih with h | ⟨k, hk, h⟩
    · cases ha : s.answerAt n with
      | ok =>
        refine .inl fun j hj => ?_
        rcases Nat.lt_succ_iff_lt_or_eq.mp hj with hlt | rfl
        · exact h j hlt
        · exact ha
      | err => exact .inr ⟨n, by omega, h, .inl ha⟩
      | never => exact .inr ⟨n, by omega, h, .inr ha⟩
    · exact .inr ⟨k, by omega, h⟩

/-- Everything a list of bytes can come to: all accepted; or the first `k` accepted and then ERR or no answer. -/
theorem emitBytes_cases (bs : List Byte) (s : State) :
    (AnswersOk bs.length s ∧ emitBytes bs s = .going (s.afterBytes bs)) ∨
    ∃ (k : Nat) (hk : k < bs.length), AnswersOk k s ∧
      ((s.answerAt k = .err ∧ emitBytes bs s = .aborted ((s.afterBytes (bs.take k)).drawAnswer.abort .sink)) ∨
       (s.answerAt k = .never ∧
        emitBytes bs s = .waiting ((s.afterBytes (bs.take k)).drawAnswer.holdByte bs[k]))) := by
  rcases answers_cases bs.length s with h | ⟨k, hk, h, he | hn⟩
  · exact .inl ⟨h, emitBytes_ok h⟩
  · exact .inr ⟨k, hk, h, .inl ⟨he, emitBytes_err hk h he⟩⟩
  · exact .inr ⟨k, hk, h, .inr ⟨hn, emitBytes_never hk h hn⟩⟩

end Sys2Proof.Machine
end

