-- ==== Sys2Proof/Laws/BitWriter.lean ====
section
/-! SUPPORT. What the BitWriter's operations can come to (spec/41): `putBits_emission` says it once for PutBits,
`flushBits_*` for FlushBits, and `Emission.andThen` composes. -/

namespace Sys2Proof

/-! ## The parameters' bounds -/

theorem Params.accWidth_mod (p : Params) : p.accWidth % 8 = 0 := p.legal.1.1

theorem Params.accWidth_ge (p : Params) : 32 ≤ p.accWidth := p.legal.1.2.1

theorem Params.accWidth_le (p : Params) : p.accWidth ≤ 64 := p.legal.1.2.2

theorem Params.sampleBits_le (p : Params) : p.sampleBits ≤ 31 := p.legal.2.1.2

theorem Params.runEscBits_le (p : Params) : p.runEscBits ≤ p.accWidth := p.legal.2.2.2.2.2

theorem Params.prevInit_lt (p : Params) : p.prevInit < 2 ^ p.sampleBits := p.legal.2.2.2.1

end Sys2Proof

namespace Sys2Proof.Machine

theorem ofNat7_toNat {n : Nat} (h : n ≤ 64) : (BitVec.ofNat 7 n).toNat = n := by
  rw [BitVec.toNat_ofNat]; exact Nat.mod_eq_of_lt (by omega)

theorem ofNat64_toNat {p : Params} {n : Nat} (h : n < 2 ^ p.accWidth) : (BitVec.ofNat 64 n).toNat = n := by
  rw [BitVec.toNat_ofNat]
  exact Nat.mod_eq_of_lt (lt_of_lt_of_le h (Nat.pow_le_pow_right (by norm_num) p.accWidth_le))

/-! ## Pending bits -/

theorem length_pendingBits (s : State) : s.pendingBits.length = s.occ := length_bitsN _ _

/-- A bit of a number below its lowest set bits' bound. -/
theorem testBit_eq_false_of_mod {a f i : Nat} (h : a % 2 ^ f = 0) (hi : i < f) : a.testBit i = false := by
  have := Nat.testBit_mod_two_pow a f i
  rw [h] at this
  simpa [hi] using this.symm

theorem mod_eq_zero_of_testBit {a f : Nat} (h : ∀ i < f, a.testBit i = false) : a % 2 ^ f = 0 := by
  apply Nat.eq_of_testBit_eq
  intro i
  rw [Nat.testBit_mod_two_pow]
  by_cases hi : i < f
  · simp [h i hi]
  · simp [hi]

/-- The bytes of ACC, most significant first, are its high bits (spec/20 R64). -/
theorem bytesBits_accBytes (s : State) (k : Nat) (hk : 8 * k ≤ s.params.accWidth) :
    bytesBits (s.accBytes k) = bitsN (8 * k) (s.acc.toNat >>> (s.params.accWidth - 8 * k)) := by
  induction k with
  | zero => rfl
  | succ k ih =>
    have hb : byteBits (s.accByte k) = bitsN 8 (s.acc.toNat >>> (s.params.accWidth - 8 * (k + 1))) := by
      have hw : s.params.accWidth - 8 - 8 * k = s.params.accWidth - 8 * (k + 1) := by omega
      unfold byteBits State.accByte
      rw [BitVec.toNat_setWidth, bitsN_mod, BitVec.toNat_ushiftRight, hw]
    have hs : s.accBytes (k + 1) = s.accBytes k ++ [s.accByte k] := by
      simp [State.accBytes, List.range_succ]
    rw [hs, bytesBits_append, ih (by omega), bytesBits_cons, bytesBits_nil, List.append_nil, hb,
      show 8 * (k + 1) = 8 * k + 8 by ring, bitsN_add, ← Nat.shiftRight_add,
      show s.params.accWidth - (8 * k + 8) + 8 = s.params.accWidth - 8 * k by omega]

theorem length_accBytes (s : State) (k : Nat) : (s.accBytes k).length = k := by simp [State.accBytes]

/-! ## The accumulator emptied -/

theorem accOk_emptyAcc (s : State) : AccOk s.emptyAcc := by
  have h := ofNat7_toNat s.params.accWidth_le
  refine ⟨?_, ?_, ?_⟩ <;> simp [h]

@[simp] theorem occ_emptyAcc (s : State) : s.emptyAcc.occ = 0 := by
  simp [State.occ, ofNat7_toNat s.params.accWidth_le]

@[simp] theorem stream_emptyAcc (s : State) : s.emptyAcc.stream = bytesBits s.sink := by
  simp [State.stream, State.pendingBits]

theorem AccOk.congr {s t : State} (h : AccOk s) (hp : t.params = s.params) (ha : t.acc = s.acc)
    (hf : t.free = s.free) : AccOk t := by
  unfold AccOk at *; rw [hp, ha, hf]; exact h

/-! ## Appends -/

theorem Appends.sink_eq {bits : List Bool} {s t : State} (h : Appends bits s t) :
    ∃ bs : List Byte, bs.length = appendedBytes bits s ∧
      t = (s.afterBytes bs).withAccOf t ∧ bytesBits bs ++ t.pendingBits = s.pendingBits ++ bits := by
  obtain ⟨bs, hl, ht⟩ := h.rest
  refine ⟨bs, hl, ht, ?_⟩
  have hs := h.stream
  unfold State.stream at hs
  have hk : t.sink = s.sink ++ bs := by rw [ht]; rfl
  rw [hk, bytesBits_append, List.append_assoc, List.append_assoc] at hs
  exact List.append_cancel_left hs

theorem Appends.params {bits : List Bool} {s t : State} (h : Appends bits s t) : t.params = s.params := by
  obtain ⟨bs, -, ht⟩ := h.rest; rw [ht]; rfl

theorem Appends.phase {bits : List Bool} {s t : State} (h : Appends bits s t) : t.phase = s.phase := by
  obtain ⟨bs, -, ht⟩ := h.rest; rw [ht]; rfl

theorem Appends.prev {bits : List Bool} {s t : State} (h : Appends bits s t) : t.prev = s.prev := by
  obtain ⟨bs, -, ht⟩ := h.rest; rw [ht]; rfl

theorem Appends.runLen {bits : List Bool} {s t : State} (h : Appends bits s t) : t.runLen = s.runLen := by
  obtain ⟨bs, -, ht⟩ := h.rest; rw [ht]; rfl

/-- Nothing appended. -/
theorem Appends.nil {s : State} (h : AccOk s) : Appends [] s s := by
  have hle : s.occ ≤ s.params.accWidth := by unfold State.occ; omega
  refine ⟨h, by simp, ?_, [], ?_, ?_⟩
  · simp [lazyPending_of_le hle]
  · simp [appendedBytes, lazyBytes_of_le hle]
  · rw [afterBytes_nil]; rfl

theorem appendedBytes_append {b₁ b₂ : List Bool} {s t : State} (h : Appends b₁ s t) :
    appendedBytes (b₁ ++ b₂) s = appendedBytes b₁ s + appendedBytes b₂ t := by
  unfold appendedBytes
  rw [h.params, h.pending, List.length_append, ← Nat.add_assoc,
    ← lazyBytes_add s.params.accWidth_mod]

theorem Appends.answers {b₁ : List Bool} {s t : State} (h : Appends b₁ s t) (j : Nat) :
    t.answerAt j = s.answerAt (appendedBytes b₁ s + j) := by
  obtain ⟨bs, hl, ht⟩ := h.rest
  rw [← hl, ← answerAt_afterBytes]
  exact answerAt_congr (by rw [ht]; rfl) (by rw [ht]; rfl) j

/-- Two insertions, one after the other. -/
theorem Appends.trans {b₁ b₂ : List Bool} {s t u : State} (h₁ : Appends b₁ s t) (h₂ : Appends b₂ t u) :
    Appends (b₁ ++ b₂) s u := by
  obtain ⟨xs, hx, ht⟩ := h₁.rest
  obtain ⟨ys, hy, hu⟩ := h₂.rest
  refine ⟨h₂.accOk, ?_, ?_, xs ++ ys, ?_, ?_⟩
  · rw [h₂.stream, h₁.stream, List.append_assoc]
  · rw [h₂.pending, h₁.pending, h₁.params, lazyPending_add, List.length_append, Nat.add_assoc]
  · rw [List.length_append, hx, hy, appendedBytes_append h₁]
  · rw [hu, ht, ← afterBytes_append]
    rfl

/-! ## Emission: everything an insertion can come to -/

/-- `f` is the insertion of `bits` in `s`: if the sink answers OK to each byte that has to leave, the bits are
appended; if the `k`-th of them is answered ERR, the abort is taken after `k` bytes; if it is not answered, the
command waits. -/
structure Emission (bits : List Bool) (s : State) (f : Flow) : Prop where
  ok : AnswersOk (appendedBytes bits s) s → ∃ t, f = .going t ∧ Appends bits s t
  err : ∀ k < appendedBytes bits s, AnswersOk k s → s.answerAt k = .err →
    ∃ t, f = .aborted t ∧ AbortsAfter k (s.pendingBits ++ bits) s t
  never : ∀ k < appendedBytes bits s, AnswersOk k s → s.answerAt k = .never →
    ∃ t, f = .waiting t ∧ WaitsAfter k (s.pendingBits ++ bits) s t

/-- Everything an insertion can come to. -/
theorem Emission.cases {bits : List Bool} {s : State} {f : Flow} (h : Emission bits s f) :
    (∃ t, f = .going t ∧ Appends bits s t) ∨
    (∃ k t, f = .aborted t ∧ AbortsAfter k (s.pendingBits ++ bits) s t) ∨
    (∃ k t, f = .waiting t ∧ WaitsAfter k (s.pendingBits ++ bits) s t) := by
  rcases answers_cases (appendedBytes bits s) s with ha | ⟨k, hk, ha, he | hn⟩
  · exact .inl (h.ok ha)
  · exact .inr (.inl ⟨k, h.err k hk ha he⟩)
  · exact .inr (.inr ⟨k, h.never k hk ha hn⟩)

theorem eight_mul_appendedBytes_le (bits : List Bool) (s : State) :
    8 * appendedBytes bits s ≤ (s.pendingBits ++ bits).length := by
  unfold appendedBytes
  rw [eight_mul_lazyBytes s.params.accWidth_mod, List.length_append, length_pendingBits]
  omega

theorem Emission.nil {s : State} (h : AccOk s) : Emission [] s (.going s) := by
  have h0 : appendedBytes [] s = 0 := by
    unfold appendedBytes
    exact lazyBytes_of_le (by unfold State.occ; simp)
  refine ⟨fun _ => ⟨s, rfl, .nil h⟩, ?_, ?_⟩ <;> intro k hk <;> omega

/-- One insertion after another. -/
theorem Emission.andThen {b₁ b₂ : List Bool} {s : State} {f : Flow} {g : State → Flow} (h₁ : Emission b₁ s f)
    (h₂ : ∀ t, Appends b₁ s t → Emission b₂ t (g t)) : Emission (b₁ ++ b₂) s (f.andThen g) := by
  have split : ∀ k, AnswersOk k s → ¬ k < appendedBytes b₁ s → ∃ t xs, f = .going t ∧ Appends b₁ s t ∧
      AnswersOk (k - appendedBytes b₁ s) t ∧ t.answerAt (k - appendedBytes b₁ s) = s.answerAt k ∧
      xs.length = appendedBytes b₁ s ∧ t = (s.afterBytes xs).withAccOf t ∧
      bytesBits xs ++ t.pendingBits = s.pendingBits ++ b₁ := by
    intro k hk hge
    obtain ⟨t, hf, ht⟩ := h₁.ok (answersOk_mono hk (by omega))
    obtain ⟨xs, hxl, hxt, hxb⟩ := ht.sink_eq
    refine ⟨t, xs, hf, ht, fun j hj => ?_, ?_, hxl, hxt, hxb⟩
    · rw [ht.answers]; exact hk _ (by omega)
    · rw [ht.answers]; congr 1; omega
  have takeLt : ∀ k, k ≤ appendedBytes b₁ s →
      (s.pendingBits ++ (b₁ ++ b₂)).take (8 * k) = (s.pendingBits ++ b₁).take (8 * k) := by
    intro k hk
    have := eight_mul_appendedBytes_le b₁ s
    rw [← List.append_assoc, List.take_append_of_le_length (by omega)]
  refine ⟨?_, ?_, ?_⟩
  · intro ha
    obtain ⟨t, hf, ht⟩ := h₁.ok fun j hj => by
      obtain ⟨t, -, -⟩ := h₁
      exact ha j (by
        have h8 := eight_mul_appendedBytes_le b₁ s
        have : appendedBytes b₁ s ≤ appendedBytes (b₁ ++ b₂) s := by
          unfold appendedBytes
          have := lazyBytes_add s.params.accWidth_mod (s.occ + b₁.length) b₂.length
          rw [List.length_append, ← Nat.add_assoc]
          omega
        omega)
    rw [appendedBytes_append ht] at ha
    obtain ⟨u, hg, hu⟩ := (h₂ t ht).ok fun j hj => by rw [ht.answers]; exact ha _ (by omega)
    exact ⟨u, by rw [hf, Flow.andThen_going, hg], ht.trans hu⟩
  · intro k hk ha he
    by_cases hlt : k < appendedBytes b₁ s
    · obtain ⟨t, hf, bs, hl, hb, ht⟩ := h₁.err k hlt ha he
      exact ⟨t, by rw [hf, Flow.andThen_aborted], bs, hl, by rw [takeLt k (by omega)]; exact hb, ht⟩
    · obtain ⟨t, xs, hf, ht, hat, heq, hxl, hxt, hxb⟩ := split k ha hlt
      rw [appendedBytes_append ht] at hk
      obtain ⟨u, hg, ys, hyl, hyb, hu⟩ := (h₂ t ht).err _ (by omega) hat (heq.trans he)
      refine ⟨u, by rw [hf, Flow.andThen_going, hg], xs ++ ys, by simp; omega, ?_, ?_⟩
      · rw [bytesBits_append, hyb, ← List.append_assoc, ← hxb, List.append_assoc,
          show 8 * k = (bytesBits xs).length + 8 * (k - appendedBytes b₁ s) by rw [length_bytesBits]; omega,
          List.take_length_add_append]
      · rw [hu, ← afterBytes_append]
        rw [hxt]
        rfl
  · intro k hk ha he
    by_cases hlt : k < appendedBytes b₁ s
    · obtain ⟨t, hf, hacc, bs, b, hl, hb, ht⟩ := h₁.never k hlt ha he
      exact ⟨t, by rw [hf, Flow.andThen_waiting], hacc, bs, b, hl, by rw [takeLt (k + 1) (by omega)]; exact hb, ht⟩
    · obtain ⟨t, xs, hf, ht, hat, heq, hxl, hxt, hxb⟩ := split k ha hlt
      rw [appendedBytes_append ht] at hk
      obtain ⟨u, hg, hacc, ys, b, hyl, hyb, hu⟩ := (h₂ t ht).never _ (by omega) hat (heq.trans he)
      refine ⟨u, by rw [hf, Flow.andThen_going, hg], hacc, xs ++ ys, b, by simp; omega, ?_, ?_⟩
      · rw [List.append_assoc, bytesBits_append, hyb, ← List.append_assoc, ← hxb, List.append_assoc,
          show 8 * (k + 1) = (bytesBits xs).length + 8 * (k - appendedBytes b₁ s + 1) by
            rw [length_bytesBits]; omega,
          List.take_length_add_append]
      · rw [hu, ← afterBytes_append]
        conv_lhs => rw [hxt]
        rfl

/-! ## PutBits -/

theorem lowBits_lt (n v : Nat) : lowBits n v < 2 ^ n := Nat.mod_lt _ (by positivity)

theorem bitsN_lowBits (n v : Nat) : bitsN n (lowBits n v) = bitsN n v := bitsN_mod n v

/-- The fast path appends its bits and offers no byte (spec/41 R101, R106). -/
theorem putBitsFast_appends {n u : Nat} {s : State} (h : AccOk s) (hn : n ≤ s.free.toNat) (hu : u < 2 ^ n) :
    Appends (bitsN n u) s (putBitsFast n u s) := by
  obtain ⟨hf, ha, hz⟩ := h
  have hshift : u <<< (s.free.toNat - n) < 2 ^ s.free.toNat := by
    rw [Nat.shiftLeft_eq]
    calc u * 2 ^ (s.free.toNat - n) < 2 ^ n * 2 ^ (s.free.toNat - n) := by gcongr
      _ = 2 ^ s.free.toNat := by rw [← pow_add]; congr 1; omega
  have hacc : s.acc.toNat ||| u <<< (s.free.toNat - n) < 2 ^ s.params.accWidth :=
    Nat.or_lt_two_pow ha (lt_of_lt_of_le hshift (Nat.pow_le_pow_right (by norm_num) hf))
  have hw := s.params.accWidth_le
  have eA : (putBitsFast n u s).acc.toNat = s.acc.toNat ||| u <<< (s.free.toNat - n) := ofNat64_toNat hacc
  have eF : (putBitsFast n u s).free.toNat = s.free.toNat - n := ofNat7_toNat (by omega)
  have eO : (putBitsFast n u s).occ = s.occ + n := by
    unfold State.occ; rw [eF]; show s.params.accWidth - _ = _; omega
  have eP : (putBitsFast n u s).pendingBits = s.pendingBits ++ bitsN n u := by
    unfold State.pendingBits
    rw [eO, eA, eF, bitsN_add]
    congr 1
    · apply bitsN_congr
      intro i _
      rw [Nat.testBit_shiftRight, Nat.testBit_shiftRight, Nat.testBit_shiftRight, Nat.testBit_or,
        Nat.testBit_shiftLeft, show s.free.toNat - n + (n + i) = s.free.toNat + i by omega,
        show s.free.toNat + i - (s.free.toNat - n) = n + i by omega,
        Nat.testBit_lt_two_pow (lt_of_lt_of_le hu (Nat.pow_le_pow_right (by norm_num) (by omega)))]
      simp
    · apply bitsN_congr
      intro i hi
      rw [Nat.testBit_shiftRight, Nat.testBit_or, Nat.testBit_shiftLeft,
        testBit_eq_false_of_mod hz (by omega), show s.free.toNat - n + i - (s.free.toNat - n) = i by omega]
      simp
  have hle : s.occ + n ≤ s.params.accWidth := by unfold State.occ; omega
  refine ⟨⟨by rw [eF]; show _ ≤ s.params.accWidth; omega, by rw [eA]; exact hacc, ?_⟩, ?_, ?_, [], ?_, ?_⟩
  · rw [eA, eF]
    apply mod_eq_zero_of_testBit
    intro i hi
    rw [Nat.testBit_or, Nat.testBit_shiftLeft, testBit_eq_false_of_mod hz (by omega)]
    simp; omega
  · unfold State.stream
    rw [eP, ← List.append_assoc]
    rfl
  · rw [eO, length_bitsN, lazyPending_of_le hle]
  · unfold appendedBytes
    rw [length_bitsN, lazyBytes_of_le hle]; rfl
  · rw [afterBytes_nil]; rfl

/-- The slow path (spec/41 R101): the FREE bits that fit are put in, the word leaves, the rest stays. -/
theorem putBitsSlow_emission {n u : Nat} {s : State} (h : AccOk s) (hn : s.free.toNat < n)
    (hw : n ≤ s.params.accWidth) (hu : u < 2 ^ n) :
    Emission (bitsN n u) s (putBitsSlow (n - s.free.toNat) u s) := by
  obtain ⟨hf, ha, hz⟩ := h
  have hW := s.params.accWidth_le
  have hr : n - s.free.toNat + s.free.toNat = n := by omega
  generalize hrdef : n - s.free.toNat = r at hr ⊢
  have huh : u >>> r < 2 ^ s.free.toNat := by
    rw [Nat.shiftRight_eq_div_pow, Nat.div_lt_iff_lt_mul (by positivity), ← pow_add, Nat.add_comm, hr]; exact hu
  have hacc : s.acc.toNat ||| u >>> r < 2 ^ s.params.accWidth :=
    Nat.or_lt_two_pow ha (lt_of_lt_of_le huh (Nat.pow_le_pow_right (by norm_num) hf))
  generalize hs₁ : s.setAcc (s.acc.toNat ||| u >>> r) 0 = s₁
  have eA : s₁.acc.toNat = s.acc.toNat ||| u >>> r := by rw [← hs₁]; exact ofNat64_toNat hacc
  have eW : s₁.params = s.params := by rw [← hs₁]; rfl
  have eFr : s₁.free.toNat = 0 := by rw [← hs₁]; rfl
  have hs₁ok : AccOk s₁ := ⟨by rw [eFr]; omega, by rw [eA, eW]; exact hacc, by rw [eFr]; omega⟩
  have hWdvd : 8 * (s.params.accWidth / 8) = s.params.accWidth := by
    have := s.params.accWidth_mod; omega
  -- the word is what was pending and the bits that fitted
  have hbits : bytesBits (s₁.accBytes (s.params.accWidth / 8)) = s.pendingBits ++ bitsN s.free.toNat (u >>> r) := by
    rw [bytesBits_accBytes _ _ (by rw [eW]; omega), hWdvd, eW, Nat.sub_self, eA]
    have hsum : s.params.accWidth = s.occ + s.free.toNat := by unfold State.occ; omega
    conv_lhs => rw [hsum, bitsN_add]
    unfold State.pendingBits
    congr 1
    · apply bitsN_congr
      intro i _
      rw [Nat.shiftRight_zero, Nat.testBit_shiftRight, Nat.testBit_shiftRight, Nat.testBit_or,
        Nat.testBit_lt_two_pow (lt_of_lt_of_le huh (Nat.pow_le_pow_right (by norm_num) (by omega)))]
      simp
    · apply bitsN_congr
      intro i hi
      rw [Nat.shiftRight_zero, Nat.testBit_or, testBit_eq_false_of_mod hz hi]
      simp
  have hpre : bitsN n u = bitsN s.free.toNat (u >>> r) ++ bitsN r u := by
    rw [← bitsN_add]; congr 1; omega
  have hocc : s.occ + n = s.params.accWidth + r := by unfold State.occ; omega
  have hk : appendedBytes (bitsN n u) s = s.params.accWidth / 8 := by
    unfold appendedBytes
    rw [length_bitsN, hocc]
    exact lazyBytes_of_gt (by omega) (by omega)
  have hlen : (s₁.accBytes (s.params.accWidth / 8)).length = s.params.accWidth / 8 := length_accBytes _ _
  have hans : ∀ j, s₁.answerAt j = s.answerAt j := fun j => by rw [← hs₁]; rfl
  have htake : ∀ k, k ≤ s.params.accWidth / 8 →
      bytesBits ((s₁.accBytes (s.params.accWidth / 8)).take k) = (s.pendingBits ++ bitsN n u).take (8 * k) := by
    intro k hk
    rw [hpre, ← List.append_assoc, ← hbits, List.take_append_of_le_length (by rw [length_bytesBits, hlen]; omega)]
    conv_rhs => rw [← List.take_append_drop k (s₁.accBytes (s.params.accWidth / 8)), bytesBits_append]
    rw [List.take_left' (by rw [length_bytesBits, List.length_take, hlen]; omega)]
  have hfl : putBitsSlow r u s = ((emitBytes (s₁.accBytes (s.params.accWidth / 8)) s₁).andThen fun t =>
      .going t.emptyAcc).andThen fun t =>
        .going (t.setAcc (lowBits r u <<< (t.params.accWidth - r)) (t.params.accWidth - r)) := by
    unfold putBitsSlow emitWord; rw [hs₁, eW]
  refine ⟨fun hok => ?_, fun k hlt hok he => ?_, fun k hlt hok he => ?_⟩
  · rw [hk] at hok
    rw [hfl, emitBytes_ok (by rw [hlen]; exact fun j hj => (hans j).trans (hok j hj))]
    simp only [Flow.andThen_going]
    have eW' : (s₁.afterBytes (s₁.accBytes (s.params.accWidth / 8))).emptyAcc.params = s.params := eW
    rw [eW']
    have hlow : lowBits r u <<< (s.params.accWidth - r) < 2 ^ s.params.accWidth := by
      rw [Nat.shiftLeft_eq]
      calc lowBits r u * 2 ^ (s.params.accWidth - r) < 2 ^ r * 2 ^ (s.params.accWidth - r) := by
            gcongr; exact lowBits_lt r u
        _ = 2 ^ s.params.accWidth := by rw [← pow_add]; congr 1; omega
    generalize ht : (s₁.afterBytes (s₁.accBytes (s.params.accWidth / 8))).emptyAcc.setAcc
      (lowBits r u <<< (s.params.accWidth - r)) (s.params.accWidth - r) = t
    have tA : t.acc.toNat = lowBits r u <<< (s.params.accWidth - r) := by rw [← ht]; exact ofNat64_toNat hlow
    have tF : t.free.toNat = s.params.accWidth - r := by rw [← ht]; exact ofNat7_toNat (by omega)
    have tW : t.params = s.params := by rw [← ht]; exact eW
    have tS : t.sink = s.sink ++ s₁.accBytes (s.params.accWidth / 8) := by rw [← ht, ← hs₁]; rfl
    have tO : t.occ = r := by unfold State.occ; rw [tW, tF]; omega
    have tP : t.pendingBits = bitsN r u := by
      unfold State.pendingBits
      rw [tO, tA, tF, Nat.shiftLeft_shiftRight, bitsN_lowBits]
    refine ⟨t, rfl, ⟨by rw [tF, tW]; omega, by rw [tA, tW]; exact hlow, ?_⟩, ?_, ?_,
      s₁.accBytes (s.params.accWidth / 8), ?_, ?_⟩
    · rw [tA, tF, Nat.shiftLeft_eq]; exact Nat.mul_mod_left _ _
    · unfold State.stream
      rw [tS, tP, bytesBits_append, hbits, hpre]
      simp only [List.append_assoc]
    · rw [tO, length_bitsN, hocc, lazyPending_of_gt (by omega) (by omega)]; omega
    · rw [hlen, hk]
    · rw [← ht, ← hs₁]; rfl
  · rw [hk] at hlt
    rw [hfl, emitBytes_err (k := k) (by rw [hlen]; exact hlt) (fun j hj => (hans j).trans (hok j hj))
      ((hans k).trans he)]
    refine ⟨_, rfl, (s₁.accBytes (s.params.accWidth / 8)).take k, ?_, htake k (by omega), ?_⟩
    · rw [List.length_take, hlen]; omega
    · rw [← hs₁]; rfl
  · rw [hk] at hlt
    have hlt' : k < (s₁.accBytes (s.params.accWidth / 8)).length := by rw [hlen]; exact hlt
    rw [hfl, emitBytes_never (k := k) (by rw [hlen]; exact hlt) (fun j hj => (hans j).trans (hok j hj))
      ((hans k).trans he)]
    refine ⟨_, rfl, hs₁ok.congr rfl rfl rfl, (s₁.accBytes (s.params.accWidth / 8)).take k,
      (s₁.accBytes (s.params.accWidth / 8))[k], ?_, ?_, ?_⟩
    · rw [List.length_take, hlen]; omega
    · rw [← htake (k + 1) (by omega), List.take_add_one, List.getElem?_eq_getElem (by rw [hlen]; exact hlt)]
      rfl
    · subst hs₁; rfl

/-- Everything `PutBits(n, v)` can come to (spec/41 R101, R103). -/
theorem putBits_emission {n v : Nat} {s : State} (h : AccOk s) (hn : n ≤ s.params.accWidth) :
    Emission (bitsN n v) s (putBits n v s) := by
  rw [← bitsN_lowBits]
  unfold putBits
  split
  · next hle =>
    have ha := putBitsFast_appends h hle (lowBits_lt n v)
    have h0 : appendedBytes (bitsN n (lowBits n v)) s = 0 := by
      unfold appendedBytes
      exact lazyBytes_of_le (by rw [length_bitsN]; have := h.1; unfold State.occ; omega)
    exact ⟨fun _ => ⟨_, rfl, ha⟩, fun k hk => by omega, fun k hk => by omega⟩
  · next hgt => exact putBitsSlow_emission h (by omega) hn (lowBits_lt n v)

/-! ## FlushBits -/

/-- What FlushBits writes (spec/41 R104): the pending bits, and zero bits to the next byte. -/
theorem bytesBits_flush {s : State} (h : AccOk s) :
    bytesBits (s.accBytes ((s.occ + 7) / 8)) = s.pendingBits ++ padding s.occ := by
  obtain ⟨hf, ha, hz⟩ := h
  have hm := s.params.accWidth_mod
  have hle : 8 * ((s.occ + 7) / 8) ≤ s.params.accWidth := by unfold State.occ; omega
  rw [bytesBits_accBytes s _ hle]
  have hsum : 8 * ((s.occ + 7) / 8) = s.occ + (8 - s.occ % 8) % 8 := by omega
  have hcut : s.params.accWidth - 8 * ((s.occ + 7) / 8) + (8 - s.occ % 8) % 8 = s.free.toNat := by
    unfold State.occ at *; omega
  conv_lhs => rw [hsum, bitsN_add, ← hsum]
  rw [← Nat.shiftRight_add, hcut]
  congr 1
  rw [padding, ← bitsN_zero_value]
  apply bitsN_congr
  intro i hi
  rw [Nat.testBit_shiftRight, testBit_eq_false_of_mod hz (by omega)]
  simp

theorem flushBits_ok {s : State} (h : AccOk s) (hok : AnswersOk ((s.occ + 7) / 8) s) :
    ∃ t, flushBits s = .going t ∧ Flushed s t := by
  have hlen := length_accBytes s ((s.occ + 7) / 8)
  refine ⟨(s.afterBytes (s.accBytes ((s.occ + 7) / 8))).emptyAcc, ?_, ?_, _, hlen, rfl⟩
  · unfold flushBits; rw [emitBytes_ok (by rw [hlen]; exact hok), Flow.andThen_going]
  · simp only [State.emptyAcc_sink, State.afterBytes_sink, bytesBits_append, bytesBits_flush h, State.stream,
      List.append_assoc]

theorem flush_take {s : State} (h : AccOk s) (k : Nat) (hk : k ≤ (s.occ + 7) / 8) :
    bytesBits ((s.accBytes ((s.occ + 7) / 8)).take k) = (s.pendingBits ++ padding s.occ).take (8 * k) := by
  have hlen := length_accBytes s ((s.occ + 7) / 8)
  rw [← bytesBits_flush h]
  conv_rhs => rw [← List.take_append_drop k (s.accBytes ((s.occ + 7) / 8)), bytesBits_append]
  rw [List.take_left' (by rw [length_bytesBits, List.length_take, hlen]; omega)]

theorem flushBits_err {s : State} {k : Nat} (h : AccOk s) (hk : k < (s.occ + 7) / 8) (hok : AnswersOk k s)
    (he : s.answerAt k = .err) :
    ∃ t, flushBits s = .aborted t ∧ AbortsAfter k (s.pendingBits ++ padding s.occ) s t := by
  have hlen := length_accBytes s ((s.occ + 7) / 8)
  refine ⟨((s.afterBytes ((s.accBytes ((s.occ + 7) / 8)).take k)).drawAnswer.abort .sink), ?_,
    (s.accBytes ((s.occ + 7) / 8)).take k, ?_, flush_take h k (by omega), rfl⟩
  · unfold flushBits; rw [emitBytes_err (by rw [hlen]; exact hk) hok he, Flow.andThen_aborted]
  · rw [List.length_take, hlen]; omega

theorem flushBits_never {s : State} {k : Nat} (h : AccOk s) (hk : k < (s.occ + 7) / 8) (hok : AnswersOk k s)
    (he : s.answerAt k = .never) :
    ∃ t, flushBits s = .waiting t ∧ WaitsAfter k (s.pendingBits ++ padding s.occ) s t := by
  have hlen := length_accBytes s ((s.occ + 7) / 8)
  have hk' : k < (s.accBytes ((s.occ + 7) / 8)).length := by rw [hlen]; exact hk
  refine ⟨((s.afterBytes ((s.accBytes ((s.occ + 7) / 8)).take k)).drawAnswer.holdByte
      (s.accBytes ((s.occ + 7) / 8))[k]), ?_, ?_, (s.accBytes ((s.occ + 7) / 8)).take k,
      (s.accBytes ((s.occ + 7) / 8))[k], ?_, ?_, rfl⟩
  · unfold flushBits; rw [emitBytes_never hk' hok he, Flow.andThen_waiting]
  · exact h.congr rfl rfl rfl
  · rw [List.length_take, hlen]; omega
  · rw [← flush_take h (k + 1) (by omega), List.take_add_one, List.getElem?_eq_getElem (by rw [hlen]; exact hk)]
    rfl

/-- Everything FlushBits can come to. -/
theorem flushBits_cases {s : State} (h : AccOk s) :
    (∃ t, flushBits s = .going t ∧ Flushed s t) ∨
    (∃ k t, flushBits s = .aborted t ∧ AbortsAfter k (s.pendingBits ++ padding s.occ) s t) ∨
    (∃ k t, flushBits s = .waiting t ∧ WaitsAfter k (s.pendingBits ++ padding s.occ) s t) := by
  rcases answers_cases ((s.occ + 7) / 8) s with ha | ⟨k, hk, ha, he | hn⟩
  · exact .inl (flushBits_ok h ha)
  · exact .inr (.inl ⟨k, flushBits_err h hk ha he⟩)
  · exact .inr (.inr ⟨k, flushBits_never h hk ha hn⟩)

end Sys2Proof.Machine
end

