-- ==== Sys2Proof/Laws/Emits.lean ====
section
/-! SUPPORT. What an operation on the BitWriter can come to in EVERY state, the unreachable ones too: it changes
ACC, FREE, the sink and its counters and nothing else, unless it aborts or waits. One inversion lemma for each
shared operation and for each command that emits. -/

namespace Sys2Proof.Machine

/-- Everything an operation on the BitWriter can come to, started in `s`. -/
inductive Emits (s : State) : Flow → Prop where
  /-- bytes were accepted, and the accumulator is what the operation left -/
  | going (t : State) (bs : List Byte) (h : t = (s.afterBytes bs).withAccOf t) : Emits s (.going t)
  /-- bytes were accepted, then ERR, and the abort was taken -/
  | aborted (bs : List Byte) : Emits s (.aborted ((s.afterBytes bs).drawAnswer.abort .sink))
  /-- bytes were accepted, then no answer -/
  | waiting (t : State) (bs : List Byte) (b : Byte)
      (h : t = ((s.afterBytes bs).drawAnswer.holdByte b).withAccOf t) : Emits s (.waiting t)

theorem Emits.refl (s : State) : Emits s (.going s) := .going s [] (by rw [afterBytes_nil]; rfl)

theorem Emits.setAcc (a f : Nat) (s : State) : Emits s (.going (s.setAcc a f)) :=
  .going _ [] (by rw [afterBytes_nil]; rfl)

theorem Emits.emptyAcc (s : State) : Emits s (.going s.emptyAcc) := .going _ [] (by rw [afterBytes_nil]; rfl)

/-- What follows an operation may start from any accumulator. -/
theorem Emits.of_withAccOf {s t : State} {bs : List Byte} (ht : t = (s.afterBytes bs).withAccOf t) {f : Flow}
    (h : Emits t f) : Emits s f := by
  cases h with
  | going u cs hu =>
    refine .going u (bs ++ cs) ?_
    rw [← afterBytes_append]
    conv_lhs => rw [hu, ht]
    rfl
  | aborted cs =>
    have : (t.afterBytes cs).drawAnswer.abort .sink = (s.afterBytes (bs ++ cs)).drawAnswer.abort .sink := by
      rw [← afterBytes_append, ht]; rfl
    rw [this]; exact .aborted _
  | waiting u cs b hu =>
    refine .waiting u (bs ++ cs) b ?_
    rw [← afterBytes_append]
    conv_lhs => rw [hu, ht]
    rfl

theorem Emits.andThen {s : State} {f : Flow} {g : State → Flow} (h₁ : Emits s f)
    (h₂ : ∀ t bs, t = (s.afterBytes bs).withAccOf t → Emits t (g t)) : Emits s (f.andThen g) := by
  cases h₁ with
  | going t bs ht => exact (h₂ t bs ht).of_withAccOf ht
  | aborted bs => exact .aborted bs
  | waiting t bs b ht => exact .waiting t bs b ht

theorem emitBytes_emits (bs : List Byte) (s : State) : Emits s (emitBytes bs s) := by
  rcases emitBytes_cases bs s with ⟨-, h⟩ | ⟨k, hk, -, ⟨-, h⟩ | ⟨-, h⟩⟩
  · rw [h]; exact .going _ bs rfl
  · rw [h]; exact .aborted _
  · rw [h]; exact .waiting _ _ _ rfl

theorem emitWord_emits (s : State) : Emits s (emitWord s) :=
  (emitBytes_emits _ s).andThen fun t _ _ => .emptyAcc t

theorem flushBits_emits (s : State) : Emits s (flushBits s) :=
  (emitBytes_emits _ s).andThen fun t _ _ => .emptyAcc t

theorem putBits_emits (n v : Nat) (s : State) : Emits s (putBits n v s) := by
  unfold putBits
  split
  · exact .setAcc _ _ s
  · exact ((emitWord_emits _).andThen fun t _ _ => .setAcc _ _ t).of_withAccOf (bs := []) (by
      rw [afterBytes_nil]; rfl)

theorem emitCode_emits (e : Entry) (s : State) : Emits s (emitCode e s) := putBits_emits _ _ s

theorem encDelta_emits (d : Int) (s : State) : Emits s (encDelta d s) :=
  (emitCode_emits _ s).andThen fun t _ _ => by
    split
    · exact putBits_emits _ _ t
    · exact .refl t

theorem encRun_emits (r : Nat) (s : State) : Emits s (encRun r s) := by
  unfold encRun
  split
  · exact emitCode_emits _ s
  · exact (emitCode_emits _ s).andThen fun t _ _ => putBits_emits _ _ t

/-! ## Commands -/

/-- Everything an emitting command can end in once it has passed its checks. -/
inductive Ends (s : State) : State → Prop where
  /-- it responded OK -/
  | done (t : State) (bs : List Byte) (h : t = ((s.afterBytes bs).withAccOf t).respond .ok) : Ends s t
  /-- ABORT_SINK -/
  | aborted (bs : List Byte) : Ends s ((s.afterBytes bs).drawAnswer.abort .sink)
  /-- it waits for the sink -/
  | waiting (t : State) (bs : List Byte) (b : Byte)
      (h : t = ((s.afterBytes bs).drawAnswer.holdByte b).withAccOf t) : Ends s t

theorem Emits.close {s : State} {f : Flow} (h : Emits s f) : Ends s f.close := by
  cases h with
  | going t bs ht =>
    refine .done _ bs ?_
    conv_lhs => rw [Flow.close_going, ht]
    rfl
  | aborted bs => exact .aborted bs
  | waiting t bs b ht => exact .waiting t bs b ht

/-! ## PIXEL -/

/-- The writes of a PIXEL to RUN_LEN, PREV and PIX_IDX that were made when it stopped: none while its sample's bits
are emitted; those of its sample, and then RUN_LEN = 0 too, at the frame's end (spec/43 R164, R166). -/
inductive PixelWrites (sample : Nat) (s : State) : State → Prop where
  | none : PixelWrites sample s s
  | sample (h : s.atLast = true) : PixelWrites sample s (s.consume sample)
  | closing (h : s.atLast = true) : PixelWrites sample s (s.consume sample).clearRun

/-- Everything a PIXEL that has passed its checks can end in. -/
inductive PixelEnds (sample : Nat) (s : State) : State → Prop where
  /-- not the last sample; it responded OK -/
  | consumed (t : State) (bs : List Byte) (hl : s.atLast = false)
      (h : t = (((s.consume sample).afterBytes bs).withAccOf t).respond .ok) : PixelEnds sample s t
  /-- the last sample: the frame is complete -/
  | completed (bs : List Byte) (hl : s.atLast = true) :
      PixelEnds sample s ((((s.consume sample).clearRun.afterBytes bs).emptyAcc.finishFrame).respond .ok)
  /-- ABORT_SINK, with the writes made before it -/
  | aborted (u : State) (bs : List Byte) (hu : PixelWrites sample s u) :
      PixelEnds sample s ((u.afterBytes bs).drawAnswer.abort .sink)
  /-- it waits for the sink, with the writes made before -/
  | waiting (t u : State) (bs : List Byte) (b : Byte) (hu : PixelWrites sample s u)
      (h : t = ((u.afterBytes bs).drawAnswer.holdByte b).withAccOf t) : PixelEnds sample s t

theorem validSample_eq_true {p : Params} {sample : Nat} : validSample p sample = true ↔ sample ≠ p.invalidMarker := by
  simp [validSample]

/-- The writes of a PIXEL's sample, in one. -/
theorem consume_eq (sample : Nat) (s : State) :
    s.consume sample =
      (if validSample s.params sample = true then s.setBaseline sample else s.extendRun).advance := by
  unfold State.consume
  by_cases h : sample = s.params.invalidMarker
  · rw [if_pos h, if_neg (by rw [validSample_eq_true]; simpa using h)]; rfl
  · rw [if_neg h, if_pos (validSample_eq_true.mpr h)]; rfl

/-- A PIXEL's sample writes RUN_LEN, PREV and PIX_IDX. -/
theorem consume_frame (sample : Nat) (s : State) :
    s.consume sample =
      { s with
        runLen := (s.consume sample).runLen
        prev := (s.consume sample).prev
        pixIdx := (s.consume sample).pixIdx } := by
  unfold State.consume; split <;> rfl

theorem consume_pixIdx (sample : Nat) (s : State) : (s.consume sample).pixIdx = s.pixIdx + 1 := by
  unfold State.consume; split <;> rfl

/-- A PIXEL's own writes are to RUN_LEN, PREV and PIX_IDX. -/
theorem PixelWrites.frame {sample : Nat} {s u : State} (h : PixelWrites sample s u) :
    u = { s with runLen := u.runLen, prev := u.prev, pixIdx := u.pixIdx } := by
  cases h with
  | none => rfl
  | sample h => exact consume_frame sample s
  | closing h => conv_lhs => rw [consume_frame]
                 rfl

theorem flushBits_going {s t : State} (h : flushBits s = .going t) :
    ∃ bs, bs.length = (s.occ + 7) / 8 ∧ t = (s.afterBytes bs).emptyAcc := by
  unfold flushBits at h
  rcases emitBytes_cases (s.accBytes ((s.occ + 7) / 8)) s with ⟨-, he⟩ | ⟨k, hk, -, ⟨-, he⟩ | ⟨-, he⟩⟩
  · rw [he, Flow.andThen_going, Flow.going.injEq] at h; exact ⟨_, by simp [State.accBytes], h.symm⟩
  · rw [he, Flow.andThen_aborted] at h; exact absurd h (by simp)
  · rw [he, Flow.andThen_waiting] at h; exact absurd h (by simp)

/-- What `consumeSample` can come to: nothing but bytes and the accumulator if it stops; the run state if it
goes on. -/
theorem consumeSample_cases (sample : Nat) (s : State) :
    (∃ t bs, consumeSample sample s = .going t ∧ t.advance = ((s.consume sample).afterBytes bs).withAccOf t.advance) ∨
    (∃ bs, consumeSample sample s = .aborted ((s.afterBytes bs).drawAnswer.abort .sink)) ∨
    (∃ t bs b, consumeSample sample s = .waiting t ∧
        t = ((s.afterBytes bs).drawAnswer.holdByte b).withAccOf t) := by
  rw [consume_eq]
  unfold consumeSample
  split
  · have h : Emits s ((encRun s.runLen.toNat s).andThen fun t => encDelta ((sample : Int) - t.prev.toNat) t) :=
      (encRun_emits _ s).andThen fun t _ _ => encDelta_emits _ t
    rw [← Flow.andThen_assoc]
    generalize ((encRun s.runLen.toNat s).andThen fun t => encDelta ((sample : Int) - t.prev.toNat) t) = f at h
    cases h with
    | going t bs ht =>
      refine .inl ⟨t.setBaseline sample, bs, rfl, ?_⟩
      conv_lhs => rw [ht]
      rfl
    | aborted bs => exact .inr (.inl ⟨bs, rfl⟩)
    | waiting t bs b ht => exact .inr (.inr ⟨t, bs, b, rfl, ht⟩)
  · refine .inl ⟨s.extendRun, [], rfl, ?_⟩
    rw [afterBytes_nil]; rfl

/-- What `endFrame` can come to. -/
theorem endFrame_cases (s : State) :
    (∃ bs, endFrame s = .going (((s.clearRun).afterBytes bs).emptyAcc.finishFrame)) ∨
    (∃ u bs, (u = s ∨ u = s.clearRun) ∧
      endFrame s = .aborted ((u.afterBytes bs).drawAnswer.abort .sink)) ∨
    (∃ t u bs b, (u = s ∨ u = s.clearRun) ∧ endFrame s = .waiting t ∧
      t = ((u.afterBytes bs).drawAnswer.holdByte b).withAccOf t) := by
  unfold endFrame
  have h := encRun_emits s.runLen.toNat s
  generalize encRun s.runLen.toNat s = f at h
  cases h with
  | aborted bs => exact .inr (.inl ⟨s, bs, .inl rfl, rfl⟩)
  | waiting t bs b ht => exact .inr (.inr ⟨t, s, bs, b, .inl rfl, rfl, ht⟩)
  | going t bs ht =>
    rw [Flow.andThen_going]
    have ht' : t.clearRun = (s.clearRun.afterBytes bs).withAccOf t.clearRun := by
      conv_lhs => rw [ht]
      rfl
    have h := (flushBits_emits t.clearRun).of_withAccOf ht'
    generalize hf : flushBits t.clearRun = f at h
    cases h with
    | aborted cs => exact .inr (.inl ⟨_, cs, .inr rfl, rfl⟩)
    | waiting u cs b hu => exact .inr (.inr ⟨u, _, cs, b, .inr rfl, rfl, hu⟩)
    | going u cs hu =>
      obtain ⟨ds, -, hd⟩ := flushBits_going hf
      refine .inl ⟨bs ++ ds, ?_⟩
      rw [Flow.andThen_going, hd, ← afterBytes_append, ht']
      rfl

/-- Everything a PIXEL can do (spec/43 R164). -/
theorem execPixel_cases (sample : Nat) (s : State) :
    (s.phase ≠ .frame ∧ execPixel sample s = .next (s.reject .rejState)) ∨
    (s.phase = .frame ∧ 2 ^ s.params.sampleBits ≤ sample ∧ execPixel sample s = .next (s.reject .rejOperand)) ∨
    (s.phase = .frame ∧ sample < 2 ^ s.params.sampleBits ∧ pixelOverflow sample s = true ∧
      execPixel sample s = .next (s.abort .overflow)) ∨
    (s.phase = .frame ∧ sample < 2 ^ s.params.sampleBits ∧ pixelOverflow sample s = false ∧
      ∃ t, execPixel sample s = .next t ∧ PixelEnds sample s t) := by
  unfold execPixel
  by_cases hp : s.phase = .frame
  swap
  · exact .inl ⟨hp, by rw [if_pos hp]⟩
  by_cases hs : 2 ^ s.params.sampleBits ≤ sample
  · exact .inr (.inl ⟨hp, hs, by rw [if_neg (by simp [hp]), if_pos hs]⟩)
  by_cases ho : pixelOverflow sample s = true
  · exact .inr (.inr (.inl ⟨hp, by omega, ho, by rw [if_neg (by simp [hp]), if_neg hs, if_pos ho]⟩))
  refine .inr (.inr (.inr ⟨hp, by omega, by simpa using ho, _, by rw [if_neg (by simp [hp]), if_neg hs, if_neg ho], ?_⟩))
  rcases consumeSample_cases sample s with ⟨t, bs, hc, ht⟩ | ⟨bs, hc⟩ | ⟨t, bs, b, hc, ht⟩
  · rw [hc, Flow.andThen_going]
    cases hl : s.atLast with
    | false =>
      refine .consumed _ bs hl ?_
      simp only [Bool.false_eq_true, if_false, Flow.close_going]
      conv_lhs => rw [ht]
      rfl
    | true =>
      simp only [if_true]
      have hclr : t.advance.clearRun = ((s.consume sample).clearRun.afterBytes bs).withAccOf t.advance.clearRun := by
        conv_lhs => rw [ht]
        rfl
      rcases endFrame_cases t.advance with ⟨cs, he⟩ | ⟨x, cs, hx, he⟩ | ⟨w, x, cs, b, hx, he, hw⟩
      · have := PixelEnds.completed (sample := sample) (s := s) (bs ++ cs) hl
        rw [← afterBytes_append] at this
        rw [he, Flow.close_going, hclr]
        exact this
      · rw [he, Flow.close_aborted]
        rcases hx with rfl | rfl
        · have : (t.advance.afterBytes cs).drawAnswer.abort .sink
              = ((s.consume sample).afterBytes (bs ++ cs)).drawAnswer.abort .sink := by
            rw [← afterBytes_append, ht]; rfl
          rw [this]
          exact .aborted _ _ (.sample hl)
        · have : (t.advance.clearRun.afterBytes cs).drawAnswer.abort .sink
              = ((s.consume sample).clearRun.afterBytes (bs ++ cs)).drawAnswer.abort .sink := by
            rw [← afterBytes_append, hclr]; rfl
          rw [this]
          exact .aborted _ _ (.closing hl)
      · rw [he, Flow.close_waiting]
        rcases hx with rfl | rfl
        · refine .waiting w _ (bs ++ cs) b (.sample hl) ?_
          rw [← afterBytes_append]
          conv_lhs => rw [hw, ht]
          rfl
        · refine .waiting w _ (bs ++ cs) b (.closing hl) ?_
          rw [← afterBytes_append]
          conv_lhs => rw [hw, hclr]
          rfl
  · rw [hc, Flow.andThen_aborted, Flow.close_aborted]
    exact .aborted s bs .none
  · rw [hc, Flow.andThen_waiting, Flow.close_waiting]
    exact .waiting t s bs b .none ht

/-! ## The other commands -/

/-- Everything PUT_BITS can do (spec/41 R110). -/
theorem execPutBits_cases (n v : Nat) (s : State) :
    (s.phase.acceptsBypass = false ∧ execPutBits n v s = .next (s.reject .rejState)) ∨
    (s.phase.acceptsBypass = true ∧ s.params.accWidth < n ∧ execPutBits n v s = .next (s.reject .rejOperand)) ∨
    (s.phase.acceptsBypass = true ∧ n ≤ s.params.accWidth ∧
      execPutBits n v s = .next (putBits n v s).close ∧ Ends s (putBits n v s).close) := by
  unfold execPutBits
  cases hp : s.phase.acceptsBypass with
  | false => exact .inl ⟨rfl, by simp⟩
  | true =>
    by_cases hn : s.params.accWidth < n
    · exact .inr (.inl ⟨rfl, hn, by simp [hn]⟩)
    · exact .inr (.inr ⟨rfl, by omega, by simp [hn], (putBits_emits n v s).close⟩)

/-- Everything FLUSH can do (spec/41 R111). -/
theorem execFlush_cases (s : State) :
    (s.phase.acceptsBypass = false ∧ execFlush s = .next (s.reject .rejState)) ∨
    (s.phase.acceptsBypass = true ∧ execFlush s = .next (flushBits s).close ∧ Ends s (flushBits s).close) := by
  unfold execFlush
  cases hp : s.phase.acceptsBypass with
  | false => exact .inl ⟨rfl, by simp⟩
  | true => exact .inr ⟨rfl, by simp, (flushBits_emits s).close⟩

/-- Everything ENC_DELTA can do (spec/42 R140). -/
theorem execEncDelta_cases (d : Int) (s : State) :
    (s.phase.acceptsBypass = false ∧ execEncDelta d s = .next (s.reject .rejState)) ∨
    (s.phase.acceptsBypass = true ∧ deltaOverflow d = true ∧ execEncDelta d s = .next (s.reject .rejOverflow)) ∨
    (s.phase.acceptsBypass = true ∧ deltaOverflow d = false ∧
      execEncDelta d s = .next (encDelta d s).close ∧ Ends s (encDelta d s).close) := by
  unfold execEncDelta
  cases hp : s.phase.acceptsBypass with
  | false => exact .inl ⟨rfl, by simp⟩
  | true =>
    cases ho : deltaOverflow d with
    | true => exact .inr (.inl ⟨rfl, rfl, by simp⟩)
    | false => exact .inr (.inr ⟨rfl, rfl, by simp, (encDelta_emits d s).close⟩)

/-- Everything ENC_RUN can do (spec/42 R141). -/
theorem execEncRun_cases (r : Nat) (s : State) :
    (s.phase.acceptsBypass = false ∧ execEncRun r s = .next (s.reject .rejState)) ∨
    (s.phase.acceptsBypass = true ∧ runOverflow s.params r = true ∧
      execEncRun r s = .next (s.reject .rejOverflow)) ∨
    (s.phase.acceptsBypass = true ∧ runOverflow s.params r = false ∧
      execEncRun r s = .next (encRun r s).close ∧ Ends s (encRun r s).close) := by
  unfold execEncRun
  cases hp : s.phase.acceptsBypass with
  | false => exact .inl ⟨rfl, by simp⟩
  | true =>
    cases ho : runOverflow s.params r with
    | true => exact .inr (.inl ⟨rfl, rfl, by simp⟩)
    | false => exact .inr (.inr ⟨rfl, rfl, by simp, (encRun_emits r s).close⟩)

/-- Everything CONFIG can do (spec/43 R160). -/
theorem execConfig_cases (w h : Nat) (s : State) :
    (s.phase.acceptsBypass = false ∧ execConfig w h s = .next (s.reject .rejState)) ∨
    (s.phase.acceptsBypass = true ∧ (w = 0 ∨ h = 0) ∧ execConfig w h s = .next (s.reject .rejOperand)) ∨
    (s.phase.acceptsBypass = true ∧ w ≠ 0 ∧ h ≠ 0 ∧ s.accEmpty = false ∧
      execConfig w h s = .next (s.reject .rejPending)) ∨
    (s.phase.acceptsBypass = true ∧ w ≠ 0 ∧ h ≠ 0 ∧ s.accEmpty = true ∧
      execConfig w h s = .next ((s.construct w h).respond .ok)) := by
  unfold execConfig
  cases hp : s.phase.acceptsBypass with
  | false => exact .inl ⟨rfl, by simp⟩
  | true =>
    by_cases hz : w = 0 ∨ h = 0
    · exact .inr (.inl ⟨rfl, hz, by simp [hz]⟩)
    · rw [not_or] at hz
      cases he : s.accEmpty with
      | false => exact .inr (.inr (.inl ⟨rfl, hz.1, hz.2, rfl, by simp [hz]⟩))
      | true => exact .inr (.inr (.inr ⟨rfl, hz.1, hz.2, rfl, by simp [hz]⟩))

/-- Everything FRAME_START can do (spec/43 R162). -/
theorem execFrameStart_cases (w h : Nat) (s : State) :
    (s.phase ≠ .idle ∧ execFrameStart w h s = .next (s.reject .rejState)) ∨
    (s.phase = .idle ∧ (w ≠ s.cfgW.toNat ∨ h ≠ s.cfgH.toNat) ∧
      execFrameStart w h s = .next (s.reject .rejMismatch)) ∨
    (s.phase = .idle ∧ w = s.cfgW.toNat ∧ h = s.cfgH.toNat ∧ s.accEmpty = false ∧
      execFrameStart w h s = .next (s.reject .rejPending)) ∨
    (s.phase = .idle ∧ w = s.cfgW.toNat ∧ h = s.cfgH.toNat ∧ s.accEmpty = true ∧
      execFrameStart w h s = .next (s.beginFrame.respond .ok)) := by
  unfold execFrameStart
  by_cases hp : s.phase = .idle
  swap
  · exact .inl ⟨hp, by rw [if_pos hp]⟩
  by_cases hm : w ≠ s.cfgW.toNat ∨ h ≠ s.cfgH.toNat
  · exact .inr (.inl ⟨hp, hm, by rw [if_neg (by simp [hp]), if_pos hm]⟩)
  · have hm' := hm
    rw [not_or, not_not, not_not] at hm'
    cases he : s.accEmpty with
    | false => exact .inr (.inr (.inl ⟨hp, hm'.1, hm'.2, rfl, by rw [if_neg (by simp [hp]), if_neg hm]; simp⟩))
    | true => exact .inr (.inr (.inr ⟨hp, hm'.1, hm'.2, rfl, by rw [if_neg (by simp [hp]), if_neg hm]; simp⟩))

end Sys2Proof.Machine
end

