-- ==== Sys2Proof/Laws/Encoding.lean ====
section
/-! SUPPORT. The fields of a command word and the words of the four formats, in the arithmetic of the word's value
(spec/30 R81 to R85). -/

namespace Sys2Proof

open Sys2Proof.Machine

/-- A field is a quotient and a remainder of the word's value (spec/00 R9). -/
theorem zextField_eq (w : Word) (hi lo : Nat) : zextField w hi lo = w.toNat / 2 ^ lo % 2 ^ (hi - lo + 1) := by
  simp [zextField, BitVec.extractLsb, BitVec.extractLsb', Nat.shiftRight_eq_div_pow]

/-- The low 32 bits as two's complement (spec/00 R9). -/
theorem sext32Field_eq (w : Word) :
    sext32Field w =
      if w.toNat % 2 ^ 32 < 2 ^ 31 then ((w.toNat % 2 ^ 32 : Nat) : Int)
      else ((w.toNat % 2 ^ 32 : Nat) : Int) - 2 ^ 32 := by
  have e : (w.extractLsb 31 0).toNat = w.toNat % 2 ^ 32 := by simp [BitVec.extractLsb, BitVec.extractLsb']
  unfold sext32Field
  rw [BitVec.toInt_eq_toNat_cond, e]
  have hlt : w.toNat % 2 ^ 32 < 2 ^ 32 := Nat.mod_lt _ (by norm_num)
  generalize w.toNat % 2 ^ 32 = m at *
  simp only [show 31 - 0 + 1 = 32 from rfl]
  split <;> split <;> first | rfl | omega

theorem toNat_append_eq {a b : Nat} (x : BitVec a) (y : BitVec b) :
    (x ++ y).toNat = x.toNat * 2 ^ b + y.toNat := by
  rw [BitVec.toNat_append, ← Nat.shiftLeft_add_eq_or_of_lt y.isLt, Nat.shiftLeft_eq]

theorem formatN_toNat (op : BitVec 4) : (formatN op).toNat = op.toNat * 2 ^ 60 := by
  show (op ++ 0#60).toNat = _
  rw [toNat_append_eq, BitVec.toNat_zero, Nat.add_zero]

theorem formatD_toNat (op : BitVec 4) (w h : BitVec 16) :
    (formatD op w h).toNat = op.toNat * 2 ^ 60 + w.toNat * 2 ^ 16 + h.toNat := by
  show (op ++ 0#28 ++ w ++ h).toNat = _
  rw [toNat_append_eq, toNat_append_eq, toNat_append_eq, BitVec.toNat_zero]; omega

theorem formatS_toNat (op : BitVec 4) (a : BitVec 32) : (formatS op a).toNat = op.toNat * 2 ^ 60 + a.toNat := by
  show (op ++ 0#28 ++ a).toNat = _
  rw [toNat_append_eq, toNat_append_eq, BitVec.toNat_zero]; omega

theorem formatB_toNat (op : BitVec 4) (n : BitVec 6) (v : BitVec 32) :
    (formatB op n v).toNat = op.toNat * 2 ^ 60 + n.toNat * 2 ^ 32 + v.toNat := by
  show (op ++ 0#22 ++ n ++ v).toNat = _
  rw [toNat_append_eq, toNat_append_eq, toNat_append_eq, BitVec.toNat_zero]; omega

end Sys2Proof
end

