-- ==== Sys2Proof/Laws/Huffman.lean ====
section
/-! SUPPORT. What EmitCode, EncDelta and EncRun can come to: the insertion of the symbol's bits (spec/42 R131, R134,
R137); and that a symbol's bits determine it (spec/42 R139). -/

namespace Sys2Proof.Machine

/-- A codeword is at most 32 bits and fits the accumulator (spec/42 R131). -/
theorem entry_len_le (e : Entry) (p : Params) : e.len.toNat ≤ p.accWidth :=
  le_trans e.legal.2.1 p.accWidth_ge

theorem length_codeword (e : Entry) : (codeword e).length = e.len.toNat := length_bitsN _ _

/-- EmitCode inserts the codeword (spec/42 R131). -/
theorem emitCode_emission (e : Entry) {s : State} (h : AccOk s) : Emission (codeword e) s (emitCode e s) :=
  putBits_emission h (entry_len_le e s.params)

/-- EncDelta inserts the symbol's bits (spec/42 R134), if there is no delta overflow. -/
theorem encDelta_emission {d : Int} {s : State} (h : AccOk s) (hd : deltaCat d ≤ 31) :
    Emission (deltaBits s.params d) s (encDelta d s) := by
  unfold deltaBits encDelta
  refine (emitCode_emission _ h).andThen fun t ht => ?_
  split
  · exact putBits_emission ht.accOk (by have := t.params.accWidth_ge; omega)
  · next hk =>
    have h0 : deltaCat d = 0 := by omega
    rw [h0]
    exact .nil ht.accOk

/-- EncRun inserts the symbol's bits (spec/42 R137). -/
theorem encRun_emission {r : Nat} {s : State} (h : AccOk s) : Emission (runBits s.params r) s (encRun r s) := by
  unfold runBits encRun runCat
  split
  · rw [List.append_nil]; exact emitCode_emission _ h
  · refine (emitCode_emission _ h).andThen fun t ht => ?_
    rw [ht.params.symm]
    exact putBits_emission ht.accOk t.params.runEscBits_le

/-- Of two codewords of a prefix-free codebook that begin one stream, both are the same entry (spec/42 R139). -/
theorem codeword_unique {n : Nat} {cb : Vector Entry n} (hp : prefixFree n cb) {i j : Fin n} {x y : List Bool}
    (h : codeword (cb.get i) ++ x = codeword (cb.get j) ++ y) : i = j ∧ x = y := by
  have hij : i = j := by
    by_contra hne
    rcases List.append_eq_append_iff.mp h with ⟨a, ha, -⟩ | ⟨a, ha, -⟩
    · exact hp i j hne ⟨a, ha.symm⟩
    · exact hp j i (Ne.symm hne) ⟨a, ha.symm⟩
  subst hij
  exact ⟨rfl, List.append_cancel_left h⟩

theorem bitsN_append_inj {n v w : Nat} {x y : List Bool} (h : bitsN n v ++ x = bitsN n w ++ y) :
    v % 2 ^ n = w % 2 ^ n ∧ x = y := by
  obtain ⟨h1, h2⟩ := List.append_inj h (by simp)
  exact ⟨bitsN_inj h1, h2⟩

end Sys2Proof.Machine
end

