-- ==== Sys2Proof/Laws/Frame.lean ====
section
/-! SUPPORT. What a PIXEL can come to in a state that meets the invariants: its own bits (`consumeSample_*`), and the
end of a frame (`endFrame_*`), with the point at which a byte that is not answered OK ends it (spec/43 R164, R166,
spec/60 R210). -/

namespace Sys2Proof.Machine

/-! ## Insertions and the run state -/

/-- The run state and LAST_RESP play no part in an insertion. -/
theorem Appends.withRun {bits : List Bool} {s t : State} (h : Appends bits s t) (a : BitVec 32) (b : BitVec 31)
    (c : BitVec 32) (r : Resp) :
    Appends bits { s with runLen := a, prev := b, pixIdx := c, lastResp := r }
      { t with runLen := a, prev := b, pixIdx := c, lastResp := r } := by
  obtain ⟨bs, hl, ht⟩ := h.rest
  refine ⟨h.accOk, h.stream, h.pending, bs, hl, ?_⟩
  conv_lhs => rw [ht]
  rfl

theorem Appends.withRun' {bits : List Bool} {s t : State} (h : Appends bits s t) (a : BitVec 32) (b : BitVec 31)
    (c : BitVec 32) (r : Resp) {s' t' : State} (hs : s' = { s with runLen := a, prev := b, pixIdx := c, lastResp := r })
    (ht : t' = { t with runLen := a, prev := b, pixIdx := c, lastResp := r }) : Appends bits s' t' := by
  rw [hs, ht]; exact h.withRun a b c r

theorem Appends.clearRun {bits : List Bool} {s t : State} (h : Appends bits s t) :
    Appends bits s.clearRun t.clearRun := by
  obtain ⟨bs, hl, ht⟩ := h.rest
  refine ⟨h.accOk, h.stream, h.pending, bs, hl, ?_⟩
  conv_lhs => rw [ht]
  rfl

theorem Appends.respond {bits : List Bool} {s t : State} (h : Appends bits s t) (r : Resp) :
    Appends bits (s.respond r) (t.respond r) := by
  obtain ⟨bs, hl, ht⟩ := h.rest
  refine ⟨h.accOk, h.stream, h.pending, bs, hl, ?_⟩
  conv_lhs => rw [ht]
  rfl

/-! ## Stops after an insertion -/

/-- A longer continuation changes nothing before the stop. -/
theorem AbortsAfter.extend {k : Nat} {b₁ b₂ : List Bool} {s t : State} (h : AbortsAfter k b₁ s t)
    (hk : 8 * k ≤ b₁.length) : AbortsAfter k (b₁ ++ b₂) s t := by
  obtain ⟨bs, hl, hb, ht⟩ := h
  exact ⟨bs, hl, by rw [List.take_append_of_le_length hk]; exact hb, ht⟩

theorem WaitsAfter.extend {k : Nat} {b₁ b₂ : List Bool} {s t : State} (h : WaitsAfter k b₁ s t)
    (hk : 8 * (k + 1) ≤ b₁.length) : WaitsAfter k (b₁ ++ b₂) s t := by
  obtain ⟨ha, bs, b, hl, hb, ht⟩ := h
  exact ⟨ha, bs, b, hl, by rw [List.take_append_of_le_length hk]; exact hb, ht⟩

/-- An abort after an insertion that went through. -/
theorem AbortsAfter.after {k : Nat} {b₁ b₂ : List Bool} {s u t : State} (h₁ : Appends b₁ s u)
    (h : AbortsAfter k (u.pendingBits ++ b₂) u t) :
    AbortsAfter (appendedBytes b₁ s + k) (s.pendingBits ++ (b₁ ++ b₂)) s t := by
  obtain ⟨xs, hxl, hxt, hxb⟩ := h₁.sink_eq
  obtain ⟨ys, hyl, hyb, ht⟩ := h
  refine ⟨xs ++ ys, by simp [hxl, hyl], ?_, ?_⟩
  · rw [bytesBits_append, hyb, ← List.append_assoc, ← hxb, List.append_assoc,
      show 8 * (appendedBytes b₁ s + k) = (bytesBits xs).length + 8 * k by rw [length_bytesBits]; omega,
      List.take_length_add_append]
  · rw [ht, ← afterBytes_append]
    conv_lhs => rw [hxt]
    rfl

/-- A wait after an insertion that went through. -/
theorem WaitsAfter.after {k : Nat} {b₁ b₂ : List Bool} {s u t : State} (h₁ : Appends b₁ s u)
    (h : WaitsAfter k (u.pendingBits ++ b₂) u t) :
    WaitsAfter (appendedBytes b₁ s + k) (s.pendingBits ++ (b₁ ++ b₂)) s t := by
  obtain ⟨xs, hxl, hxt, hxb⟩ := h₁.sink_eq
  obtain ⟨hacc, ys, b, hyl, hyb, ht⟩ := h
  refine ⟨hacc, xs ++ ys, b, by simp [hxl, hyl], ?_, ?_⟩
  · rw [List.append_assoc, bytesBits_append, hyb, ← List.append_assoc, ← hxb, List.append_assoc,
      show 8 * (appendedBytes b₁ s + k + 1) = (bytesBits xs).length + 8 * (k + 1) by
        rw [length_bytesBits]; omega,
      List.take_length_add_append]
  · rw [← afterBytes_append]
    conv_lhs => rw [ht, hxt]
    rfl

/-! ## A PIXEL's own bits -/

/-- A delta between two 31-bit numbers has a category (spec/42 R135). -/
theorem deltaCat_sub_le {x y : Nat} (hx : x < 2 ^ 31) (hy : y < 2 ^ 31) : deltaCat ((x : Int) - y) ≤ 31 := by
  rw [deltaCat_le_iff]; omega

/-- The run before a valid sample and its delta, inserted. -/
theorem validSample_emission {sample : Nat} {s : State} (h : AccOk s) (hs : sample < 2 ^ 31) :
    Emission (runBits s.params s.runLen.toNat ++ deltaBits s.params ((sample : Int) - s.prev.toNat)) s
      ((encRun s.runLen.toNat s).andThen fun t => encDelta ((sample : Int) - t.prev.toNat) t) := by
  refine (encRun_emission h).andThen fun t ht => ?_
  rw [← ht.params, ← ht.prev]
  exact encDelta_emission ht.accOk (deltaCat_sub_le hs t.prev.isLt)

theorem pixelBits_valid {sample : Nat} {s : State} (h : validSample s.params sample = true) :
    pixelBits sample s = runBits s.params s.runLen.toNat ++ deltaBits s.params ((sample : Int) - s.prev.toNat) := by
  unfold pixelBits; rw [if_neg (validSample_eq_true.mp h)]

theorem pixelBits_invalid {sample : Nat} {s : State} (h : ¬ validSample s.params sample = true) :
    pixelBits sample s = [] := by
  unfold pixelBits; rw [if_pos]; simpa [validSample] using h

/-- The sample's bits go through. -/
theorem consumeSample_ok {sample : Nat} {s : State} (h : AccOk s) (hs : sample < 2 ^ 31)
    (hok : AnswersOk (appendedBytes (pixelBits sample s) s) s) :
    ∃ t, consumeSample sample s = .going t ∧ Appends (pixelBits sample s) (s.consume sample) t.advance := by
  rw [consume_eq]
  unfold consumeSample
  by_cases hv : validSample s.params sample = true
  · rw [if_pos hv, if_pos hv]
    rw [pixelBits_valid hv] at hok ⊢
    obtain ⟨t, ht, ha⟩ := (validSample_emission h hs).ok hok
    refine ⟨t.setBaseline sample, ?_, ?_⟩
    · rw [← Flow.andThen_assoc, ht, Flow.andThen_going]
    · obtain ⟨bs, hl, hb⟩ := ha.rest
      refine ⟨ha.accOk, ha.stream, ha.pending, bs, hl, ?_⟩
      conv_lhs => rw [hb]
      rfl
  · rw [if_neg hv, if_neg hv]
    rw [pixelBits_invalid hv]
    exact ⟨s.extendRun, rfl, .nil (h.congr rfl rfl rfl)⟩

theorem consumeSample_err {sample k : Nat} {s : State} (h : AccOk s) (hs : sample < 2 ^ 31)
    (hk : k < appendedBytes (pixelBits sample s) s) (hok : AnswersOk k s) (he : s.answerAt k = .err) :
    ∃ t, consumeSample sample s = .aborted t ∧ AbortsAfter k (s.pendingBits ++ pixelBits sample s) s t := by
  unfold consumeSample
  by_cases hv : validSample s.params sample = true
  · rw [if_pos hv]
    rw [pixelBits_valid hv] at hk ⊢
    obtain ⟨t, ht, ha⟩ := (validSample_emission h hs).err k hk hok he
    exact ⟨t, by rw [← Flow.andThen_assoc, ht, Flow.andThen_aborted], ha⟩
  · rw [pixelBits_invalid hv] at hk
    have h0 : appendedBytes [] s = 0 := by
      unfold appendedBytes; exact lazyBytes_of_le (by unfold State.occ; simp)
    omega

theorem consumeSample_never {sample k : Nat} {s : State} (h : AccOk s) (hs : sample < 2 ^ 31)
    (hk : k < appendedBytes (pixelBits sample s) s) (hok : AnswersOk k s) (he : s.answerAt k = .never) :
    ∃ t, consumeSample sample s = .waiting t ∧ WaitsAfter k (s.pendingBits ++ pixelBits sample s) s t := by
  unfold consumeSample
  by_cases hv : validSample s.params sample = true
  · rw [if_pos hv]
    rw [pixelBits_valid hv] at hk ⊢
    obtain ⟨t, ht, ha⟩ := (validSample_emission h hs).never k hk hok he
    exact ⟨t, by rw [← Flow.andThen_assoc, ht, Flow.andThen_waiting], ha⟩
  · rw [pixelBits_invalid hv] at hk
    have h0 : appendedBytes [] s = 0 := by
      unfold appendedBytes; exact lazyBytes_of_le (by unfold State.occ; simp)
    omega

/-! ## The end of a frame -/

/-- The bytes of an insertion and a flush: those that leave in the insertion, and those of the flush. -/
theorem flushedBytes_eq {bits : List Bool} {s t : State} (h : Appends bits s t) :
    flushedBytes bits s = appendedBytes bits s + (t.occ + 7) / 8 := by
  unfold flushedBytes appendedBytes
  have h1 := eight_mul_lazyBytes s.params.accWidth_mod (s.occ + bits.length)
  have h2 := lazyPending_le_self s.params.accWidth (s.occ + bits.length)
  rw [h.pending]
  omega

/-- The number of bits before a flush and of those pending agree modulo 8. -/
theorem padding_of_appends {bits : List Bool} {s t : State} (h : Appends bits s t) :
    padding t.occ = padding (s.pendingBits ++ bits).length := by
  have h1 := eight_mul_lazyBytes s.params.accWidth_mod (s.occ + bits.length)
  have h2 := lazyPending_le_self s.params.accWidth (s.occ + bits.length)
  rw [h.pending, List.length_append, length_pendingBits]
  unfold padding
  congr 2
  omega

theorem appendedBytes_le_flushedBytes (bits : List Bool) (s : State) :
    appendedBytes bits s ≤ flushedBytes bits s := by
  have h := eight_mul_appendedBytes_le bits s
  rw [List.length_append, length_pendingBits] at h
  unfold flushedBytes
  omega

/-- An insertion that went through, then a flush that does. -/
theorem flush_after_ok {bits : List Bool} {s u : State} (h : Appends bits s u)
    (hok : AnswersOk (flushedBytes bits s) s) :
    ∃ bs : List Byte, bs.length = flushedBytes bits s ∧
      bytesBits bs = s.pendingBits ++ bits ++ padding (s.pendingBits ++ bits).length ∧
      flushBits u = .going (s.afterBytes bs).emptyAcc := by
  have hb := flushedBytes_eq h
  obtain ⟨xs, hxl, hxt, hxb⟩ := h.sink_eq
  obtain ⟨t, ht, hf⟩ := flushBits_ok h.accOk fun j hj => by rw [h.answers]; exact hok _ (by omega)
  obtain ⟨ys, hyl, hyt⟩ := hf.rest
  refine ⟨xs ++ ys, by simp [hxl, hyl, hb], ?_, ?_⟩
  · have h3 := hf.bits
    have h4 : t.sink = u.sink ++ ys := by rw [hyt]; rfl
    rw [h4, State.stream, bytesBits_append, List.append_assoc] at h3
    rw [bytesBits_append, List.append_cancel_left h3, ← List.append_assoc, hxb, padding_of_appends h]
  · rw [ht, hyt, ← afterBytes_append]
    conv_lhs => rw [hxt]
    rfl

theorem flush_after_err {bits : List Bool} {s u : State} {k : Nat} (h : Appends bits s u)
    (hlo : appendedBytes bits s ≤ k) (hhi : k < flushedBytes bits s) (hok : AnswersOk k s)
    (he : s.answerAt k = .err) :
    ∃ t, flushBits u = .aborted t ∧
      AbortsAfter k (s.pendingBits ++ bits ++ padding (s.pendingBits ++ bits).length) s t := by
  have hb := flushedBytes_eq h
  obtain ⟨t, ht, ha⟩ := flushBits_err (k := k - appendedBytes bits s) h.accOk (by omega)
    (fun j hj => by rw [h.answers]; exact hok _ (by omega)) (by rw [h.answers, Nat.add_sub_cancel' hlo]; exact he)
  refine ⟨t, ht, ?_⟩
  have := AbortsAfter.after h ha
  rwa [Nat.add_sub_cancel' hlo, padding_of_appends h, ← List.append_assoc] at this

theorem flush_after_never {bits : List Bool} {s u : State} {k : Nat} (h : Appends bits s u)
    (hlo : appendedBytes bits s ≤ k) (hhi : k < flushedBytes bits s) (hok : AnswersOk k s)
    (he : s.answerAt k = .never) :
    ∃ t, flushBits u = .waiting t ∧
      WaitsAfter k (s.pendingBits ++ bits ++ padding (s.pendingBits ++ bits).length) s t := by
  have hb := flushedBytes_eq h
  obtain ⟨t, ht, ha⟩ := flushBits_never (k := k - appendedBytes bits s) h.accOk (by omega)
    (fun j hj => by rw [h.answers]; exact hok _ (by omega)) (by rw [h.answers, Nat.add_sub_cancel' hlo]; exact he)
  refine ⟨t, ht, ?_⟩
  have := WaitsAfter.after h ha
  rwa [Nat.add_sub_cancel' hlo, padding_of_appends h, ← List.append_assoc] at this

/-- The answers an operation sees depend on the environment's fields alone. -/
theorem answersOk_congr {n : Nat} {s t : State} (h : AnswersOk n s) (h1 : t.sinkAnswers = s.sinkAnswers)
    (h2 : t.draws = s.draws) : AnswersOk n t := fun j hj => by
  rw [answerAt_congr h1 h2]; exact h j hj

/-! ## A whole PIXEL -/

/-- The overflow condition of a PIXEL is the one its meaning tests (spec/43 R164). -/
theorem overflows_pixel (x : Nat) (s : State) : overflows (.pixel x) s = pixelOverflow x s := by
  unfold overflows pixelOverflow State.atLast
  by_cases h : x = s.params.invalidMarker
  · simp [h, validSample]; rfl
  · simp [h, validSample]

theorem atLast_iff (s : State) : s.atLast = true ↔ s.pixIdx.toNat + 1 = s.length := by simp [State.atLast]

/-- A PIXEL past its checks (spec/43 R164). -/
theorem exec_pixel_body {x : Nat} {s : State} (hp : s.phase = .frame) (hx : x < 2 ^ s.params.sampleBits)
    (ho : pixelOverflow x s = false) :
    exec (.pixel x) s = .next ((consumeSample x s).andThen fun t =>
        if s.atLast then endFrame t.advance else .going t.advance).close := by
  show execPixel _ _ = _
  unfold execPixel
  rw [if_neg (by simp [hp]), if_neg (by omega), if_neg (by simp [ho])]

/-- RUN_LEN and PIX_IDX stay below 2^32 − 1 (spec/10 R24). -/
theorem StateInv.runLen_lt {s : State} (h : StateInv s) (hp : s.phase = .frame) :
    s.runLen.toNat + 1 < 2 ^ 32 ∧ s.runLen.toNat ≤ s.pixIdx.toNat ∧ s.length < 2 ^ 32 := by
  have := h.frame_pos hp
  have h1 := s.cfgW.isLt; have h2 := s.cfgH.isLt
  have : s.length < 2 ^ 32 - 1 := by
    unfold State.length
    calc s.cfgW.toNat * s.cfgH.toNat ≤ (2 ^ 16 - 1) * (2 ^ 16 - 1) := by apply Nat.mul_le_mul <;> omega
      _ < 2 ^ 32 - 1 := by norm_num
  omega

/-- A sample fits 31 bits (spec/00 R6). -/
theorem sample_lt {x : Nat} {p : Params} (hx : x < 2 ^ p.sampleBits) : x < 2 ^ 31 :=
  lt_of_lt_of_le hx (Nat.pow_le_pow_right (by norm_num) p.sampleBits_le)

/-- The closing run is the RUN_LEN that the PIXEL's own write left (spec/43 R166). -/
theorem closingBits_eq {x : Nat} {s : State} (hI : StateInv s) (hp : s.phase = .frame) :
    closingBits x s = runBits s.params (s.consume x).runLen.toNat := by
  have := hI.runLen_lt hp
  unfold closingBits State.consume
  by_cases h : x = s.params.invalidMarker
  · rw [if_pos h, if_pos h]
    congr 1
    show _ = (s.runLen + 1).toNat
    rw [BitVec.toNat_add]; show _ = (_ + 1) % _; omega
  · rw [if_neg h, if_neg h]; rfl

theorem consume_answers (x : Nat) (s : State) (j : Nat) : (s.consume x).answerAt j = s.answerAt j :=
  answerAt_congr (by rw [consume_frame]) (by rw [consume_frame]) j

theorem consume_pending (x : Nat) (s : State) : (s.consume x).pendingBits = s.pendingBits := by
  rw [consume_frame]; rfl

theorem consume_occ (x : Nat) (s : State) : (s.consume x).occ = s.occ := by
  rw [consume_frame]; rfl

theorem consume_params (x : Nat) (s : State) : (s.consume x).params = s.params := by
  rw [consume_frame]

theorem appendedBytes_consume (b : List Bool) (x : Nat) (s : State) :
    appendedBytes b (s.consume x) = appendedBytes b s := by
  unfold appendedBytes; rw [consume_params, consume_occ]

theorem flushedBytes_consume (b : List Bool) (x : Nat) (s : State) :
    flushedBytes b (s.consume x) = flushedBytes b s := by
  unfold flushedBytes; rw [consume_occ]

theorem appendedBytes_le_append (a b : List Bool) (s : State) :
    appendedBytes a s ≤ appendedBytes (a ++ b) s := by
  unfold appendedBytes
  have := lazyBytes_add s.params.accWidth_mod (s.occ + a.length) b.length
  rw [List.length_append, ← Nat.add_assoc]; omega

theorem passes_pixel {x : Nat} {s : State} (h : Passes (.pixel x) s) :
    s.phase = .frame ∧ x < 2 ^ s.params.sampleBits ∧ pixelOverflow x s = false := by
  obtain ⟨h1, h2, -, -, h3⟩ := h
  rw [overflows_pixel] at h3
  refine ⟨by simpa [legalIn] using h1, by simpa [badOperand] using h2, h3⟩

/-- The closing run, inserted. -/
theorem closing_emission {x : Nat} {s u : State} (hI : StateInv s) (hp : s.phase = .frame)
    (h : Appends (pixelBits x s) (s.consume x) u) : Emission (closingBits x s) u (encRun u.runLen.toNat u) := by
  rw [closingBits_eq hI hp, ← h.runLen, ← consume_params x s, ← h.params]
  exact encRun_emission h.accOk

end Sys2Proof.Machine
end

