-- ==== Sys2Proof/Laws/Step.lean ====
section
/-! SUPPORT. What a step can do, said once (`step_cases`), what a command can do, said once (`exec_ends`), and runs
of several steps. -/

namespace Sys2Proof.Machine

/-! ## Steps -/

theorem step_reset {s : State} (h : s.resetLine = true) : step s = .next s.takeReset := by
  simp [step, State.poll, h]

theorem step_waiting {s : State} {b : Byte} (hr : s.resetLine = false) (hi : s.inFlight = some b) :
    step s = .next s := by
  simp [step, State.poll, hr, hi]

theorem step_idle {s : State} (hr : s.resetLine = false) (hp : s.port = []) : step s = .next s := by
  have : s.poll = .hold := by
    simp only [State.poll, hr, hp]; cases s.inFlight <;> rfl
  unfold step; rw [this]

theorem step_word {s : State} {w : Word} {rest : List Word} (hr : s.resetLine = false) (hi : s.inFlight = none)
    (hp : s.port = w :: rest) : step s = runWord w (s.takeWord rest) := by
  have : s.poll = .word w rest := by simp [State.poll, hr, hi, hp]
  unfold step; rw [this]

/-- Everything a step can do. -/
theorem step_cases {s t : State} (h : step s = .next t) :
    (s.resetLine = true ∧ t = s.takeReset) ∨
    (s.resetLine = false ∧ t = s ∧ (s.inFlight ≠ none ∨ s.port = [])) ∨
    (s.resetLine = false ∧ s.inFlight = none ∧ ∃ w rest, s.port = w :: rest ∧
      runWord w (s.takeWord rest) = .next t) := by
  cases hr : s.resetLine with
  | true => rw [step_reset hr] at h; cases h; exact .inl ⟨rfl, rfl⟩
  | false =>
    cases hi : s.inFlight with
    | some b => rw [step_waiting hr hi] at h; cases h; exact .inr (.inl ⟨rfl, rfl, .inl (by simp)⟩)
    | none =>
      cases hp : s.port with
      | nil => rw [step_idle hr hp] at h; cases h; exact .inr (.inl ⟨rfl, rfl, .inr rfl⟩)
      | cons w rest => rw [step_word hr hi hp] at h; exact .inr (.inr ⟨rfl, rfl, w, rest, rfl, h⟩)

theorem runWord_instr {w : Word} {i : Instr} (h : decode w = .instr i) (s : State) : runWord w s = exec i s := by
  unfold runWord; rw [h]

theorem runWord_reserved {w : Word} {why : ReservedReason} (h : decode w = .reserved why) (s : State) :
    runWord w s = .next (s.reject .rejReserved) := by
  unfold runWord; rw [h]

/-- Everything the running of a word can do. -/
theorem runWord_cases {w : Word} {s t : State} (h : runWord w s = .next t) :
    (∃ why, decode w = .reserved why ∧ t = s.reject .rejReserved) ∨ ∃ i, decode w = .instr i ∧ exec i s = .next t := by
  cases hd : decode w with
  | instr i => rw [runWord_instr hd] at h; exact .inr ⟨i, rfl, h⟩
  | reserved why => rw [runWord_reserved hd] at h; cases h; exact .inl ⟨why, rfl, rfl⟩

/-! ## Runs -/

@[simp] theorem run_zero (s : State) : Host.Core.run core 0 s = .next s := rfl

theorem run_succ {s t : State} (h : step s = .next t) (n : Nat) :
    Host.Core.run core (n + 1) s = Host.Core.run core n t := by
  have h' : core.step s = .next t := h
  simp only [Host.Core.run, h']

/-- A run of `m + n` steps is one of `m`, then one of `n`. -/
theorem run_add {s t : State} {m n : Nat} (h : Host.Core.run core m s = .next t) :
    Host.Core.run core (m + n) s = Host.Core.run core n t := by
  induction m generalizing s with
  | zero =>
    rw [run_zero] at h; cases h; rw [Nat.zero_add]
  | succ m ih =>
    have hs : ∃ u, step s = .next u := by
      cases hst : step s with
      | next u => exact ⟨u, rfl⟩
      | fault r => exact nomatch r
      | refused r =>
        have h' : core.step s = .refused r := hst
        simp only [Host.Core.run, h'] at h
        exact absurd h (by simp)
    obtain ⟨u, hu⟩ := hs
    rw [run_succ hu] at h
    rw [show m + 1 + n = (m + n) + 1 by omega, run_succ hu]
    exact ih h

/-! ## Commands -/

/-- Everything a command can do. -/
inductive ExecEnds (s : State) : Instr → State → Prop where
  | rejected (i : Instr) (code : Resp) (h : code.isReject = true) : ExecEnds s i (s.reject code)
  | nop : ExecEnds s .nop (s.respond .ok)
  | clear : ExecEnds s .clear (s.leaveError.respond .ok)
  | config (w h : Nat) (hp : s.phase.acceptsBypass = true) (hw : w ≠ 0) (hh : h ≠ 0) (he : s.accEmpty = true) :
      ExecEnds s (.config w h) ((s.construct w h).respond .ok)
  | frameStart (w h : Nat) (hp : s.phase = .idle) (hw : w = s.cfgW.toNat) (hh : h = s.cfgH.toNat)
      (he : s.accEmpty = true) : ExecEnds s (.frameStart w h) (s.beginFrame.respond .ok)
  | bypass (i : Instr) (t : State)
      (hi : i = .flush ∨ (∃ n v, i = .putBits n v) ∨ (∃ d, i = .encDelta d) ∨ ∃ r, i = .encRun r)
      (hp : s.phase.acceptsBypass = true) (he : Ends s t) : ExecEnds s i t
  | overflow (x : Nat) (hp : s.phase = .frame) : ExecEnds s (.pixel x) (s.abort .overflow)
  | pixel (x : Nat) (t : State) (hp : s.phase = .frame) (hx : x < 2 ^ s.params.sampleBits)
      (he : PixelEnds x s t) : ExecEnds s (.pixel x) t

theorem exec_ends {i : Instr} {s t : State} (h : exec i s = .next t) : ExecEnds s i t := by
  cases i with
  | nop => cases h; exact .nop
  | clear => cases h; exact .clear
  | config w h' =>
    rcases execConfig_cases w h' s with ⟨-, e⟩ | ⟨-, -, e⟩ | ⟨-, -, -, -, e⟩ | ⟨h1, h2, h3, h4, e⟩ <;>
      (rw [exec, e] at h; cases h)
    · exact .rejected _ _ rfl
    · exact .rejected _ _ rfl
    · exact .rejected _ _ rfl
    · exact .config w h' h1 h2 h3 h4
  | frameStart w h' =>
    rcases execFrameStart_cases w h' s with ⟨-, e⟩ | ⟨-, -, e⟩ | ⟨-, -, -, -, e⟩ | ⟨h1, h2, h3, h4, e⟩ <;>
      (rw [exec, e] at h; cases h)
    · exact .rejected _ _ rfl
    · exact .rejected _ _ rfl
    · exact .rejected _ _ rfl
    · exact .frameStart w h' h1 h2 h3 h4
  | putBits n v =>
    rcases execPutBits_cases n v s with ⟨-, e⟩ | ⟨-, -, e⟩ | ⟨hp, -, e, he⟩ <;> (rw [exec, e] at h; cases h)
    · exact .rejected _ _ rfl
    · exact .rejected _ _ rfl
    · exact .bypass _ _ (.inr (.inl ⟨n, v, rfl⟩)) hp he
  | flush =>
    rcases execFlush_cases s with ⟨-, e⟩ | ⟨hp, e, he⟩ <;> (rw [exec, e] at h; cases h)
    · exact .rejected _ _ rfl
    · exact .bypass _ _ (.inl rfl) hp he
  | encDelta d =>
    rcases execEncDelta_cases d s with ⟨-, e⟩ | ⟨-, -, e⟩ | ⟨hp, -, e, he⟩ <;> (rw [exec, e] at h; cases h)
    · exact .rejected _ _ rfl
    · exact .rejected _ _ rfl
    · exact .bypass _ _ (.inr (.inr (.inl ⟨d, rfl⟩))) hp he
  | encRun r =>
    rcases execEncRun_cases r s with ⟨-, e⟩ | ⟨-, -, e⟩ | ⟨hp, -, e, he⟩ <;> (rw [exec, e] at h; cases h)
    · exact .rejected _ _ rfl
    · exact .rejected _ _ rfl
    · exact .bypass _ _ (.inr (.inr (.inr ⟨r, rfl⟩))) hp he
  | pixel x =>
    rcases execPixel_cases x s with ⟨-, e⟩ | ⟨-, -, e⟩ | ⟨hp, -, -, e⟩ | ⟨hp, hx, -, u, e, he⟩ <;>
      (rw [exec, e] at h; cases h)
    · exact .rejected _ _ rfl
    · exact .rejected _ _ rfl
    · exact .overflow x hp
    · exact .pixel x _ hp hx he

end Sys2Proof.Machine
end

