-- ==== Sys2Proof/Laws/Invariant.lean ====
section
/-! SUPPORT. What every command keeps, however it ends: the accumulator's invariant and the parameters; and the
shape of a sequence of insertions and of a frame's symbols. -/

namespace Sys2Proof.Machine

/-! ## The accumulator -/

theorem AbortsAfter.accOk {k : Nat} {bits : List Bool} {s t : State} (h : AbortsAfter k bits s t) : AccOk t := by
  obtain ⟨bs, -, -, rfl⟩ := h
  exact accOk_emptyAcc s

/-- Whatever the operation comes to, the accumulator's invariant holds. -/
def FlowOk (f : Flow) : Prop := ∀ t, (f = .going t ∨ f = .aborted t ∨ f = .waiting t) → AccOk t

theorem FlowOk.going {s : State} (h : AccOk s) : FlowOk (.going s) := by
  intro t ht
  have : s = t := by simpa using ht
  exact this ▸ h

theorem FlowOk.of_emission {bits : List Bool} {s : State} {f : Flow} (h : Emission bits s f) : FlowOk f := by
  intro t ht
  rcases h.cases with ⟨u, hu, ha⟩ | ⟨k, u, hu, ha⟩ | ⟨k, u, hu, ha⟩ <;> rw [hu] at ht
  · have : u = t := by simpa using ht
    exact this ▸ ha.accOk
  · have : u = t := by simpa using ht
    exact this ▸ ha.accOk
  · have : u = t := by simpa using ht
    exact this ▸ ha.1

theorem FlowOk.flush {s : State} (h : AccOk s) : FlowOk (flushBits s) := by
  intro t ht
  rcases flushBits_cases h with ⟨u, hu, ha⟩ | ⟨k, u, hu, ha⟩ | ⟨k, u, hu, ha⟩ <;> rw [hu] at ht
  · have : u = t := by simpa using ht
    obtain ⟨bs, -, e⟩ := ha.rest
    rw [← this, e]; exact accOk_emptyAcc s
  · have : u = t := by simpa using ht
    exact this ▸ ha.accOk
  · have : u = t := by simpa using ht
    exact this ▸ ha.1

theorem FlowOk.andThen {f : Flow} {g : State → Flow} (h : FlowOk f) (hg : ∀ t, AccOk t → FlowOk (g t)) :
    FlowOk (f.andThen g) := by
  cases f with
  | going s => exact hg s (h s (.inl rfl))
  | aborted s => exact h
  | waiting s => exact h

theorem FlowOk.close {f : Flow} (h : FlowOk f) : AccOk f.close := by
  cases f with
  | going s => exact (h s (.inl rfl)).congr rfl rfl rfl
  | aborted s => exact h s (.inr (.inl rfl))
  | waiting s => exact h s (.inr (.inr rfl))

theorem consumeSample_flowOk {x : Nat} {s : State} (h : AccOk s) (hx : x < 2 ^ 31) : FlowOk (consumeSample x s) := by
  unfold consumeSample
  split
  · rw [← Flow.andThen_assoc]
    exact (FlowOk.of_emission (validSample_emission h hx)).andThen fun t ht => .going (ht.congr rfl rfl rfl)
  · exact .going (h.congr rfl rfl rfl)

theorem endFrame_flowOk {s : State} (h : AccOk s) : FlowOk (endFrame s) := by
  unfold endFrame
  refine (FlowOk.of_emission (encRun_emission h)).andThen fun t ht => ?_
  exact (FlowOk.flush (s := t.clearRun) (ht.congr rfl rfl rfl)).andThen fun u hu => .going (hu.congr rfl rfl rfl)

/-- Every command keeps the accumulator's invariant (spec/10 R25). -/
theorem exec_accOk {i : Instr} {s t : State} (hs : AccOk s) (h : exec i s = .next t) : AccOk t := by
  have rej : ∀ c, AccOk (s.reject c) := fun c => hs.congr rfl rfl rfl
  cases i with
  | nop => cases h; exact hs.congr rfl rfl rfl
  | clear => cases h; exact (accOk_emptyAcc s).congr rfl rfl rfl
  | config w h' =>
    rcases execConfig_cases w h' s with ⟨-, e⟩ | ⟨-, -, e⟩ | ⟨-, -, -, -, e⟩ | ⟨-, -, -, -, e⟩ <;>
      (rw [exec, e] at h; cases h; exact hs.congr rfl rfl rfl)
  | frameStart w h' =>
    rcases execFrameStart_cases w h' s with ⟨-, e⟩ | ⟨-, -, e⟩ | ⟨-, -, -, -, e⟩ | ⟨-, -, -, -, e⟩ <;>
      (rw [exec, e] at h; cases h; exact hs.congr rfl rfl rfl)
  | putBits n v =>
    rcases execPutBits_cases n v s with ⟨-, e⟩ | ⟨-, -, e⟩ | ⟨-, hn, e, -⟩ <;> (rw [exec, e] at h; cases h)
    · exact rej _
    · exact rej _
    · exact (FlowOk.of_emission (putBits_emission hs hn)).close
  | flush =>
    rcases execFlush_cases s with ⟨-, e⟩ | ⟨-, e, -⟩ <;> (rw [exec, e] at h; cases h)
    · exact rej _
    · exact (FlowOk.flush hs).close
  | encDelta d =>
    rcases execEncDelta_cases d s with ⟨-, e⟩ | ⟨-, -, e⟩ | ⟨-, hn, e, -⟩ <;> (rw [exec, e] at h; cases h)
    · exact rej _
    · exact rej _
    · exact (FlowOk.of_emission (encDelta_emission hs (by simpa [deltaOverflow] using hn))).close
  | encRun r =>
    rcases execEncRun_cases r s with ⟨-, e⟩ | ⟨-, -, e⟩ | ⟨-, -, e, -⟩ <;> (rw [exec, e] at h; cases h)
    · exact rej _
    · exact rej _
    · exact (FlowOk.of_emission (encRun_emission hs)).close
  | pixel x =>
    by_cases hp : s.phase = .frame
    swap
    · simp [exec, execPixel, hp] at h; subst h; exact rej _
    by_cases hx : 2 ^ s.params.sampleBits ≤ x
    · simp [exec, execPixel, hp, hx] at h; subst h; exact rej _
    by_cases ho : pixelOverflow x s = true
    · simp [exec, execPixel, hp, hx, ho] at h; subst h; exact (accOk_emptyAcc s).congr rfl rfl rfl
    rw [exec_pixel_body hp (by omega) (by simpa using ho)] at h
    cases h
    refine FlowOk.close ((consumeSample_flowOk hs (sample_lt (p := s.params) (by omega))).andThen fun t ht => ?_)
    split
    · exact endFrame_flowOk (ht.congr rfl rfl rfl)
    · exact .going (ht.congr rfl rfl rfl)

/-! ## The parameters -/

/-- No command changes a parameter (spec/00 R6). -/
theorem exec_params {i : Instr} {s t : State} (h : exec i s = .next t) : t.params = s.params := by
  cases exec_ends h with
  | rejected i code hc => rfl
  | nop => rfl
  | clear => rfl
  | config w h' hp hw hh he => rfl
  | frameStart w h' hp hw hh he => rfl
  | bypass i t hi' hp he =>
    cases he with
    | done t bs h => rw [h]; rfl
    | aborted bs => rfl
    | waiting t bs b h => rw [h]; rfl
  | overflow x hp => rfl
  | pixel x t hp hx he =>
    cases he with
    | consumed t bs hl h => rw [h]; exact consume_params x s
    | completed bs hl => exact consume_params x s
    | aborted u bs hu => show u.params = _; rw [hu.frame]
    | waiting t u bs b hu h => rw [h]; show u.params = _; rw [hu.frame]

/-! ## Sequences -/

/-- A sequence of PutBits inserts the bit strings one after the other (spec/41 R105). -/
theorem putAll_emission {ps : List (Nat × Nat)} {s : State} (h : AccOk s)
    (hn : ∀ nv ∈ ps, nv.1 ≤ s.params.accWidth) : Emission (putAllBits ps) s (putAll ps s) := by
  induction ps generalizing s with
  | nil => exact .nil h
  | cons nv ps ih =>
    obtain ⟨n, v⟩ := nv
    show Emission (bitsN n v ++ putAllBits ps) s _
    refine (putBits_emission h (hn (n, v) (by simp))).andThen fun t ht => ?_
    exact ih ht.accOk fun nv hnv => by rw [ht.params]; exact hn nv (by simp [hnv])

/-- Invalid samples lengthen the run (spec/43 R170). -/
theorem symbolsFrom_invalid (p : Params) (run prev r : Nat) (rest : List Nat) :
    symbolsFrom p run prev (List.replicate r p.invalidMarker ++ rest) = symbolsFrom p (run + r) prev rest := by
  induction r generalizing run with
  | zero => rfl
  | succ r ih =>
    rw [List.replicate_succ, List.cons_append, symbolsFrom]
    rw [if_neg (by simp [validSample]), ih, Nat.add_right_comm, Nat.add_assoc]

end Sys2Proof.Machine
end

