-- ==== Sys2Proof/Laws/PerInstr.lean ====
section
/-! SUPPORT. A family with one lemma per command: the word of a well-formed command is in the row that the opcode
map gives the command (spec/30 R81 to R86). -/

namespace Sys2Proof.Laws.EncodeMatchesTable

open Sys2Proof

/-- The fixed bits of a command's word: OP, and the zero field of its format (spec/30 R81 to R84). -/
def mask : Instr → Word
  | .nop | .flush | .clear => 0xFFFFFFFFFFFFFFFF
  | .config _ _ | .frameStart _ _ | .pixel _ | .encDelta _ | .encRun _ => 0xFFFFFFFF00000000
  | .putBits _ _ => 0xFFFFFFC000000000

/-- What they hold: the command's opcode and zeros (spec/30 R86). -/
def pattern : Instr → Word
  | .nop => 0x0000000000000000
  | .config _ _ => 0x1000000000000000
  | .frameStart _ _ => 0x2000000000000000
  | .pixel _ => 0x3000000000000000
  | .putBits _ _ => 0x4000000000000000
  | .flush => 0x5000000000000000
  | .encDelta _ => 0x6000000000000000
  | .encRun _ => 0x7000000000000000
  | .clear => 0x8000000000000000

/-- The command's word lies in the command's row of the opcode map. -/
def Statement (i : Instr) : Prop := i.wellFormed = true → encode i &&& mask i = pattern i

theorem formatD_masked (op : BitVec 4) (w h : BitVec 16) : formatD op w h &&& 0xFFFFFFFF00000000 = op ++ 0#60 := by
  apply BitVec.eq_of_getLsbD_eq
  intro i hi
  simp only [formatD, BitVec.getLsbD_and, BitVec.getLsbD_append]
  interval_cases i <;> simp

theorem formatS_masked (op : BitVec 4) (a : BitVec 32) : formatS op a &&& 0xFFFFFFFF00000000 = op ++ 0#60 := by
  apply BitVec.eq_of_getLsbD_eq
  intro i hi
  simp only [formatS, BitVec.getLsbD_and, BitVec.getLsbD_append]
  interval_cases i <;> simp

theorem formatB_masked (op : BitVec 4) (n : BitVec 6) (v : BitVec 32) :
    formatB op n v &&& 0xFFFFFFC000000000 = op ++ 0#60 := by
  apply BitVec.eq_of_getLsbD_eq
  intro i hi
  simp only [formatB, BitVec.getLsbD_and, BitVec.getLsbD_append]
  interval_cases i <;> simp

theorem nop : Statement .nop := fun _ => by decide

theorem config (w h : Nat) : Statement (.config w h) := fun _ => (formatD_masked _ _ _).trans rfl

theorem frameStart (w h : Nat) : Statement (.frameStart w h) := fun _ => (formatD_masked _ _ _).trans rfl

theorem pixel (sample : Nat) : Statement (.pixel sample) := fun _ => (formatS_masked _ _).trans rfl

theorem putBits (n v : Nat) : Statement (.putBits n v) := fun _ => (formatB_masked _ _ _).trans rfl

theorem flush : Statement .flush := fun _ => by decide

theorem encDelta (d : Int) : Statement (.encDelta d) := fun _ => (formatS_masked _ _).trans rfl

theorem encRun (r : Nat) : Statement (.encRun r) := fun _ => (formatS_masked _ _).trans rfl

theorem clear : Statement .clear := fun _ => by decide

end Sys2Proof.Laws.EncodeMatchesTable
end

