-- ==== Sys2Proof/Tests/Fixtures.lean ====
section
/-! SUPPORT. The fixture codebooks TB_DELTA and TB_RUN of spec/95 §1 and the small states the tests start from.
They are test inputs: no definition of the model uses them. -/

namespace Sys2Proof.Tests

open Sys2Proof.Machine

theorem tbDelta_legal : ∀ k : Fin 32, k.val ≤ 30 →
    entryLegal (BitVec.ofNat 32 (2 ^ (k.val + 1) - 2)) (BitVec.ofNat 6 (k.val + 1)) := by decide

/-- TB_DELTA[k]: k ones and a zero for k ≤ 30, 31 ones for k = 31 (spec/95 §1). -/
def tbDeltaEntry (k : Fin 32) : Entry :=
  if h : k.val ≤ 30 then
    { bits := BitVec.ofNat 32 (2 ^ (k.val + 1) - 2), len := BitVec.ofNat 6 (k.val + 1)
      legal := tbDelta_legal k h }
  else { bits := 0x7FFFFFFF, len := 31, legal := by decide }

/-- TB_DELTA (spec/95 §1). -/
def tbDelta : Vector Entry 32 := Vector.ofFn tbDeltaEntry

/-- TB_RUN[c] = (c, 8) (spec/95 §1). -/
def tbRunEntry (c : Fin 256) : Entry where
  bits := BitVec.ofNat 32 c.val
  len := 8
  legal := by
    refine ⟨by decide, by decide, ?_⟩
    show c.val % 2 ^ 32 < 2 ^ 8
    omega

/-- TB_RUN (spec/95 §1). -/
def tbRun : Vector Entry 256 := Vector.ofFn tbRunEntry

/-- The parameters of spec/95 §1: the defaults with the fixture codebooks. -/
def params : Params := { Params.default with deltaCb := tbDelta, runCb := tbRun }

/-- RUN_ESC_BITS = 4 (spec/95 §3.3). -/
def paramsEsc4 : Params := { params with runEscBits := 4, legal := by decide }

/-- ACC_WIDTH = 64 (spec/95 §3.2). -/
def params64 : Params := { params with accWidth := 64, legal := by decide }

/-- INVALID_MARKER = 65535, PREV_INIT = 1000 (spec/95 §3.4). -/
def paramsMarker : Params := { params with invalidMarker := 65535, prevInit := 1000, legal := by decide }

/-- UNCONF, with the accumulator as given and the sink's next answers as given. -/
def bypass (acc free : Nat) (answers : List SinkAnswer) : State :=
  { State.resetWith params with
    acc := BitVec.ofNat 64 acc, free := BitVec.ofNat 7 free, sinkAnswers := answers }

/-- IDLE, configured w by h. -/
def idle (w h : Nat) : State :=
  { State.resetWith params with phase := .idle, cfgW := BitVec.ofNat 16 w, cfgH := BitVec.ofNat 16 h }

/-- FRAME of w by h at PIX_IDX = `pix` and RUN_LEN = `run`, the accumulator empty. -/
def inFrame (w h pix run : Nat) (answers : List SinkAnswer) : State :=
  { idle w h with
    phase := .frame, pixIdx := BitVec.ofNat 32 pix, runLen := BitVec.ofNat 32 run, sinkAnswers := answers }

/-- ERROR after a sink abort, configured w by h. -/
def inError (w h : Nat) : State :=
  { idle w h with phase := .error, errCause := some .sink, lastResp := .abortSink }

end Sys2Proof.Tests
end

