-- ==== Sys2Proof/Tests/Slice0.lean ====
section
/-! SUPPORT. Tests of the model: the checks of `wellFormed`, the words of spec/30 R92 written out bit by bit, and at
most two single steps of each command. Every expected value is spec/95's. -/

namespace Sys2Proof.Tests

open Sys2Proof Sys2Proof.Machine

/-! ## WellFormed refuses -/

theorem test_wellFormed_refuses_config_w : (Instr.config 65536 1).wellFormed = false := by decide

theorem test_wellFormed_refuses_config_h : (Instr.config 1 65536).wellFormed = false := by decide

theorem test_wellFormed_refuses_frameStart_w : (Instr.frameStart 65536 1).wellFormed = false := by decide

theorem test_wellFormed_refuses_frameStart_h : (Instr.frameStart 1 65536).wellFormed = false := by decide

theorem test_wellFormed_refuses_pixel : (Instr.pixel 4294967296).wellFormed = false := by decide

theorem test_wellFormed_refuses_putBits_n : (Instr.putBits 64 0).wellFormed = false := by decide

theorem test_wellFormed_refuses_putBits_v : (Instr.putBits 0 4294967296).wellFormed = false := by decide

theorem test_wellFormed_refuses_encDelta_high : (Instr.encDelta 2147483648).wellFormed = false := by decide

theorem test_wellFormed_refuses_encDelta_low : (Instr.encDelta (-2147483649)).wellFormed = false := by decide

theorem test_wellFormed_refuses_encRun : (Instr.encRun 4294967296).wellFormed = false := by decide

/-! ## Decoding: spec/30 R92 and spec/95 §3.1, each field of the word written out in binary -/

theorem test_decode_nop : decode (0b0000#4 ++ 0#60) = .instr .nop := by decide

theorem test_decode_config :
    decode (0b0001#4 ++ 0#28 ++ 0b0000001010000000#16 ++ 0b0000000111100000#16) = .instr (.config 640 480) := by
  decide

theorem test_decode_frameStart :
    decode (0b0010#4 ++ 0#28 ++ 0b0000000000000010#16 ++ 0b0000000000000010#16) = .instr (.frameStart 2 2) := by
  decide

theorem test_decode_pixel :
    decode (0b0011#4 ++ 0#28 ++ 0b00000000000000000000000000000101#32) = .instr (.pixel 5) := by decide

theorem test_decode_putBits :
    decode (0b0100#4 ++ 0#22 ++ 0b010100#6 ++ 0b00000000000010101011110011011110#32) =
      .instr (.putBits 20 0xABCDE) := by
  decide

theorem test_decode_flush : decode (0b0101#4 ++ 0#60) = .instr .flush := by decide

theorem test_decode_encDelta :
    decode (0b0110#4 ++ 0#28 ++ 0b11111111111111111111111111111111#32) = .instr (.encDelta (-1)) := by decide

theorem test_decode_encRun :
    decode (0b0111#4 ++ 0#28 ++ 0b00000000000000000000000011111111#32) = .instr (.encRun 255) := by decide

theorem test_decode_clear : decode (0b1000#4 ++ 0#60) = .instr .clear := by decide

/-- The words of spec/30 R92 as it prints them. -/
theorem test_encode_table :
    encode .nop = 0x0000000000000000 ∧ encode (.config 640 480) = 0x10000000028001E0 ∧
    encode (.frameStart 2 2) = 0x2000000000020002 ∧ encode (.pixel 5) = 0x3000000000000005 ∧
    encode (.putBits 20 0xABCDE) = 0x40000014000ABCDE ∧ encode .flush = 0x5000000000000000 ∧
    encode (.encDelta (-1)) = 0x60000000FFFFFFFF ∧ encode (.encRun 255) = 0x70000000000000FF ∧
    encode .clear = 0x8000000000000000 := by
  decide

/-- spec/95 §3.1: the reserved words. -/
theorem test_decode_reserved :
    decode 0x0000000000000001 = .reserved .zeroField ∧ decode 0x1000000100020002 = .reserved .zeroField ∧
    decode 0x3000010000000001 = .reserved .zeroField ∧ decode 0x4000004000000000 = .reserved .zeroField ∧
    decode 0x9000000000000000 = .reserved .opcode ∧ decode 0xF000000000000000 = .reserved .opcode ∧
    decode 0xFFFFFFFFFFFFFFFF = .reserved .opcode := by
  decide

/-! ## Steps -/

/-- A part of the next state, if there is one. -/
def after {α : Type} (r : Result) (f : State → α) : Option α :=
  match r with
  | .next t => some (f t)
  | .fault _ => none
  | .refused _ => none

/-- spec/95 P5: NOP in ERROR responds OK and stays in ERROR. -/
theorem test_nop_in_error : after (exec .nop (inError 3 1)) (·.statusWord) = some 0x0010000B := by decide

/-- spec/95 §3.1: CONFIG 0, 5. -/
theorem test_config_zero : after (exec (.config 0 5) (bypass 0 32 [])) (·.lastResp.code) = some 0x03 := by decide

/-- spec/95 §3.1: CONFIG 640, 480. -/
theorem test_config_length : after (exec (.config 640 480) (bypass 0 32 [])) (·.regRead 0x08) = some 307200 := by
  decide

/-- spec/43 R162: FRAME_START 2, 1 after CONFIG 2, 2. -/
theorem test_frameStart_mismatch :
    after (exec (.frameStart 2 1) (idle 2 2)) (fun t => (t.phase, t.lastResp.code)) = some (.idle, 0x04) := by decide

/-- spec/95 P7: FRAME_START 3, 1. -/
theorem test_frameStart_status : after (exec (.frameStart 3 1) (idle 3 1)) (·.statusWord) = some 0x0000000A := by
  decide

set_option maxRecDepth 20000 in
/-- spec/43 R164: the 1 by 1 frame with the sample 5. -/
theorem test_pixel_last :
    after (exec (.pixel 5) (inFrame 1 1 0 0 [.ok, .ok, .ok])) (fun t => (t.sink, t.frameBytes, t.done)) =
      some ([0x00, 0xEA, 0x00], 3, true) := by
  decide

set_option maxRecDepth 20000 in
/-- spec/95 P6: the third PIXEL, 2 after 1 and one invalid sample. -/
theorem test_pixel_run_and_delta :
    after (exec (.pixel 2) { inFrame 4 1 2 1 [] with acc := 0x00A00000, free := 21, prev := 1 })
      (fun t => (t.acc, t.free, t.pixIdx)) = some (0x00A03400, 10, 3) := by
  decide

/-- spec/95 §3.2: PUT_BITS 20, 0x12345 from 0xABCDE000, 12. -/
theorem test_putBits_slow :
    after (exec (.putBits 20 0x12345) (bypass 0xABCDE000 12 [.ok, .ok, .ok, .ok]))
      (fun t => (t.sink, t.acc, t.free)) = some ([0xAB, 0xCD, 0xE1, 0x23], 0x45000000, 24) := by
  decide

/-- spec/95 §3.2: PUT_BITS 8, 0x55, the sink answering OK, OK, ERR. -/
theorem test_putBits_sink_error :
    after (exec (.putBits 8 0x55) (bypass 0x11223344 0 [.ok, .ok, .err]))
      (fun t => (t.sink, t.totalBytes, t.statusWord)) = some ([0x11, 0x22], 2, 0x0010100B) := by
  decide

/-- spec/95 §3.2: FLUSH of 10 pending bits. -/
theorem test_flush_partial :
    after (exec .flush (bypass 0xBFC00000 22 [.ok, .ok])) (fun t => (t.sink, t.acc, t.free)) =
      some ([0xBF, 0xC0], 0, 32) := by
  decide

/-- spec/95 §3.2: FLUSH, the sink answering OK, ERR. -/
theorem test_flush_sink_error :
    after (exec .flush (bypass 0xFF800000 23 [.ok, .err])) (fun t => (t.sink, t.phase, t.totalBytes)) =
      some ([0xFF], .error, 1) := by
  decide

/-- spec/95 §3.3: d = −100. -/
theorem test_encDelta_negative :
    after (exec (.encDelta (-100)) (bypass 0 32 [])) (fun t => (t.acc, t.free)) = some (0xFE360000, 17) := by decide

/-- spec/95 §3.3: d = −2147483648. -/
theorem test_encDelta_overflow :
    after (exec (.encDelta (-2147483648)) (bypass 0 32 [])) (fun t => (t.acc, t.lastResp.code)) = some (0, 0x06) := by
  decide

set_option maxRecDepth 20000 in
/-- spec/42 R141: ENC_RUN 255. -/
theorem test_encRun_escape :
    after (exec (.encRun 255) (bypass 0 32 [.ok, .ok, .ok, .ok])) (fun t => (t.sink, t.free)) =
      some ([0xFF, 0x00, 0x00, 0x00], 24) := by
  decide

/-- spec/95 §3.2: ENC_RUN 0 in ERROR. -/
theorem test_encRun_in_error : after (exec (.encRun 0) (inError 3 1)) (·.statusWord) = some 0x0010020B := by decide

/-- spec/95 P5: CLEAR after an abort of a configured DFE. -/
theorem test_clear_status : after (exec .clear (inError 3 1)) (·.statusWord) = some 0x00000009 := by decide

/-- spec/95 §3.2: CLEAR after an abort of an unconfigured DFE keeps TOTAL_BYTES. -/
theorem test_clear_unconf :
    after (exec .clear { inError 0 0 with totalBytes := 2 }) (fun t => (t.statusWord, t.totalBytes)) =
      some (0x00000008, 2) := by
  decide

/-- spec/95 §3.1, as the first word after reset: the opcode table's bits reach the command. -/
theorem test_first_word :
    after (step (State.reset.withFetchWord 64 0x1000000000020002)) (fun t => (t.phase, t.cfgW, t.cfgH)) =
      some (.idle, 2, 2) := by
  decide

/-- spec/30 R90, R91: a line of text, its expansion and its words. -/
theorem test_assembler :
    parseLine "FRAME 2, 1: 5, 0x10 ; two samples".toList = some [.frame 2 1 [5, 16]] ∧
    parseLine "  ; nothing".toList = some [] ∧ parseLine "PIXEL -1".toList = none ∧
    assemble 0 [.newWriter 2 2, .pixelInv] = some [0x8000000000000000, 0x1000000000020002, 0x3000000000000000] ∧
    assemble 0 [.cmd (.config 65536 1)] = none := by
  decide

end Sys2Proof.Tests
end

