-- ==== Sys2Proof/Tests/Witnesses.lean ====
section
/-! SUPPORT. For every statement with hypotheses, concrete states and operands that meet them together, clause by
clause and at the ends of their ranges. `witness_<statement>` belongs to `Obligations.<Statement>`. -/

namespace Sys2Proof.Tests

open Sys2Proof Sys2Proof.Machine

/-! ## States -/

/-- IDLE, with bits pending. -/
def idlePending (w h acc free : Nat) : State :=
  { idle w h with acc := BitVec.ofNat 64 acc, free := BitVec.ofNat 7 free }

/-- FRAME, with `free` bits free in an accumulator of zeros. -/
def inFrameFree (w h pix run free : Nat) (answers : List SinkAnswer) : State :=
  { inFrame w h pix run answers with free := BitVec.ofNat 7 free }

/-- FRAME, with RUN_ESC_BITS = 4. -/
def inFrameEsc4 (w h pix run : Nat) : State := { inFrame w h pix run [] with params := paramsEsc4 }

/-- UNCONF, with RUN_ESC_BITS = 4 and an empty accumulator. -/
def bypassEsc4 (answers : List SinkAnswer) : State := { bypass 0 32 answers with params := paramsEsc4 }

/-- A command waits for the sink's answer to the byte 0x55. -/
def waitingState : State := { idle 1 1 with inFlight := some 0x55, port := [0] }

/-- Reset is asserted. -/
def resetting (inFlight : Option Byte) : State := { idle 1 1 with resetLine := true, inFlight := inFlight }

/-- A word at the port. -/
def withWord (w : Word) (s : State) : State := { s with port := [w] }

/-- The invariants, for a state with known fields. -/
theorem stateInv_of {s : State}
    (h : AccOk s ∧ s.prev.toNat < 2 ^ s.params.sampleBits ∧ (s.cfgW = 0 ↔ s.cfgH = 0) ∧
      (s.phase = .unconf → s.cfgW = 0) ∧ (s.phase = .idle ∨ s.phase = .frame → s.cfgW ≠ 0) ∧
      (s.phase = .frame → s.runLen.toNat ≤ s.pixIdx.toNat ∧ s.pixIdx.toNat ≤ s.length ∧
        (s.inFlight = none → s.pixIdx.toNat < s.length)) ∧
      (s.phase = .unconf ∨ s.phase = .idle → s.runLen = 0) ∧ (s.phase ≠ .error ↔ s.errCause = none) ∧
      (s.done = true → s.phase = .idle ∧ s.pixIdx.toNat = s.length)) : StateInv s := by
  obtain ⟨h1, h2, h3, h4, h5, h6, h7, h8, h9⟩ := h
  exact ⟨h1, h2, h3, h4, h5, h6, h7, h8, h9⟩

/-! ## Reset and registers -/

theorem witness_ParametersMeetTheirConstraints :
    0 < 32 ∧ 31 < 32 ∧ 0 < 256 ∧ 255 < 256 := by decide

theorem witness_ResetTakesPriority :
    (resetting none).resetLine = true ∧ (resetting none).inFlight = none ∧
    (resetting (some 0x55)).resetLine = true ∧ (resetting (some 0x55)).inFlight = some 0x55 := by decide

theorem witness_ResetKeepsThePort :
    (resetting none).resetLine = true ∧ ∃ t, step (resetting none) = .next t := ⟨rfl, _, rfl⟩

theorem witness_RegisterMap_zero :
    (0x01 : Byte).toNat % 4 ≠ 0 ∧ (0x3F : Byte).toNat % 4 ≠ 0 ∧ 0x40 ≤ (0x40 : Byte).toNat ∧
    0x40 ≤ (0xFF : Byte).toNat := by decide

theorem witness_RegisterReadsBetweenCommands :
    (idle 1 1).inFlight = none ∧ waitingState.inFlight ≠ none := by decide

/-! ## Encoding and words -/

theorem witness_DecodeReadsEveryField :
    decode 0x9000000000000000 = .reserved .opcode ∧ decode 0xFFFFFFFFFFFFFFFF = .reserved .opcode ∧
    decode 0x0000000000000001 = .reserved .zeroField ∧ decode 0x4000004000000000 = .reserved .zeroField := by
  decide

theorem witness_DecodeOfEncode :
    (Instr.config 65535 65535).wellFormed = true ∧ (Instr.frameStart 0 0).wellFormed = true ∧
    (Instr.pixel 4294967295).wellFormed = true ∧ (Instr.putBits 63 4294967295).wellFormed = true ∧
    (Instr.encDelta (-2147483648)).wellFormed = true ∧ (Instr.encDelta 2147483647).wellFormed = true ∧
    (Instr.encRun 4294967295).wellFormed = true := by decide

theorem witness_EncodeOfDecode :
    decode 0x60000000FFFFFFFF = .instr (.encDelta (-1)) ∧ decode 0x4000003FFFFFFFFF = .instr (.putBits 63 4294967295) := by
  decide

theorem witness_PseudoInstructionExpansions :
    ([5, 6] : List (BitVec 32)).length = (2#16).toNat * (1#16).toNat ∧
    ([] : List (BitVec 32)).length = (0#16).toNat * (7#16).toNat ∧
    ([5] : List Nat).length ≠ 2 * 1 ∧ ([5, 6, 7] : List Nat).length ≠ 2 * 1 := by decide

theorem witness_StepRunsDecodedCommand :
    (withWord 0x3000000000000005 (idle 1 1)).resetLine = false ∧
    (withWord 0x3000000000000005 (idle 1 1)).inFlight = none ∧
    (withWord 0x3000000000000005 (idle 1 1)).port = [0x3000000000000005] ∧
    decode 0x3000000000000005 = .instr (.pixel 5) ∧ decode (tableWord 64 0x3000000000000005) = .instr (.pixel 5) := by
  decide

theorem witness_IdleDfeHoldsItsState :
    (idle 1 1).resetLine = false ∧ (idle 1 1).port = [] := by decide

theorem witness_UnansweredCommandHangs :
    waitingState.resetLine = false ∧ waitingState.inFlight = some 0x55 := by decide

theorem witness_PortIsTakenInOrder :
    (∃ t, step (withWord 0 (idle 1 1)) = .next t) ∧ (withWord 0 (idle 1 1)).port = [0] ∧
    (withWord 0 (idle 1 1)).inFlight = none ∧ (withWord 0 (idle 1 1)).resetLine = false ∧
    (∃ t, step waitingState = .next t) ∧ waitingState.inFlight ≠ none := by
  exact ⟨⟨_, rfl⟩, rfl, rfl, rfl, ⟨_, rfl⟩, by decide⟩

/-! ## Commands -/

theorem witness_NopWritesLastRespOnly :
    opcodeOf 0x0000000000000001 = 0x0 ∧ zeroFieldN 0x0000000000000001 ≠ 0 := by decide

theorem witness_ClearLeavesErrorOrAbandonsFrame :
    opcodeOf 0x8800000000000000 = 0x8 ∧ zeroFieldN 0x8800000000000000 ≠ 0 := by decide

theorem witness_ConfigConstructsWriter :
    ¬ BypassState (inFrame 1 1 0 0 []) ∧ ¬ BypassState (inError 1 1) ∧
    (BypassState (idle 1 1) ∧ (0#16 = 0 ∨ 65535#16 = 0)) ∧ (BypassState (idle 1 1) ∧ (1#16 = 0 ∨ 0#16 = 0)) ∧
    (BypassState (idlePending 1 1 0 31) ∧ 1#16 ≠ 0 ∧ 65535#16 ≠ 0 ∧
      (idlePending 1 1 0 31).free.toNat ≠ (idlePending 1 1 0 31).params.accWidth) ∧
    (BypassState (bypass 0 32 []) ∧ 65535#16 ≠ 0 ∧ 65535#16 ≠ 0 ∧
      (bypass 0 32 []).free.toNat = (bypass 0 32 []).params.accWidth) ∧
    opcodeOf 0x1000000100020002 = 0x1 ∧ zeroFieldDS 0x1000000100020002 ≠ 0 := by decide

theorem witness_FrameStartBeginsFrame :
    (bypass 0 32 []).phase ≠ .idle ∧
    ((idle 2 2).phase = .idle ∧ (2#16 ≠ (idle 2 2).cfgW ∨ 1#16 ≠ (idle 2 2).cfgH)) ∧
    ((idlePending 2 2 0 0).phase = .idle ∧ 2#16 = (idlePending 2 2 0 0).cfgW ∧ 2#16 = (idlePending 2 2 0 0).cfgH ∧
      (idlePending 2 2 0 0).free.toNat ≠ (idlePending 2 2 0 0).params.accWidth) ∧
    ((idle 65535 1).phase = .idle ∧ 65535#16 = (idle 65535 1).cfgW ∧ 1#16 = (idle 65535 1).cfgH ∧
      (idle 65535 1).free.toNat = (idle 65535 1).params.accWidth) ∧
    opcodeOf 0x2800000000020002 = 0x2 ∧ zeroFieldDS 0x2800000000020002 ≠ 0 := by decide

theorem witness_NewWriterFromAnyState :
    1#16 ≠ 0 ∧ 65535#16 ≠ 0 := by decide

theorem witness_PutBitsAppends_checks :
    AccOk (inFrame 1 1 0 0 []) ∧ ¬ BypassState (inFrame 1 1 0 0 []) ∧ AccOk (bypass 0 32 []) ∧
    BypassState (bypass 0 32 []) ∧
    (bypass 0 32 []).params.accWidth < (33#6).toNat ∧ (bypass 0 32 []).params.accWidth < (63#6).toNat ∧
    opcodeOf 0x4000004000000000 = 0x4 ∧ zeroFieldB 0x4000004000000000 ≠ 0 := by decide

theorem witness_PutBitsAppends_fits :
    AccOk (bypass 0 32 []) ∧ BypassState (bypass 0 32 []) ∧ (32#6).toNat ≤ (bypass 0 32 []).free.toNat ∧
    AccOk (bypass 0xDEADBEEF 0 []) ∧ (0#6).toNat ≤ (bypass 0xDEADBEEF 0 []).free.toNat := by decide

theorem witness_PutBitsAppends_word :
    AccOk (bypass 0xDEADBEEF 0 [.ok, .ok, .ok, .ok]) ∧ BypassState (bypass 0xDEADBEEF 0 [.ok, .ok, .ok, .ok]) ∧
    (bypass 0xDEADBEEF 0 [.ok, .ok, .ok, .ok]).free.toNat < (1#6).toNat ∧
    (32#6).toNat ≤ (bypass 0xDEADBEEF 0 [.ok, .ok, .ok, .ok]).params.accWidth ∧
    AnswersOk (params.accWidth / 8) (bypass 0xDEADBEEF 0 [.ok, .ok, .ok, .ok]) := by decide

theorem witness_PutBitsAppends_first_err :
    AccOk (bypass 0xDEADBEEF 0 [.err]) ∧ 0 < (bypass 0xDEADBEEF 0 [.err]).params.accWidth / 8 ∧
    BypassState (bypass 0xDEADBEEF 0 [.err]) ∧ (bypass 0xDEADBEEF 0 [.err]).free.toNat < (1#6).toNat ∧
    AnswersOk 0 (bypass 0xDEADBEEF 0 [.err]) ∧ (bypass 0xDEADBEEF 0 [.err]).answerAt 0 = .err := by decide

theorem witness_PutBitsAppends_last_err :
    AccOk (bypass 0xDEADBEEF 0 [.ok, .ok, .ok, .err]) ∧
    3 < (bypass 0xDEADBEEF 0 [.ok, .ok, .ok, .err]).params.accWidth / 8 ∧
    BypassState (bypass 0xDEADBEEF 0 [.ok, .ok, .ok, .err]) ∧
    (bypass 0xDEADBEEF 0 [.ok, .ok, .ok, .err]).free.toNat < (1#6).toNat ∧
    AnswersOk 3 (bypass 0xDEADBEEF 0 [.ok, .ok, .ok, .err]) ∧
    (bypass 0xDEADBEEF 0 [.ok, .ok, .ok, .err]).answerAt 3 = .err := by decide

theorem witness_FlushWritesPendingBits :
    AccOk (inError 1 1) ∧ ¬ BypassState (inError 1 1) ∧
    (AccOk (bypass 0 32 []) ∧ BypassState (bypass 0 32 []) ∧
    AnswersOk (((bypass 0 32 []).occ + 7) / 8) (bypass 0 32 [])) ∧
    (AccOk (bypass 0xDEADBEEF 0 [.ok, .ok, .ok, .ok]) ∧ BypassState (bypass 0xDEADBEEF 0 [.ok, .ok, .ok, .ok]) ∧
      AnswersOk (((bypass 0xDEADBEEF 0 [.ok, .ok, .ok, .ok]).occ + 7) / 8) (bypass 0xDEADBEEF 0 [.ok, .ok, .ok, .ok])) ∧
    opcodeOf 0x5000000000000001 = 0x5 ∧ zeroFieldN 0x5000000000000001 ≠ 0 := by decide

theorem witness_FlushWritesPendingBits_err :
    AccOk (bypass 0xDEADBEEF 0 [.ok, .ok, .ok, .err]) ∧
    3 < ((bypass 0xDEADBEEF 0 [.ok, .ok, .ok, .err]).occ + 7) / 8 ∧
    BypassState (bypass 0xDEADBEEF 0 [.ok, .ok, .ok, .err]) ∧
    AnswersOk 3 (bypass 0xDEADBEEF 0 [.ok, .ok, .ok, .err]) ∧
    (bypass 0xDEADBEEF 0 [.ok, .ok, .ok, .err]).answerAt 3 = .err ∧
    AccOk (bypass 0x80000000 31 [.err]) ∧ 0 < ((bypass 0x80000000 31 [.err]).occ + 7) / 8 ∧
    (bypass 0x80000000 31 [.err]).answerAt 0 = .err := by decide

set_option maxRecDepth 20000 in
theorem witness_EncDeltaAppendsSymbol :
    ∃ s : State, s = bypass 0 32 [.ok, .ok, .ok, .ok] ∧
    AccOk s ∧ BypassState s ∧ (0x80000001 : BitVec 32) ≠ 0x80000000 ∧ (0x7FFFFFFF : BitVec 32) ≠ 0x80000000 ∧
    AnswersOk (appendedBytes (deltaBits s.params (0x80000001 : BitVec 32).toInt) s) s ∧
    AnswersOk (appendedBytes (deltaBits s.params (0x7FFFFFFF : BitVec 32).toInt) s) s ∧
    AnswersOk (appendedBytes (deltaBits s.params (0 : BitVec 32).toInt) s) s := by
  exact ⟨_, rfl, by decide, by decide, by decide, by decide, by decide, by decide, by decide⟩

theorem witness_EncDeltaAppendsSymbol_rejected :
    ¬ BypassState (inFrame 1 1 0 0 []) ∧ (0x80000000 : BitVec 32).toInt = -2147483648 ∧
    opcodeOf 0x6000000100000000 = 0x6 ∧ zeroFieldDS 0x6000000100000000 ≠ 0 := by decide

set_option maxRecDepth 20000 in
theorem witness_EncDeltaAppendsSymbol_err :
    AccOk (bypass 0 32 [.ok, .ok, .ok, .err]) ∧ BypassState (bypass 0 32 [.ok, .ok, .ok, .err]) ∧
    3 < appendedBytes (deltaBits params (0x7FFFFFFF : BitVec 32).toInt) (bypass 0 32 [.ok, .ok, .ok, .err]) ∧
    AnswersOk 3 (bypass 0 32 [.ok, .ok, .ok, .err]) ∧ (bypass 0 32 [.ok, .ok, .ok, .err]).answerAt 3 = .err := by
  decide

theorem witness_EncRunAppendsSymbol_overflow :
    AccOk (bypassEsc4 []) ∧ BypassState (bypassEsc4 []) ∧ 255 ≤ (271#32).toNat ∧
    2 ^ (bypassEsc4 []).params.runEscBits ≤ (271#32).toNat - 255 ∧ ¬ BypassState (inFrame 1 1 0 0 []) ∧
    opcodeOf 0x7000000100000000 = 0x7 ∧ zeroFieldDS 0x7000000100000000 ≠ 0 := by decide

set_option maxRecDepth 20000 in
theorem witness_EncRunAppendsSymbol_direct :
    AccOk (bypass 0 32 []) ∧ BypassState (bypass 0 32 []) ∧ (254#32).toNat < 255 ∧
    AnswersOk (appendedBytes (runBits params (254#32).toNat) (bypass 0 32 [])) (bypass 0 32 []) := by decide

set_option maxRecDepth 20000 in
theorem witness_EncRunAppendsSymbol_escape :
    AccOk (bypassEsc4 []) ∧ BypassState (bypassEsc4 []) ∧
    (270#32).toNat - 255 < 2 ^ (bypassEsc4 []).params.runEscBits ∧
    AnswersOk (appendedBytes (runBits paramsEsc4 (270#32).toNat) (bypassEsc4 [])) (bypassEsc4 []) := by decide

set_option maxRecDepth 20000 in
theorem witness_EncRunAppendsSymbol_err :
    AccOk (bypass 0 32 [.ok, .ok, .ok, .err]) ∧ BypassState (bypass 0 32 [.ok, .ok, .ok, .err]) ∧
    (4294967295#32).toNat - 255 < 2 ^ params.runEscBits ∧
    3 < appendedBytes (runBits params (4294967295#32).toNat) (bypass 0 32 [.ok, .ok, .ok, .err]) ∧
    AnswersOk 3 (bypass 0 32 [.ok, .ok, .ok, .err]) ∧ (bypass 0 32 [.ok, .ok, .ok, .err]).answerAt 3 = .err := by
  decide

set_option maxRecDepth 20000 in
theorem witness_BypassCommandWaitsForTheSink :
    ∃ s : State, s = bypass 0xDEADBEEF 0 [.ok, .ok, .ok, .never] ∧
    AccOk s ∧ Passes .flush s ∧ 3 < (s.occ + 7) / 8 ∧ Passes (.putBits 1 1) s ∧
    3 < appendedBytes (bypassBits (.putBits 1 1) s) s ∧ Passes (.encDelta 5) s ∧
    3 < appendedBytes (bypassBits (.encDelta 5) s) s ∧ AnswersOk 3 s ∧ s.answerAt 3 = .never := by
  exact ⟨_, rfl, by decide, by decide, by decide, by decide, by decide, by decide, by decide, by decide, by decide⟩

set_option maxRecDepth 20000 in
theorem witness_BypassCommandWaitsForTheSink_encRun :
    Passes (.encRun 0) (bypass 0xDEADBEEF 0 [.never]) ∧
    0 < appendedBytes (bypassBits (.encRun 0) (bypass 0xDEADBEEF 0 [.never])) (bypass 0xDEADBEEF 0 [.never]) ∧
    (bypass 0xDEADBEEF 0 [.never]).answerAt 0 = .never := by decide

/-! ## PIXEL -/

theorem stateInv_reset :
    StateInv (State.resetWith params) := stateInv_of (by decide)

theorem stateInv_idle :
    StateInv (idle 65535 65535) := stateInv_of (by decide)

theorem witness_PixelConsumesSample_rejected :
    StateInv (idle 65535 65535) ∧ (idle 65535 65535).phase ≠ .frame ∧
    StateInv (inFrame 2 1 0 0 []) ∧ (inFrame 2 1 0 0 []).phase = .frame ∧ 2 ^ params.sampleBits ≤ (65536#32).toNat ∧
    opcodeOf 0x3000010000000001 = 0x3 ∧ zeroFieldDS 0x3000010000000001 ≠ 0 := by
  exact ⟨stateInv_idle, by decide, stateInv_of (by decide), by decide, by decide, by decide, by decide⟩

/-- The last position but one of the largest frame, all invalid so far. -/
theorem witness_PixelConsumesSample_invalid :
    ∃ s : State, s = inFrame 65535 65535 4294836223 4294836223 [] ∧
    StateInv s ∧ s.pixIdx.toNat + 1 ≠ s.length ∧ (0#32).toNat = s.params.invalidMarker := by
  exact ⟨_, rfl, stateInv_of (by decide), by decide, by decide⟩

set_option maxRecDepth 20000 in
theorem witness_PixelConsumesSample_valid :
    ∃ s : State, s = inFrame 2 1 0 0 [.ok, .ok, .ok, .ok] ∧
    StateInv s ∧ s.phase = .frame ∧ s.pixIdx.toNat + 1 ≠ s.length ∧ (65535#32).toNat < 2 ^ s.params.sampleBits ∧
    (65535#32).toNat ≠ s.params.invalidMarker ∧ runOverflow s.params s.runLen.toNat = false ∧
    AnswersOk (appendedBytes (runBits s.params s.runLen.toNat ++
      deltaBits s.params (((65535#32).toNat : Int) - s.prev.toNat)) s) s := by
  exact ⟨_, rfl, stateInv_of (by decide), by decide, by decide, by decide, by decide, by decide, by decide⟩

set_option maxRecDepth 20000 in
theorem witness_LastPixelEndsFrame_valid :
    ∃ s : State, s = inFrame 1 1 0 0 [.ok, .ok, .ok] ∧
    StateInv s ∧ s.phase = .frame ∧ s.pixIdx.toNat + 1 = s.length ∧ (5#32).toNat < 2 ^ s.params.sampleBits ∧
    overflows (.pixel (5#32).toNat) s = false ∧
    AnswersOk (flushedBytes (pixelBits (5#32).toNat s ++ closingBits (5#32).toNat s) s) s := by
  exact ⟨_, rfl, stateInv_of (by decide), by decide, by decide, by decide, by decide, by decide⟩

set_option maxRecDepth 20000 in
theorem witness_LastPixelEndsFrame_invalid :
    ∃ s : State, s = inFrame 1 1 0 0 [.ok, .ok, .ok] ∧
    StateInv s ∧ s.phase = .frame ∧ s.pixIdx.toNat + 1 = s.length ∧ (0#32).toNat < 2 ^ s.params.sampleBits ∧
    overflows (.pixel (0#32).toNat) s = false ∧
    AnswersOk (flushedBytes (pixelBits (0#32).toNat s ++ closingBits (0#32).toNat s) s) s := by
  exact ⟨_, rfl, stateInv_of (by decide), by decide, by decide, by decide, by decide, by decide⟩

theorem witness_PixelOverflowAborts_valid :
    (inFrameEsc4 300 1 271 271).phase = .frame ∧ (1#32).toNat < 2 ^ paramsEsc4.sampleBits ∧
    (1#32).toNat ≠ paramsEsc4.invalidMarker ∧ 255 ≤ (inFrameEsc4 300 1 271 271).runLen.toNat ∧
    2 ^ paramsEsc4.runEscBits ≤ (inFrameEsc4 300 1 271 271).runLen.toNat - 255 := by decide

theorem witness_PixelOverflowAborts_invalid :
    (inFrameEsc4 271 1 270 270).phase = .frame ∧ (0#32).toNat = paramsEsc4.invalidMarker ∧
    (inFrameEsc4 271 1 270 270).pixIdx.toNat + 1 = (inFrameEsc4 271 1 270 270).length ∧
    255 ≤ (inFrameEsc4 271 1 270 270).runLen.toNat + 1 ∧
    2 ^ paramsEsc4.runEscBits ≤ (inFrameEsc4 271 1 270 270).runLen.toNat + 1 - 255 := by decide

theorem witness_PixelOverflowAborts_cause :
    (∃ t, exec (.pixel (1#32).toNat) (inFrameEsc4 300 1 271 271) = .next t ∧ t.inFlight = none ∧
      t.lastResp = .abortOverflow) ∧
    params.runEscBits = 32 ∧ StateInv (inFrame 1 1 0 0 []) ∧ (inFrame 1 1 0 0 []).phase = .frame := by
  exact ⟨⟨_, rfl, rfl, rfl⟩, rfl, stateInv_of (by decide), rfl⟩

set_option maxRecDepth 20000 in
theorem witness_PixelSinkErrorAborts_own_0 :
    ∃ s : State, s = inFrameFree 1 1 0 0 0 [.err] ∧
    StateInv s ∧ Passes (.pixel (5#32).toNat) s ∧ AnswersOk 0 s ∧ s.answerAt 0 = .err ∧
    0 < appendedBytes (pixelBits (5#32).toNat s) s := by
  exact ⟨_, rfl, stateInv_of (by decide), by decide, by decide, by decide, by decide⟩

set_option maxRecDepth 20000 in
theorem witness_PixelSinkErrorAborts_own_3 :
    ∃ s : State, s = inFrameFree 1 1 0 0 0 [.ok, .ok, .ok, .err] ∧
    StateInv s ∧ Passes (.pixel (5#32).toNat) s ∧ AnswersOk 3 s ∧ s.answerAt 3 = .err ∧
    3 < appendedBytes (pixelBits (5#32).toNat s) s := by
  exact ⟨_, rfl, stateInv_of (by decide), by decide, by decide, by decide, by decide⟩

set_option maxRecDepth 20000 in
theorem witness_PixelSinkErrorAborts_closing_0 :
    ∃ s : State, s = inFrameFree 1 1 0 0 16 [.err] ∧
    StateInv s ∧ Passes (.pixel (5#32).toNat) s ∧ AnswersOk 0 s ∧ s.answerAt 0 = .err ∧
    s.pixIdx.toNat + 1 = s.length ∧ appendedBytes (pixelBits (5#32).toNat s) s ≤ 0 ∧
    0 < appendedBytes (pixelBits (5#32).toNat s ++ closingBits (5#32).toNat s) s := by
  exact ⟨_, rfl, stateInv_of (by decide), by decide, by decide, by decide, by decide, by decide, by decide⟩

set_option maxRecDepth 20000 in
theorem witness_PixelSinkErrorAborts_closing_3 :
    ∃ s : State, s = inFrameFree 1 1 0 0 16 [.ok, .ok, .ok, .err] ∧
    StateInv s ∧ Passes (.pixel (5#32).toNat) s ∧ AnswersOk 3 s ∧ s.answerAt 3 = .err ∧
    s.pixIdx.toNat + 1 = s.length ∧ appendedBytes (pixelBits (5#32).toNat s) s ≤ 3 ∧
    3 < appendedBytes (pixelBits (5#32).toNat s ++ closingBits (5#32).toNat s) s := by
  exact ⟨_, rfl, stateInv_of (by decide), by decide, by decide, by decide, by decide, by decide, by decide⟩

set_option maxRecDepth 20000 in
theorem witness_PixelSinkErrorAborts_flush_4 :
    ∃ s : State, s = inFrameFree 1 1 0 0 16 [.ok, .ok, .ok, .ok, .err] ∧
    StateInv s ∧ Passes (.pixel (5#32).toNat) s ∧ AnswersOk 4 s ∧ s.answerAt 4 = .err ∧
    s.pixIdx.toNat + 1 = s.length ∧
    appendedBytes (pixelBits (5#32).toNat s ++ closingBits (5#32).toNat s) s ≤ 4 ∧
    4 < flushedBytes (pixelBits (5#32).toNat s ++ closingBits (5#32).toNat s) s := by
  exact ⟨_, rfl, stateInv_of (by decide), by decide, by decide, by decide, by decide, by decide, by decide⟩

set_option maxRecDepth 20000 in
theorem witness_PixelWaitsForTheSink_own_0 :
    ∃ s : State, s = inFrameFree 1 1 0 0 0 [.never] ∧
    StateInv s ∧ Passes (.pixel (5#32).toNat) s ∧ AnswersOk 0 s ∧ s.answerAt 0 = .never ∧
    0 < appendedBytes (pixelBits (5#32).toNat s) s := by
  exact ⟨_, rfl, stateInv_of (by decide), by decide, by decide, by decide, by decide⟩

set_option maxRecDepth 20000 in
theorem witness_PixelWaitsForTheSink_own_3 :
    ∃ s : State, s = inFrameFree 1 1 0 0 0 [.ok, .ok, .ok, .never] ∧
    StateInv s ∧ Passes (.pixel (5#32).toNat) s ∧ AnswersOk 3 s ∧ s.answerAt 3 = .never ∧
    3 < appendedBytes (pixelBits (5#32).toNat s) s := by
  exact ⟨_, rfl, stateInv_of (by decide), by decide, by decide, by decide, by decide⟩

set_option maxRecDepth 20000 in
theorem witness_PixelWaitsForTheSink_closing_0 :
    ∃ s : State, s = inFrameFree 1 1 0 0 16 [.never] ∧
    StateInv s ∧ Passes (.pixel (5#32).toNat) s ∧ AnswersOk 0 s ∧ s.answerAt 0 = .never ∧
    s.pixIdx.toNat + 1 = s.length ∧ appendedBytes (pixelBits (5#32).toNat s) s ≤ 0 ∧
    0 < appendedBytes (pixelBits (5#32).toNat s ++ closingBits (5#32).toNat s) s := by
  exact ⟨_, rfl, stateInv_of (by decide), by decide, by decide, by decide, by decide, by decide, by decide⟩

set_option maxRecDepth 20000 in
theorem witness_PixelWaitsForTheSink_closing_3 :
    ∃ s : State, s = inFrameFree 1 1 0 0 16 [.ok, .ok, .ok, .never] ∧
    StateInv s ∧ Passes (.pixel (5#32).toNat) s ∧ AnswersOk 3 s ∧ s.answerAt 3 = .never ∧
    s.pixIdx.toNat + 1 = s.length ∧ appendedBytes (pixelBits (5#32).toNat s) s ≤ 3 ∧
    3 < appendedBytes (pixelBits (5#32).toNat s ++ closingBits (5#32).toNat s) s := by
  exact ⟨_, rfl, stateInv_of (by decide), by decide, by decide, by decide, by decide, by decide, by decide⟩

set_option maxRecDepth 20000 in
theorem witness_PixelWaitsForTheSink_flush_4 :
    ∃ s : State, s = inFrameFree 1 1 0 0 16 [.ok, .ok, .ok, .ok, .never] ∧
    StateInv s ∧ Passes (.pixel (5#32).toNat) s ∧ AnswersOk 4 s ∧ s.answerAt 4 = .never ∧
    s.pixIdx.toNat + 1 = s.length ∧
    appendedBytes (pixelBits (5#32).toNat s ++ closingBits (5#32).toNat s) s ≤ 4 ∧
    4 < flushedBytes (pixelBits (5#32).toNat s ++ closingBits (5#32).toNat s) s := by
  exact ⟨_, rfl, stateInv_of (by decide), by decide, by decide, by decide, by decide, by decide, by decide⟩

/-! ## Responses, rejections, aborts -/

theorem witness_RejectionChangesOnlyLastResp :
    ∃ t, runWord 0x9000000000000000 (idle 1 1) = .next t ∧ t.inFlight = none ∧ t.lastResp.isReject = true := by
  exact ⟨_, rfl, rfl, rfl⟩

theorem witness_IllegalStateRejected :
    legalIn (.frameStart 1 1) (bypass 0 32 []).phase = false ∧ legalIn (.frameStart 1 1) (idle 1 1).phase = true ∧
    ∃ t, exec (.frameStart 1 1) (idle 1 1) = .next t ∧ t.inFlight = none := ⟨rfl, rfl, _, rfl, rfl⟩

theorem witness_ConditionPriority :
    decode 0x9000000000000000 = .reserved .opcode ∧
    legalIn (.putBits 40 0) (inFrame 1 1 0 0 []).phase = false ∧
    (legalIn (.putBits 40 0) (bypass 0 32 []).phase = true ∧ badOperand (.putBits 40 0) (bypass 0 32 []) = true) ∧
    (legalIn (.frameStart 2 1) (idlePending 2 2 0 0).phase = true ∧
    badOperand (.frameStart 2 1) (idlePending 2 2 0 0) = false ∧
      mismatched (.frameStart 2 1) (idlePending 2 2 0 0) = true) ∧
    (legalIn (.config 1 1) (idlePending 2 2 0 0).phase = true ∧
    badOperand (.config 1 1) (idlePending 2 2 0 0) = false ∧
      mismatched (.config 1 1) (idlePending 2 2 0 0) = false ∧
    blockedByPending (.config 1 1) (idlePending 2 2 0 0) = true) := by decide

theorem witness_ConditionPriority_overflow :
    (legalIn (.encDelta (-2147483648)) (bypass 0 32 []).phase = true ∧
    overflows (.encDelta (-2147483648)) (bypass 0 32 []) = true ∧
      badOperand (.encDelta (-2147483648)) (bypass 0 32 []) = false) ∧
    (legalIn (.pixel 1) (inFrameEsc4 300 1 271 271).phase = true ∧
    badOperand (.pixel 1) (inFrameEsc4 300 1 271 271) = false ∧
      overflows (.pixel 1) (inFrameEsc4 300 1 271 271) = true) ∧
    Passes (.putBits 32 0) (bypass 0 32 []) ∧ (∃ t, exec (.putBits 32 0) (bypass 0 32 []) = .next t ∧
    t.inFlight = none) := ⟨by decide, by decide, by decide, _, rfl, rfl⟩

theorem witness_AbortEntry :
    (∃ t, exec (.putBits 1 1) (bypass 0xDEADBEEF 0 [.err]) = .next t ∧ t.phase = .error) ∧
    (bypass 0xDEADBEEF 0 [.err]).phase ≠ .error ∧
    ∃ t, exec (.pixel 1) (inFrameEsc4 300 1 271 271) = .next t ∧ t.phase = .error := by
  exact ⟨⟨_, rfl, rfl⟩, by decide, _, rfl, rfl⟩

theorem witness_ErrorHoldsUntilClearOrReset :
    (inError 1 1).phase = .error ∧ (inError 1 1).resetLine = false ∧ Instr.flush ≠ .nop ∧ Instr.flush ≠ .clear ∧
    (∃ t, step (withWord 0x5000000000000000 (inError 1 1)) = .next t) ∧
    ∀ word rest, (withWord 0x5000000000000000 (inError 1 1)).port = word :: rest → decode word ≠ .instr .clear := by
  refine ⟨rfl, rfl, by decide, by decide, ⟨_, rfl⟩, fun word rest h => ?_⟩
  cases h
  decide

theorem witness_PhaseTransitions :
    StateInv (withWord 0x1000000000020002 (State.resetWith params)) ∧
    (∃ t, step (withWord 0x1000000000020002 (State.resetWith params)) = .next t ∧
      t.phase ≠ (withWord 0x1000000000020002 (State.resetWith params)).phase) ∧
    StateInv (resetting none) ∧ ∃ t, step (resetting none) = .next t ∧ t.phase ≠ (resetting none).phase := by
  exact ⟨stateInv_of (by decide), ⟨_, rfl, by decide⟩, stateInv_of (by decide), _, rfl, by decide⟩

/-! ## What commands leave alone -/

theorem witness_CountersCountAcceptedBytes :
    (∃ t, exec (.config 1 1) (idle 2 2) = .next t) ∧ Passes (.config 1 1) (idle 2 2) ∧
    (∃ t, exec (.frameStart 2 2) (idle 2 2) = .next t) ∧ Passes (.frameStart 2 2) (idle 2 2) ∧
    (∃ t, exec .flush (bypass 0xDEADBEEF 0 [.ok, .err]) = .next t) ∧ ¬ Passes (.frameStart 2 1) (idle 2 2) := by
  exact ⟨⟨_, rfl⟩, by decide, ⟨_, rfl⟩, by decide, ⟨_, rfl⟩, by decide⟩

theorem witness_OnlyConfigWritesGeometry :
    (Instr.config 65535 65535).wellFormed = true ∧ ∃ t, exec (.config 65535 65535) (idle 2 2) = .next t := by
  exact ⟨rfl, _, rfl⟩

theorem witness_PixIdxAdvancesByAcceptedPixels :
    ∃ t, exec (.pixel 0) (inFrame 2 1 0 0 []) = .next t ∧ Passes (.pixel 0) (inFrame 2 1 0 0 []) ∧ t.inFlight = none ∧
    t.lastResp = .ok := ⟨_, rfl, by decide, rfl, rfl⟩

set_option maxRecDepth 20000 in
theorem witness_PrevIsTheLastValidSample_valid :
    65535 ≠ (inFrame 2 1 0 0 [.ok, .ok, .ok, .ok]).params.invalidMarker ∧
    Passes (.pixel 65535) (inFrame 2 1 0 0 [.ok, .ok, .ok, .ok]) ∧
    ∃ t, exec (.pixel 65535) (inFrame 2 1 0 0 [.ok, .ok, .ok, .ok]) = .next t ∧ t.inFlight = none ∧ t.lastResp = .ok := by
  exact ⟨by decide, by decide, _, rfl, rfl, rfl⟩

theorem witness_PrevIsTheLastValidSample_init :
    (∃ t, exec (.pixel 0) (inFrame 2 1 0 0 []) = .next t) ∧ (inFrame 2 1 0 0 []).params.invalidMarker = 0 ∧
    Passes (.config 1 1) (idle 2 2) ∧ Passes (.frameStart 2 2) (idle 2 2) ∧ Passes .clear (inError 1 1) ∧
    (∃ t, exec (.config 1 1) (idle 2 2) = .next t) ∧ ∃ t, exec .clear (inError 1 1) = .next t := by
  exact ⟨⟨_, rfl⟩, rfl, by decide, by decide, by decide, ⟨_, rfl⟩, _, rfl⟩

theorem witness_BypassLeavesRunState :
    ∃ t, exec .flush (bypass 0xDEADBEEF 0 [.ok, .err]) = .next t := ⟨_, rfl⟩

set_option maxRecDepth 20000 in
theorem witness_DoneMarksCompletedFrame :
    StateInv (inFrame 1 1 0 0 [.ok, .ok, .ok]) ∧ (inFrame 1 1 0 0 [.ok, .ok, .ok]).phase = .frame ∧
    (∃ t, exec (.pixel 0) (inFrame 1 1 0 0 [.ok, .ok, .ok]) = .next t ∧ t.done = true ∧ t.phase = .idle) ∧
    (inFrame 1 1 0 0 [.ok, .ok, .ok]).done = false ∧ StateInv (idle 65535 65535) ∧
    Passes (.frameStart 65535 65535) (idle 65535 65535) ∧
    StateInv (bypass 0xDEADBEEF 0 [.err]) ∧ ∃ t, exec .flush (bypass 0xDEADBEEF 0 [.err]) = .next t ∧ t.phase = .error := by
  exact ⟨stateInv_of (by decide), rfl, ⟨_, rfl, by decide, rfl⟩, rfl, stateInv_idle, by decide, stateInv_of (by decide), _, rfl, rfl⟩

/-! ## The BitWriter and the Huffman encoder -/

theorem witness_EmitByteCountsAcceptedBytes :
    (bypass 0 32 [.ok]).answerAt 0 = .ok ∧ (bypass 0 32 [.err]).answerAt 0 = .err ∧
    (bypass 0 32 [.never]).answerAt 0 = .never := by decide

theorem witness_LazyEmission :
    32 ≤ (bypass 0 32 []).free.toNat ∧ 0 ≤ (bypass 0xDEADBEEF 0 []).free.toNat ∧
    AccOk (bypass 0xDEADBEEF 0 [.ok, .ok, .ok, .ok]) ∧ (bypass 0xDEADBEEF 0 [.ok, .ok, .ok, .ok]).free.toNat < 1 ∧
    32 ≤ (bypass 0xDEADBEEF 0 [.ok, .ok, .ok, .ok]).params.accWidth ∧
    (∃ t, putBits 1 1 (bypass 0xDEADBEEF 0 [.ok, .ok, .ok, .ok]) = .going t) ∧
    (∃ t, putBits 32 1 (bypass 0xDEADBEEF 0 [.ok, .ok, .ok, .ok]) = .going t) ∧
    ∃ t, flushBits (bypass 0xDEADBEEF 0 [.ok, .ok, .ok, .ok]) = .going t := by
  exact ⟨by decide, by decide, by decide, by decide, by decide, ⟨_, rfl⟩, ⟨_, rfl⟩, _, rfl⟩

theorem witness_StreamLaw :
    AccOk (bypass 0 32 [.ok, .ok, .ok, .ok]) ∧
    (bypass 0 32 [.ok, .ok, .ok, .ok]).free.toNat = (bypass 0 32 [.ok, .ok, .ok, .ok]).params.accWidth ∧
    (∀ nv ∈ [(32, 0xDEADBEEF), (0, 1)], nv.1 ≤ (bypass 0 32 [.ok, .ok, .ok, .ok]).params.accWidth) ∧
    AnswersOk (((putAllBits [(32, 0xDEADBEEF), (0, 1)]).length + 7) / 8) (bypass 0 32 [.ok, .ok, .ok, .ok]) ∧
    [(32, 0xDEADBEEF)] <+: [(32, 0xDEADBEEF), (0, 1)] := by decide

theorem witness_DeltaRawIsABijection :
    (0 : Int) < 1 ∧ (0 : Int) < 2147483647 ∧ (-1 : Int) < 0 ∧ (-2147483648 : Int) < 0 ∧ 1 ≤ 31 ∧ 1 ≤ 1 := by decide

theorem witness_FrameDeltaNeverOverflows :
    65535 < 2 ^ params.sampleBits ∧ 0 < 2 ^ params.sampleBits := by decide

theorem witness_RunCategories :
    params.runEscBits = 32 ∧ 4294967295 < 2 ^ 32 ∧ paramsEsc4.runEscBits < 32 := by decide

set_option maxRecDepth 20000 in
/-- TB_DELTA is prefix-free (spec/95 §1). -/
theorem prefixFree_tbDelta :
    prefixFree 32 params.deltaCb := by decide

/-- TB_RUN is prefix-free: 256 distinct strings of one length (spec/95 §1). -/
theorem prefixFree_tbRun : prefixFree 256 params.runCb := by
  have hg : ∀ c : Fin 256, params.runCb.get c = tbRunEntry c := by
    intro c
    show tbRun.get c = _
    simp [tbRun, Vector.get_eq_getElem]
  have hn : ∀ c : Fin 256, (tbRunEntry c).bits.toNat = c.val := by
    intro c
    show c.val % 2 ^ 32 = c.val
    omega
  intro i j hij h
  rw [hg, hg] at h
  have h8 : bitsN 8 i.val = bitsN 8 j.val := by
    have := h.eq_of_length (by simp [codeword, tbRunEntry])
    unfold codeword at this
    rwa [hn, hn] at this
  have := bitsN_inj h8
  exact hij (Fin.ext (by omega))

theorem witness_SymbolsDecodable :
    prefixFree 256 params.runCb ∧ prefixFree 32 params.deltaCb ∧ runOverflow params 0 = false ∧
    runOverflow params 4294967295 = false ∧ deltaOverflow 2147483647 = false ∧ deltaOverflow (-2147483647) = false ∧
    (-2147483648 : Int) ≠ 0 ∧ 255 ≤ 255 := by
  exact ⟨prefixFree_tbRun, prefixFree_tbDelta, by decide, by decide, by decide, by decide, by decide, by decide⟩

/-! ## Runs -/

theorem witness_StepKeepsInvariant :
    StateInv (State.resetWith params) ∧ ∃ t, step (State.resetWith params) = .next t := ⟨stateInv_reset, _, rfl⟩

/-- A run from reset: CONFIG 1, 1 and FRAME_START 1, 1. -/
theorem reachable_frame (answers : List SinkAnswer) :
    Reachable params
      { inFrame 1 1 0 0 answers with sink := [] } := by
  refine .step _ _ (.step _ _ (.environment _ [0x1000000000010001, 0x2000000000010001] answers false .reset) rfl) ?_
  rfl

set_option maxRecDepth 20000 in
theorem witness_ReachableStatesMeetR38 :
    Reachable params (State.resetWith params) ∧ (State.resetWith params).phase = .unconf ∧
    Reachable params (inFrame 1 1 0 0 [.ok, .ok, .ok]) ∧ (inFrame 1 1 0 0 [.ok, .ok, .ok]).inFlight = none ∧
    (inFrame 1 1 0 0 [.ok, .ok, .ok]).phase = .frame ∧
    ∃ t, exec (.pixel 0) (inFrame 1 1 0 0 [.ok, .ok, .ok]) = .next t ∧ t.phase = .idle ∧ t.done = true := by
  exact ⟨.reset, rfl, reachable_frame [.ok, .ok, .ok], rfl, rfl, _, rfl, by decide, by decide⟩

theorem witness_FrameGrammar :
    1 ≠ params.invalidMarker := by decide

/-- The words of FRAME for one sample, and one more word behind them. -/
def frameReadyState (p : Params) (sample : Nat) : State :=
  { State.resetWith p with
    phase := .idle
    cfgW := 1
    cfgH := 1
    port := [encode (.frameStart 1 1), encode (.pixel sample), 0]
    sinkAnswers := [.ok, .ok, .ok] }

set_option maxRecDepth 20000 in
theorem frameReady_valid : FrameReady [5] [0] (frameReadyState params 5) where
  inv := stateInv_of (by decide)
  empty := by decide
  idle := by decide
  running := by decide
  port := by decide
  full := by decide
  fits := by decide
  noOverflow := by
    intro r hr
    have : Symbol.run r = .run 0 := by simpa [frameSymbols, symbolsFrom, validSample, frameReadyState, params,
      Params.default, State.resetWith] using hr
    cases this
    decide
  answers := by decide

set_option maxRecDepth 20000 in
theorem frameReady_invalid : FrameReady [0] [0] (frameReadyState params 0) where
  inv := stateInv_of (by decide)
  empty := by decide
  idle := by decide
  running := by decide
  port := by decide
  full := by decide
  fits := by decide
  noOverflow := by
    intro r hr
    have : Symbol.run r = .run 1 := by simpa [frameSymbols, symbolsFrom, validSample, frameReadyState, params,
      Params.default, State.resetWith] using hr
    cases this
    decide
  answers := by decide

set_option maxRecDepth 20000 in
theorem frameReady_wide : FrameReady [5] [0] (frameReadyState params64 5) where
  inv := stateInv_of (by decide)
  empty := by decide
  idle := by decide
  running := by decide
  port := by decide
  full := by decide
  fits := by decide
  noOverflow := by
    intro r hr
    have : Symbol.run r = .run 0 := by simpa [frameSymbols, symbolsFrom, validSample, frameReadyState, params64, params,
      Params.default, State.resetWith] using hr
    cases this
    decide
  answers := by decide

theorem witness_FrameWritesItsBitstream :
    FrameReady [5] [0] (frameReadyState params 5) ∧ FrameReady [0] [0] (frameReadyState params 0) := by
  exact ⟨frameReady_valid, frameReady_invalid⟩

theorem witness_FrameDeterminism :
    FrameReady [5] [0] (frameReadyState params 5) ∧ FrameReady [5] [0] (frameReadyState params64 5) ∧
    params.prevInit = params64.prevInit ∧ params.invalidMarker = params64.invalidMarker ∧
    params.runEscBits = params64.runEscBits ∧ params.deltaCb = params64.deltaCb ∧ params.runCb = params64.runCb := by
  exact ⟨frameReady_valid, frameReady_wide, rfl, rfl, rfl, rfl, rfl⟩

theorem witness_FramesSelfDelimiting :
    prefixFree 32 params.deltaCb ∧ prefixFree 256 params.runCb ∧ (∀ v ∈ [5], v < 2 ^ params.sampleBits) ∧
    (∀ r, Symbol.run r ∈ frameSymbols params [5] → runOverflow params r = false) ∧
    frameBits params [5] ++ [true] = frameBits params [5] ++ [true] := by
  exact ⟨prefixFree_tbDelta, prefixFree_tbRun, by decide, frameReady_valid.noOverflow, rfl⟩

set_option maxRecDepth 20000 in
theorem witness_SinkBytesDetermineTheFrame :
    FrameReady [5] [0] (frameReadyState params 5) ∧ prefixFree 32 params.deltaCb ∧ prefixFree 256 params.runCb ∧
    ∃ t, Host.Core.run core ([5].length + 1) (frameReadyState params 5) = .next t ∧
      t.sink.drop (frameReadyState params 5).sink.length <+: t.sink.drop (frameReadyState params 5).sink.length := by
  exact ⟨frameReady_valid, prefixFree_tbDelta, prefixFree_tbRun, _, rfl, List.prefix_rfl⟩

end Sys2Proof.Tests
end

section
/-! The parameters and the codebook reads (spec/00 R6, R8, spec/20 R61, spec/70 R237). -/

namespace Sys2Proof.Machine

/-- The index of a ROM read is taken modulo the table's size, which changes no index in range. -/
theorem romGet_of_lt {n : Nat} [NeZero n] (rom : Vector Entry n) {i : Nat} (h : i < n) :
    rom.get (Fin.ofNat n i) = rom[i] := by
  have hidx : Fin.ofNat n i = ⟨i, h⟩ := Fin.ext (Nat.mod_eq_of_lt h)
  rw [hidx, Vector.get_eq_getElem]

theorem cbDelta_of_lt (p : Params) {k : Nat} (h : k < 32) : cbDelta p k = p.deltaCb[k] :=
  romGet_of_lt p.deltaCb h

theorem cbRun_of_lt (p : Params) {c : Nat} (h : c < 256) : cbRun p c = p.runCb[c] :=
  romGet_of_lt p.runCb h

/-- Settles O1: `Params` and `Entry` carry their constraints, and a codebook read is the table's entry. -/
theorem parametersMeetTheirConstraints : Obligations.ParametersMeetTheirConstraints := by
  unfold Obligations.ParametersMeetTheirConstraints
  intro p
  obtain ⟨haccWidth, hsampleBits, hinvalidMarker, hprevInit, hrunEscBits⟩ := p.legal
  have hdelta : ∀ k, entryLegal (cbDelta p k).bits (cbDelta p k).len := fun k => (cbDelta p k).legal
  have hrun : ∀ c, entryLegal (cbRun p c).bits (cbRun p c).len := fun c => (cbRun p c).legal
  exact ⟨haccWidth, hsampleBits, hinvalidMarker, hprevInit, hrunEscBits, hdelta, hrun,
    fun _ => cbDelta_of_lt p, fun _ => cbRun_of_lt p⟩

end Sys2Proof.Machine
end

section
/-! The state elements, their reset values and the register port (spec/10 R33 to R37, spec/70 R243). -/

namespace Sys2Proof.Machine

/-! ## Values of the state elements -/

/-- LENGTH is "held in 32 bits without wrap" (spec/10 R22). -/
theorem State.length_lt (s : State) : s.length < 2 ^ 32 := by
  have hw := s.cfgW.isLt
  have hh := s.cfgH.isLt
  calc s.length ≤ (2 ^ 16 - 1) * (2 ^ 16 - 1) := Nat.mul_le_mul (by omega) (by omega)
    _ < 2 ^ 32 := by norm_num

theorem State.accEmpty_iff (s : State) : s.accEmpty = true ↔ s.free.toNat = s.params.accWidth := by
  simp [State.accEmpty]

theorem accWidth_toNat (p : Params) : (BitVec.ofNat 7 p.accWidth).toNat = p.accWidth :=
  ofNat7_toNat p.accWidth_le

/-- A value of SAMPLE_BITS bits fits PREV (spec/10 R26). -/
theorem ofNat31_toNat {p : Params} {x : Nat} (hx : x < 2 ^ p.sampleBits) : (BitVec.ofNat 31 x).toNat = x :=
  Nat.mod_eq_of_lt (sample_lt hx)

theorem prevInit_toNat (p : Params) : (BitVec.ofNat 31 p.prevInit).toNat = p.prevInit :=
  ofNat31_toNat p.prevInit_lt

theorem invalidMarker_lt (p : Params) : p.invalidMarker < 2 ^ p.sampleBits := p.legal.2.2.1

/-- Settles O2: the reset state is the table of spec/10 R37, and the two values it holds in narrower fields fit. -/
theorem resetValues : Obligations.ResetValues := by
  unfold Obligations.ResetValues
  refine ⟨fun p => ?_, rfl, rfl, rfl, rfl, rfl, rfl⟩
  exact ⟨rfl, rfl, rfl, rfl, rfl, rfl, prevInit_toNat p, rfl, accWidth_toNat p, rfl, rfl, rfl, rfl, rfl, rfl, rfl⟩

/-! ## Words and their halves -/

theorem highHalf_toNat (x : BitVec 64) : ((x >>> 32).setWidth 32).toNat = x.toNat / 2 ^ 32 := by
  have := x.isLt
  rw [BitVec.toNat_setWidth, BitVec.toNat_ushiftRight, Nat.shiftRight_eq_div_pow]
  omega

/-- The two halves of a 64-bit value join to it (spec/10 R35). -/
theorem append_halves (x : BitVec 64) : ((x >>> 32).setWidth 32 ++ x.setWidth 32 : BitVec 64) = x := by
  apply BitVec.eq_of_toNat_eq
  rw [toNat_append_eq, highHalf_toNat, BitVec.toNat_setWidth]
  omega

theorem ofNat32_toNat_sample {p : Params} {x : Nat} (hx : x < 2 ^ p.sampleBits) : (BitVec.ofNat 32 x).toNat = x :=
  Nat.mod_eq_of_lt (lt_trans (sample_lt hx) (by norm_num))

theorem param0Word_toNat (p : Params) :
    (param0Word p).toNat = p.accWidth + p.sampleBits * 2 ^ 8 + p.runEscBits * 2 ^ 16 := by
  have hacc := p.accWidth_le
  have hsample := p.sampleBits_le
  have hesc := p.runEscBits_le
  unfold param0Word
  simp only [toNat_append_eq, BitVec.toNat_ofNat]
  omega

/-! ## The register map -/

/-- "A read at an address that is not a multiple of 4, or that is ≥ 0x40, returns 0" (spec/10 R33). -/
theorem regRead_unmapped (s : State) {a : Byte} (ha : a.toNat % 4 ≠ 0 ∨ 0x40 ≤ a.toNat) : s.regRead a = 0 := by
  unfold State.regRead
  split
  case h_17 => rfl
  all_goals omega

/-- The codebooks are not visible at the register port (spec/10 R33). -/
theorem regRead_codebooks (s : State) (a : Byte) (deltaCb : Vector Entry 32) (runCb : Vector Entry 256) :
    ({ s with params := { s.params with deltaCb := deltaCb, runCb := runCb } } : State).regRead a = s.regRead a :=
  rfl

theorem regRead_length (s : State) : (s.regRead 0x08).toNat = s.cfgW.toNat * s.cfgH.toNat :=
  Nat.mod_eq_of_lt s.length_lt

theorem regRead_accHigh (s : State) :
    (s.regRead 0x1C).toNat = if 32 < s.params.accWidth then s.acc.toNat / 2 ^ 32 else 0 := by
  show (if _ then _ else _ : BitVec 32).toNat = _
  split
  · exact highHalf_toNat s.acc
  · rfl

/-- Settles O5: each address selects its row, and each row's value is its element's. -/
theorem registerMap : Obligations.RegisterMap := by
  unfold Obligations.RegisterMap
  intro s
  exact ⟨rfl, toNat_append_eq s.cfgW s.cfgH, regRead_length s, rfl, rfl,
    BitVec.toNat_setWidth_of_le (by norm_num), BitVec.toNat_setWidth 32 s.acc, regRead_accHigh s,
    BitVec.toNat_setWidth_of_le (by norm_num), BitVec.toNat_setWidth 32 s.frameBytes, highHalf_toNat s.frameBytes,
    BitVec.toNat_setWidth 32 s.totalBytes, highHalf_toNat s.totalBytes, param0Word_toNat s.params,
    ofNat32_toNat_sample (invalidMarker_lt s.params), ofNat32_toNat_sample s.params.prevInit_lt,
    fun _ => regRead_unmapped s, regRead_codebooks s⟩

/-! ## STATUS -/

/-- The value of STATUS: each field at its place (spec/10 R34). -/
theorem statusWord_toNat (s : State) :
    s.statusWord.toNat = (causeCode s.errCause).toNat * 2 ^ 16 + s.lastResp.code.toNat * 2 ^ 8 +
      s.accEmpty.toNat * 2 ^ 3 + s.done.toNat * 2 ^ 2 + s.phase.code.toNat := by
  unfold State.statusWord
  simp only [toNat_append_eq, BitVec.toNat_ofBool, BitVec.toNat_zero]
  omega

theorem extractLsb'_eq_iff {n k : Nat} (x : BitVec n) (lo : Nat) (y : BitVec k) :
    x.extractLsb' lo k = y ↔ x.toNat / 2 ^ lo % 2 ^ k = y.toNat := by
  rw [← BitVec.toNat_inj, BitVec.extractLsb'_toNat, Nat.shiftRight_eq_div_pow]

/-- A field of one bit. -/
theorem getLsbD_eq_of_div_mod {n : Nat} {x : BitVec n} {i : Nat} {b : Bool} (h : x.toNat / 2 ^ i % 2 = b.toNat) :
    x.getLsbD i = b := by
  rw [← BitVec.testBit_toNat, Nat.testBit_eq_decide_div_mod_eq, h]
  cases b <;> rfl

/-- Settles O6: the fields are read off STATUS's value by division, since each code fits its field. -/
theorem statusFields : Obligations.StatusFields := by
  unfold Obligations.StatusFields
  refine ⟨⟨rfl, rfl, rfl, rfl, rfl, rfl, rfl, rfl, rfl⟩, ⟨rfl, rfl, rfl⟩, fun s => ?_⟩
  have hword := statusWord_toNat s
  have hcause := (causeCode s.errCause).isLt
  have hresp := s.lastResp.code.isLt
  have hphase := s.phase.code.isLt
  have hdone := s.done.toNat_le
  have hempty := s.accEmpty.toNat_le
  have hbit2 : s.statusWord.getLsbD 2 = s.done := getLsbD_eq_of_div_mod (by omega)
  have hbit3 : s.statusWord.getLsbD 3 = s.accEmpty := getLsbD_eq_of_div_mod (by omega)
  simp only [extractLsb'_eq_iff, hbit3, s.accEmpty_iff, BitVec.ofNat_eq_ofNat, BitVec.toNat_zero]
  refine ⟨?_, hbit2, trivial, ?_, ?_, ?_, ?_⟩ <;> omega

/-! ## Reads of the host -/

/-- Settles O7: a counter's two registers are its halves, and a read is the map's unless a command overlaps it. -/
theorem registerReadsBetweenCommands : Obligations.RegisterReadsBetweenCommands := by
  unfold Obligations.RegisterReadsBetweenCommands
  intro s draw a
  refine ⟨append_halves s.frameBytes, append_halves s.totalBytes, fun hidle => ?_, fun hwaits => ?_, rfl⟩
  · simp [State.hostRead, hidle]
  · have : s.inFlight.isSome = true := Option.isSome_iff_ne_none.mpr hwaits
    simp [State.hostRead, this]

end Sys2Proof.Machine
end

section
/-! What a command that emits keeps of the state it started from, however it ends (spec/10 R20 to R31). -/

namespace Sys2Proof.Machine

/-! ## The elements an emission keeps -/

/-- What `t` has of `u` when the sink accepted `bs` in between and the command has then responded, aborted or begun
to wait: the elements that no emission writes, and the counters that count its bytes. -/
structure Delivers (bs : List Byte) (u t : State) : Prop where
  params : t.params = u.params
  cfgW : t.cfgW = u.cfgW
  cfgH : t.cfgH = u.cfgH
  pixIdx : t.pixIdx = u.pixIdx
  runLen : t.runLen = u.runLen
  prev : t.prev = u.prev
  sink : t.sink = u.sink ++ bs
  totalBytes : t.totalBytes = u.totalBytes + BitVec.ofNat 64 bs.length
  frameBytes : t.frameBytes = if u.phase = .frame then u.frameBytes + BitVec.ofNat 64 bs.length else u.frameBytes

theorem Delivers.responded {u t : State} {bs : List Byte} {code : Resp}
    (h : t = ((u.afterBytes bs).withAccOf t).respond code) : Delivers bs u t := by
  constructor <;> rw [h] <;> rfl

theorem Delivers.stopped (u : State) (bs : List Byte) : Delivers bs u ((u.afterBytes bs).drawAnswer.abort .sink) := by
  constructor <;> rfl

theorem Delivers.held {u t : State} {bs : List Byte} {b : Byte}
    (h : t = ((u.afterBytes bs).drawAnswer.holdByte b).withAccOf t) : Delivers bs u t := by
  constructor <;> rw [h] <;> rfl

theorem Delivers.completed (u : State) (bs : List Byte) :
    Delivers bs u ((u.afterBytes bs).emptyAcc.finishFrame.respond .ok) := by
  constructor <;> rfl

theorem Delivers.length {u t : State} {bs : List Byte} (h : Delivers bs u t) : t.length = u.length := by
  unfold State.length
  rw [h.cfgW, h.cfgH]

/-! ## How an emission ends -/

/-- The control state after an emission from `u`: it responded OK, or ABORT_SINK was taken, or it waits for the sink,
which leaves the control state as it was (spec/60 R200, R205, spec/70 R244). -/
inductive Closes (u t : State) : Prop where
  | ok (phase : t.phase = u.phase) (done : t.done = u.done) (errCause : t.errCause = u.errCause)
      (inFlight : t.inFlight = u.inFlight) (lastResp : t.lastResp = .ok)
  | aborted (phase : t.phase = .error) (done : t.done = false) (errCause : t.errCause = some .sink)
      (lastResp : t.lastResp = .abortSink)
  | waiting (phase : t.phase = u.phase) (done : t.done = u.done) (errCause : t.errCause = u.errCause)
      (inFlight : t.inFlight ≠ none)

theorem Closes.responded {u t : State} {bs : List Byte}
    (h : t = ((u.afterBytes bs).withAccOf t).respond .ok) : Closes u t := by
  refine .ok ?_ ?_ ?_ ?_ ?_ <;> rw [h] <;> rfl

theorem Closes.stopped {u : State} (bs : List Byte) : Closes u ((u.afterBytes bs).drawAnswer.abort .sink) :=
  .aborted rfl rfl rfl rfl

theorem Closes.held {u t : State} {bs : List Byte} {b : Byte}
    (h : t = ((u.afterBytes bs).drawAnswer.holdByte b).withAccOf t) : Closes u t := by
  have hflight : t.inFlight = some b := by rw [h]; rfl
  refine .waiting ?_ ?_ ?_ (by simp [hflight]) <;> rw [h] <;> rfl

/-- A bypass command's emission starts from the state it was given. -/
theorem Ends.outcome {s t : State} (h : Ends s t) : ∃ bs, Delivers bs s t ∧ Closes s t := by
  cases h with
  | done t bs h => exact ⟨bs, .responded h, .responded h⟩
  | aborted bs => exact ⟨bs, .stopped s bs, .stopped bs⟩
  | waiting t bs b h => exact ⟨bs, .held h, .held h⟩

/-! ## A PIXEL's own writes -/

theorem consume_of_invalid {x : Nat} {s : State} (h : x = s.params.invalidMarker) :
    s.consume x = { s with runLen := s.runLen + 1, pixIdx := s.pixIdx + 1 } := if_pos h

theorem consume_of_valid {x : Nat} {s : State} (h : x ≠ s.params.invalidMarker) :
    s.consume x = { s with runLen := 0, prev := BitVec.ofNat 31 x, pixIdx := s.pixIdx + 1 } := if_neg h

@[simp] theorem consume_phase (x : Nat) (s : State) : (s.consume x).phase = s.phase := by rw [consume_frame]
@[simp] theorem consume_cfgW (x : Nat) (s : State) : (s.consume x).cfgW = s.cfgW := by rw [consume_frame]
@[simp] theorem consume_cfgH (x : Nat) (s : State) : (s.consume x).cfgH = s.cfgH := by rw [consume_frame]
@[simp] theorem consume_done (x : Nat) (s : State) : (s.consume x).done = s.done := by rw [consume_frame]
@[simp] theorem consume_errCause (x : Nat) (s : State) : (s.consume x).errCause = s.errCause := by rw [consume_frame]
@[simp] theorem consume_inFlight (x : Nat) (s : State) : (s.consume x).inFlight = s.inFlight := by rw [consume_frame]
@[simp] theorem consume_sink (x : Nat) (s : State) : (s.consume x).sink = s.sink := by rw [consume_frame]
@[simp] theorem consume_totalBytes (x : Nat) (s : State) : (s.consume x).totalBytes = s.totalBytes := by
  rw [consume_frame]
@[simp] theorem consume_frameBytes (x : Nat) (s : State) : (s.consume x).frameBytes = s.frameBytes := by
  rw [consume_frame]

@[simp] theorem consume_length (x : Nat) (s : State) : (s.consume x).length = s.length := by
  simp [State.length]

theorem consume_prev_valid {x : Nat} {s : State} (h : x ≠ s.params.invalidMarker) :
    (s.consume x).prev = BitVec.ofNat 31 x := by
  rw [consume_of_valid h]

theorem consume_prev_invalid (s : State) : (s.consume s.params.invalidMarker).prev = s.prev := by
  rw [consume_of_invalid rfl]

theorem consume_prev_lt {x : Nat} {s : State} (hprev : s.prev.toNat < 2 ^ s.params.sampleBits)
    (hx : x < 2 ^ s.params.sampleBits) : (s.consume x).prev.toNat < 2 ^ (s.consume x).params.sampleBits := by
  rw [consume_params]
  by_cases h : x = s.params.invalidMarker
  · rw [h, consume_prev_invalid]; exact hprev
  · rw [consume_prev_valid h, ofNat31_toNat hx]; exact hx

theorem consume_runLen_le (x : Nat) (s : State) : (s.consume x).runLen.toNat ≤ s.runLen.toNat + 1 := by
  by_cases h : x = s.params.invalidMarker
  · rw [consume_of_invalid h]; exact (BitVec.toNat_add ..).trans_le (Nat.mod_le _ _)
  · rw [consume_of_valid h]; exact Nat.zero_le _

/-- PIX_IDX does not wrap within a frame (spec/10 R23). -/
theorem consume_pixIdx_toNat {x : Nat} {s : State} (h : s.pixIdx.toNat < s.length) :
    (s.consume x).pixIdx.toNat = s.pixIdx.toNat + 1 := by
  have := s.length_lt
  rw [consume_pixIdx, BitVec.toNat_add]
  exact Nat.mod_eq_of_lt (show s.pixIdx.toNat + 1 < 2 ^ 32 by omega)

/-- A PIXEL past its checks has made its own writes `u` when its emission ends. -/
theorem PixelEnds.delivers {x : Nat} {s t : State} (h : PixelEnds x s t) :
    ∃ u bs, (u = s ∨ u = s.consume x ∨ u = (s.consume x).clearRun) ∧ Delivers bs u t := by
  have hstage : ∀ {u}, PixelWrites x s u → u = s ∨ u = s.consume x ∨ u = (s.consume x).clearRun := by
    intro u hu
    cases hu with
    | none => exact .inl rfl
    | sample => exact .inr (.inl rfl)
    | closing => exact .inr (.inr rfl)
  cases h with
  | consumed t bs hl h => exact ⟨_, bs, .inr (.inl rfl), .responded h⟩
  | completed bs hl => exact ⟨_, bs, .inr (.inr rfl), .completed _ bs⟩
  | aborted u bs hu => exact ⟨u, bs, hstage hu, .stopped u bs⟩
  | waiting t u bs b hu h => exact ⟨u, bs, hstage hu, .held h⟩

/-- A PIXEL that responded OK has consumed its sample. -/
theorem PixelEnds.consumed_of_ok {x : Nat} {s t : State} (h : PixelEnds x s t) (hidle : t.inFlight = none)
    (hok : t.lastResp = .ok) : t.pixIdx = s.pixIdx + 1 ∧ t.prev = (s.consume x).prev := by
  cases h with
  | consumed t bs hl h =>
    have hd : Delivers bs (s.consume x) t := .responded h
    exact ⟨hd.pixIdx.trans (consume_pixIdx x s), hd.prev⟩
  | completed bs hl =>
    have hd := Delivers.completed (s.consume x).clearRun bs
    exact ⟨hd.pixIdx.trans (consume_pixIdx x s), hd.prev⟩
  | aborted u bs hu => exact absurd hok (by simp [AbortCode.resp])
  | waiting t u bs b hu h =>
    have hflight : t.inFlight = some b := by rw [h]; rfl
    exact absurd hidle (by simp [hflight])

/-- A PIXEL's own writes, to RUN_LEN, PREV and PIX_IDX, leave the control state. -/
theorem Closes.of_frame {s u t : State}
    (hu : u = { s with runLen := u.runLen, prev := u.prev, pixIdx := u.pixIdx }) (h : Closes u t) : Closes s t := by
  have hphase : u.phase = s.phase := by rw [hu]
  have hdone : u.done = s.done := by rw [hu]
  have hcause : u.errCause = s.errCause := by rw [hu]
  have hflight : u.inFlight = s.inFlight := by rw [hu]
  cases h with
  | ok h1 h2 h3 h4 h5 => exact .ok (h1.trans hphase) (h2.trans hdone) (h3.trans hcause) (h4.trans hflight) h5
  | aborted h1 h2 h3 h4 => exact .aborted h1 h2 h3 h4
  | waiting h1 h2 h3 h4 => exact .waiting (h1.trans hphase) (h2.trans hdone) (h3.trans hcause) h4

/-- A PIXEL past its checks ends like a bypass command, or it completes the frame. -/
theorem PixelEnds.closes {x : Nat} {s t : State} (h : PixelEnds x s t) :
    Closes s t ∨ (s.atLast = true ∧
      ∃ bs, t = ((s.consume x).clearRun.afterBytes bs).emptyAcc.finishFrame.respond .ok) := by
  cases h with
  | consumed t bs hl h => exact .inl ((Closes.responded h).of_frame (consume_frame x s))
  | completed bs hl => exact .inr ⟨hl, bs, rfl⟩
  | aborted u bs hu => exact .inl ((Closes.stopped bs).of_frame hu.frame)
  | waiting t u bs b hu h => exact .inl ((Closes.held h).of_frame hu.frame)

/-! ## Commands that start over -/

theorem passes_config_iff (w h : Nat) (s : State) :
    Passes (.config w h) s ↔ s.phase.acceptsBypass = true ∧ w ≠ 0 ∧ h ≠ 0 ∧ s.accEmpty = true := by
  cases hp : s.phase <;> simp [Passes, legalIn, badOperand, mismatched, blockedByPending, overflows, hp,
    Phase.acceptsBypass, State.accEmpty_iff, and_assoc]

theorem passes_frameStart_iff (w h : Nat) (s : State) :
    Passes (.frameStart w h) s ↔
      s.phase = .idle ∧ w = s.cfgW.toNat ∧ h = s.cfgH.toNat ∧ s.accEmpty = true := by
  simp [Passes, legalIn, badOperand, mismatched, blockedByPending, overflows, State.accEmpty_iff, and_assoc]

theorem exec_config_of_passes {w h : Nat} {s : State} (hpass : Passes (.config w h) s) :
    exec (.config w h) s = .next ((s.construct w h).respond .ok) := by
  obtain ⟨hp, hw, hh, he⟩ := (passes_config_iff w h s).mp hpass
  simp [exec, execConfig, hp, hw, hh, he]

theorem exec_frameStart_of_passes {w h : Nat} {s : State} (hpass : Passes (.frameStart w h) s) :
    exec (.frameStart w h) s = .next (s.beginFrame.respond .ok) := by
  obtain ⟨hp, hw, hh, he⟩ := (passes_frameStart_iff w h s).mp hpass
  simp [exec, execFrameStart, hp, hw, hh, he]

/-- An accepted CONFIG, FRAME_START or CLEAR starts over: PREV_INIT, PIX_IDX = 0, DONE = 0 (spec/43 R160, R162,
spec/44 R191). -/
theorem exec_restart {i : Instr} {s t : State}
    (hi : (∃ w h, i = .config w h) ∨ (∃ w h, i = .frameStart w h) ∨ i = .clear) (hpass : Passes i s)
    (h : exec i s = .next t) :
    t.prev = BitVec.ofNat 31 s.params.prevInit ∧ t.done = false := by
  rcases hi with ⟨w, h', rfl⟩ | ⟨w, h', rfl⟩ | rfl
  · rw [exec_config_of_passes hpass] at h; cases h; exact ⟨rfl, rfl⟩
  · rw [exec_frameStart_of_passes hpass] at h; cases h; exact ⟨rfl, rfl⟩
  · cases h; exact ⟨rfl, rfl⟩

/-- A PIXEL past its checks (spec/43 R164). -/
theorem exec_pixel_of_passes {x : Nat} {s t : State} (hpass : Passes (.pixel x) s)
    (h : exec (.pixel x) s = .next t) : PixelEnds x s t := by
  obtain ⟨hp, hx, ho⟩ := passes_pixel hpass
  rcases execPixel_cases x s with ⟨hn, -⟩ | ⟨-, hn, -⟩ | ⟨-, -, hn, -⟩ | ⟨-, -, -, u, e, hu⟩
  · exact absurd hp hn
  · omega
  · rw [ho] at hn; cases hn
  · rw [exec, e] at h; cases h; exact hu

/-! ## Counters -/

/-- Every command but an accepted CONFIG or FRAME_START counts the bytes the sink accepts from it (spec/10 R27, R28). -/
theorem exec_counts {i : Instr} {s t : State} (h : exec i s = .next t)
    (hi : ¬ (Passes i s ∧ ((∃ w h, i = .config w h) ∨ ∃ w h, i = .frameStart w h))) :
    ∃ bs : List Byte, t.sink = s.sink ++ bs ∧ t.totalBytes = s.totalBytes + BitVec.ofNat 64 bs.length ∧
      t.frameBytes = if s.phase = .frame then s.frameBytes + BitVec.ofNat 64 bs.length else s.frameBytes := by
  cases exec_ends h with
  | rejected i code hc => exact ⟨[], by simp⟩
  | nop => exact ⟨[], by simp⟩
  | clear => exact ⟨[], by simp⟩
  | config w h' hp hw hh he => exact absurd ⟨(passes_config_iff w h' s).mpr ⟨hp, hw, hh, he⟩, .inl ⟨w, h', rfl⟩⟩ hi
  | frameStart w h' hp hw hh he =>
    exact absurd ⟨(passes_frameStart_iff w h' s).mpr ⟨hp, hw, hh, he⟩, .inr ⟨w, h', rfl⟩⟩ hi
  | bypass i t hi' hp he =>
    obtain ⟨bs, hd, -⟩ := he.outcome
    exact ⟨bs, hd.sink, hd.totalBytes, hd.frameBytes⟩
  | overflow x hp => exact ⟨[], by simp⟩
  | pixel x t hp hx he =>
    obtain ⟨u, bs, hu, hd⟩ := he.delivers
    refine ⟨bs, ?_⟩
    rw [hd.sink, hd.totalBytes, hd.frameBytes]
    rcases hu with rfl | rfl | rfl <;> simp

/-- Settles O39: an accepted CONFIG or FRAME_START emits nothing, and every other command counts its bytes. -/
theorem countersCountAcceptedBytes : Obligations.CountersCountAcceptedBytes := by
  unfold Obligations.CountersCountAcceptedBytes
  intro i s t h
  by_cases hi : Passes i s ∧ ((∃ w h, i = .config w h) ∨ ∃ w h, i = .frameStart w h)
  · refine ⟨[], ?_⟩
    obtain ⟨hpass, ⟨w, h', rfl⟩ | ⟨w, h', rfl⟩⟩ := hi
    · rw [exec_config_of_passes hpass] at h; cases h; simp [hpass]
    · rw [exec_frameStart_of_passes hpass] at h; cases h; simp [hpass]
  · obtain ⟨bs, hsink, htotal, hframe⟩ := exec_counts h hi
    exact ⟨bs, hsink, fun hpass hc => absurd ⟨hpass, .inl hc⟩ hi, fun hpass hf => absurd ⟨hpass, .inr hf⟩ hi,
      fun _ => ⟨htotal, hframe⟩⟩

/-! ## Geometry -/

/-- Settles O40: CONFIG's writes are the only ones to the geometry, and a field's value fits in 16 bits. -/
theorem onlyConfigWritesGeometry : Obligations.OnlyConfigWritesGeometry := by
  unfold Obligations.OnlyConfigWritesGeometry
  intro i s t hwf h
  cases exec_ends h with
  | rejected i code hc => exact .inl ⟨rfl, rfl⟩
  | nop => exact .inl ⟨rfl, rfl⟩
  | clear => exact .inl ⟨rfl, rfl⟩
  | config w h' hp hw hh he =>
    have hfits : w < 2 ^ 16 ∧ h' < 2 ^ 16 := by simpa [Instr.wellFormed] using hwf
    exact .inr ⟨w, h', rfl, rfl, Nat.mod_eq_of_lt hfits.1, Nat.mod_eq_of_lt hfits.2, by omega, by omega⟩
  | frameStart w h' hp hw hh he => exact .inl ⟨rfl, rfl⟩
  | bypass i t hi hp he =>
    obtain ⟨bs, hd, -⟩ := he.outcome
    exact .inl ⟨hd.cfgW, hd.cfgH⟩
  | overflow x hp => exact .inl ⟨rfl, rfl⟩
  | pixel x t hp hx he =>
    obtain ⟨u, bs, hu, hd⟩ := he.delivers
    rw [hd.cfgW, hd.cfgH]
    rcases hu with rfl | rfl | rfl <;> simp

/-! ## PIX_IDX -/

/-- Who writes PIX_IDX (spec/10 R23). -/
theorem exec_pixIdx {i : Instr} {s t : State} (h : exec i s = .next t) :
    t.pixIdx = s.pixIdx ∨
      (∃ x, i = .pixel x ∧ s.phase = .frame ∧ t.pixIdx = s.pixIdx + 1) ∨
      (((∃ w h, i = .config w h) ∨ (∃ w h, i = .frameStart w h) ∨ i = .clear) ∧ t.pixIdx = 0 ∧ t.lastResp = .ok) := by
  cases exec_ends h with
  | rejected i code hc => exact .inl rfl
  | nop => exact .inl rfl
  | clear => exact .inr (.inr ⟨.inr (.inr rfl), rfl, rfl⟩)
  | config w h' hp hw hh he => exact .inr (.inr ⟨.inl ⟨w, h', rfl⟩, rfl, rfl⟩)
  | frameStart w h' hp hw hh he => exact .inr (.inr ⟨.inr (.inl ⟨w, h', rfl⟩), rfl, rfl⟩)
  | bypass i t hi hp he =>
    obtain ⟨bs, hd, -⟩ := he.outcome
    exact .inl hd.pixIdx
  | overflow x hp => exact .inl rfl
  | pixel x t hp hx he =>
    obtain ⟨u, bs, rfl | rfl | rfl, hd⟩ := he.delivers
    · exact .inl hd.pixIdx
    · exact .inr (.inl ⟨x, rfl, hp, hd.pixIdx.trans (consume_pixIdx x s)⟩)
    · exact .inr (.inl ⟨x, rfl, hp, hd.pixIdx.trans (consume_pixIdx x s)⟩)

/-- Settles O41: a PIXEL that responds OK has consumed its sample. -/
theorem pixIdxAdvancesByAcceptedPixels : Obligations.PixIdxAdvancesByAcceptedPixels := by
  unfold Obligations.PixIdxAdvancesByAcceptedPixels
  intro i s t h
  refine ⟨exec_pixIdx h, ?_⟩
  rintro x rfl hpass hidle hok
  exact ((exec_pixel_of_passes hpass h).consumed_of_ok hidle hok).1

/-! ## PREV -/

/-- A PIXEL past its checks leaves PREV or writes its sample, which it does if it is valid and responds OK. -/
theorem PixelEnds.prev {x : Nat} {s t : State} (h : PixelEnds x s t) :
    t.prev = s.prev ∨ (x ≠ s.params.invalidMarker ∧ t.prev = BitVec.ofNat 31 x) := by
  obtain ⟨u, bs, hu, hd⟩ := h.delivers
  have hu' : u.prev = s.prev ∨ u.prev = (s.consume x).prev := by
    rcases hu with rfl | rfl | rfl
    · exact .inl rfl
    · exact .inr rfl
    · exact .inr rfl
  rw [hd.prev]
  rcases hu' with e | e
  · exact .inl e
  · by_cases hx : x = s.params.invalidMarker
    · rw [hx, consume_prev_invalid] at e; exact .inl e
    · exact .inr ⟨hx, e.trans (consume_prev_valid hx)⟩

/-- Who writes PREV, and with what (spec/10 R26). -/
theorem exec_prev {i : Instr} {s t : State} (h : exec i s = .next t) :
    t.prev = s.prev ∨
      (∃ x, i = .pixel x ∧ x ≠ s.params.invalidMarker ∧ x < 2 ^ s.params.sampleBits ∧ s.phase = .frame ∧
        t.prev.toNat = x) ∨
      (((∃ w h, i = .config w h) ∨ (∃ w h, i = .frameStart w h) ∨ i = .clear) ∧
        t.prev.toNat = s.params.prevInit) := by
  have hinit := prevInit_toNat s.params
  cases exec_ends h with
  | rejected i code hc => exact .inl rfl
  | nop => exact .inl rfl
  | clear => exact .inr (.inr ⟨.inr (.inr rfl), hinit⟩)
  | config w h' hp hw hh he => exact .inr (.inr ⟨.inl ⟨w, h', rfl⟩, hinit⟩)
  | frameStart w h' hp hw hh he => exact .inr (.inr ⟨.inr (.inl ⟨w, h', rfl⟩), hinit⟩)
  | bypass i t hi hp he =>
    obtain ⟨bs, hd, -⟩ := he.outcome
    exact .inl hd.prev
  | overflow x hp => exact .inl rfl
  | pixel x t hp hx he =>
    rcases he.prev with e | ⟨hvalid, e⟩
    · exact .inl e
    · exact .inr (.inl ⟨x, rfl, hvalid, hx, hp, by rw [e, ofNat31_toNat hx]⟩)

/-- Settles O42: a PIXEL's only write to PREV is its valid sample, which it has made when it responds OK. -/
theorem prevIsTheLastValidSample : Obligations.PrevIsTheLastValidSample := by
  unfold Obligations.PrevIsTheLastValidSample
  intro i s t h
  refine ⟨exec_prev h, ?_, ?_, fun hi hpass => ?_⟩
  · rintro x rfl hvalid hpass hidle hok
    have hx : x < 2 ^ s.params.sampleBits := (passes_pixel hpass).2.1
    have hprev : t.prev = (s.consume x).prev := ((exec_pixel_of_passes hpass h).consumed_of_ok hidle hok).2
    rw [hprev, consume_prev_valid hvalid, ofNat31_toNat hx]
  · rintro rfl
    rcases exec_prev h with e | ⟨x, hx, hvalid, -⟩ | ⟨⟨_, _, hi⟩ | ⟨_, _, hi⟩ | hi, -⟩
    · exact e
    · exact absurd (Instr.pixel.inj hx).symm hvalid
    all_goals cases hi
  · rw [(exec_restart hi hpass h).1, prevInit_toNat]

end Sys2Proof.Machine
end

section
/-! The invariants of spec/10 R38: reset meets them and every step keeps them. -/

namespace Sys2Proof.Machine

/-! ## Words carry operands that fit -/

theorem checkZero_eq_instr {z : Nat} {i j : Instr} (h : checkZero z j = .instr i) : j = i := by
  unfold checkZero at h
  split at h
  · exact Decoded.instr.inj h
  · cases h

theorem zextField_lt (w : Word) (hi lo : Nat) : zextField w hi lo < 2 ^ (hi - lo + 1) := (w.extractLsb hi lo).isLt

theorem sext32Field_bounds (w : Word) : -2 ^ 31 ≤ sext32Field w ∧ sext32Field w < 2 ^ 31 :=
  ⟨BitVec.le_toInt _, BitVec.toInt_lt⟩

/-- A command that a word decodes to has operands that fit their fields (spec/30 R82 to R85). -/
theorem decode_wellFormed {w : Word} {i : Instr} (h : decode w = .instr i) : i.wellFormed = true := by
  have h16 : operandW w < 2 ^ 16 ∧ operandH w < 2 ^ 16 := ⟨zextField_lt w 31 16, zextField_lt w 15 0⟩
  have h32 : operandA w < 2 ^ 32 := zextField_lt w 31 0
  have hputBits : operandN w < 2 ^ 6 ∧ operandV w < 2 ^ 32 := ⟨zextField_lt w 37 32, zextField_lt w 31 0⟩
  have hdelta : -2 ^ 31 ≤ operandD w ∧ operandD w < 2 ^ 31 := sext32Field_bounds w
  unfold decode at h
  split at h
  case h_10 => cases h
  all_goals
    obtain rfl := checkZero_eq_instr h
    simp only [Instr.wellFormed, Bool.and_eq_true, decide_eq_true_eq, *, and_self]

/-! ## The invariants and single updates -/

/-- The invariants speak of no other element. -/
theorem StateInv.congr {s t : State} (h : StateInv s) (hacc : AccOk t) (hparams : t.params = s.params)
    (hcfgW : t.cfgW = s.cfgW) (hcfgH : t.cfgH = s.cfgH) (hpix : t.pixIdx = s.pixIdx) (hrun : t.runLen = s.runLen)
    (hprev : t.prev = s.prev) (hphase : t.phase = s.phase) (hdone : t.done = s.done)
    (hcause : t.errCause = s.errCause) (hidle : t.inFlight = none → s.inFlight = none) : StateInv t := by
  have hlength : t.length = s.length := by simp only [State.length, hcfgW, hcfgH]
  constructor
  case accOk => exact hacc
  case prev_lt => rw [hprev, hparams]; exact h.prev_lt
  case cfg_both => rw [hcfgW, hcfgH]; exact h.cfg_both
  case unconf_cfg => rw [hphase, hcfgW]; exact h.unconf_cfg
  case configured => rw [hphase, hcfgW]; exact h.configured
  case frame_pos =>
    rw [hphase, hrun, hpix, hlength]
    intro hp
    obtain ⟨hle, hlen, hlt⟩ := h.frame_pos hp
    exact ⟨hle, hlen, fun hn => hlt (hidle hn)⟩
  case run_zero => rw [hphase, hrun]; exact h.run_zero
  case cause => rw [hphase, hcause]; exact h.cause
  case done_idle => rw [hdone, hphase, hpix, hlength]; exact h.done_idle

/-- In ERROR little is asked (spec/10 R38). -/
theorem StateInv.of_error {t : State} (hacc : AccOk t) (hprev : t.prev.toNat < 2 ^ t.params.sampleBits)
    (hcfg : t.cfgW = 0 ↔ t.cfgH = 0) (hphase : t.phase = .error) (hcause : t.errCause ≠ none)
    (hdone : t.done = false) : StateInv t := by
  refine ⟨hacc, hprev, hcfg, ?_, ?_, ?_, ?_, ?_, ?_⟩ <;> simp [hphase, hcause, hdone]

theorem StateInv.respond {s : State} (h : StateInv s) (code : Resp) : StateInv (s.respond code) :=
  h.congr h.accOk rfl rfl rfl rfl rfl rfl rfl rfl rfl id

theorem StateInv.takeWord {s : State} (h : StateInv s) (rest : List Word) : StateInv (s.takeWord rest) :=
  h.congr h.accOk rfl rfl rfl rfl rfl rfl rfl rfl rfl id

theorem StateInv.holdByte {s : State} (h : StateInv s) (b : Byte) : StateInv (s.holdByte b) :=
  h.congr h.accOk rfl rfl rfl rfl rfl rfl rfl rfl rfl (by simp)

theorem StateInv.abort {s : State} (h : StateInv s) (code : AbortCode) : StateInv (s.abort code) :=
  .of_error (accOk_emptyAcc s) h.prev_lt h.cfg_both rfl (by simp) rfl

theorem StateInv.clearRun {s : State} (h : StateInv s) : StateInv s.clearRun where
  accOk := h.accOk
  prev_lt := h.prev_lt
  cfg_both := h.cfg_both
  unconf_cfg := h.unconf_cfg
  configured := h.configured
  frame_pos hp := ⟨Nat.zero_le _, (h.frame_pos hp).2⟩
  run_zero _ := rfl
  cause := h.cause
  done_idle := h.done_idle

theorem prevInit_fits (p : Params) : (BitVec.ofNat 31 p.prevInit).toNat < 2 ^ p.sampleBits := by
  rw [prevInit_toNat]; exact p.prevInit_lt

/-- Settles O53: nothing is pending and nothing is configured after reset. -/
theorem resetMeetsInvariant : Obligations.ResetMeetsInvariant := by
  unfold Obligations.ResetMeetsInvariant
  intro p
  constructor
  case accOk => exact accOk_emptyAcc (State.resetWith p)
  case prev_lt => exact prevInit_fits p
  all_goals simp [State.resetWith]

theorem StateInv.takeReset (s : State) : StateInv s.takeReset :=
  have h := resetMeetsInvariant s.params
  h.congr h.accOk rfl rfl rfl rfl rfl rfl rfl rfl rfl id

/-- CLEAR goes to UNCONF or IDLE as the geometry says (spec/44 R191). -/
theorem StateInv.leaveError {s : State} (h : StateInv s) : StateInv s.leaveError := by
  constructor
  case accOk => exact accOk_emptyAcc s
  case prev_lt => exact prevInit_fits s.params
  case cfg_both => exact h.cfg_both
  all_goals by_cases hc : s.cfgW = 0#16 <;> simp [hc]

theorem ofNat16_eq_zero_iff {n : Nat} (h : n < 2 ^ 16) : BitVec.ofNat 16 n = 0 ↔ n = 0 := by
  rw [← BitVec.toNat_inj]
  exact iff_of_eq (congrArg (· = 0) (Nat.mod_eq_of_lt h))

/-- An accepted CONFIG has a geometry with no zero in it (spec/43 R160). -/
theorem StateInv.construct {s : State} {w h : Nat} (hI : StateInv s) (hp : s.phase.acceptsBypass = true)
    (hw : w ≠ 0) (hh : h ≠ 0) (hw' : w < 2 ^ 16) (hh' : h < 2 ^ 16) : StateInv (s.construct w h) := by
  have hcfgW : (s.construct w h).cfgW ≠ 0 := (ofNat16_eq_zero_iff hw').not.mpr hw
  have hcfgH : (s.construct w h).cfgH ≠ 0 := (ofNat16_eq_zero_iff hh').not.mpr hh
  have hphase : s.phase ≠ .error := by rintro e; rw [e] at hp; cases hp
  constructor
  case accOk => exact hI.accOk
  case prev_lt => exact prevInit_fits s.params
  case cfg_both => exact iff_of_false hcfgW hcfgH
  case configured => exact fun _ => hcfgW
  case cause => exact iff_of_true (by simp) (hI.cause.mp hphase)
  all_goals simp

/-- A frame that begins has a position for each of its samples (spec/43 R162). -/
theorem StateInv.beginFrame {s : State} (h : StateInv s) (hp : s.phase = .idle) : StateInv s.beginFrame := by
  have hcfgW : s.cfgW ≠ 0 := h.configured (.inl hp)
  have hcfgH : s.cfgH ≠ 0 := h.cfg_both.not.mp hcfgW
  have hlength : 0 < s.beginFrame.length :=
    Nat.mul_pos (BitVec.toNat_pos_of_ne_zero hcfgW) (BitVec.toNat_pos_of_ne_zero hcfgH)
  constructor
  case accOk => exact h.accOk
  case prev_lt => exact prevInit_fits s.params
  case cfg_both => exact h.cfg_both
  case configured => exact fun _ => hcfgW
  case frame_pos => exact fun _ => ⟨Nat.le_refl _, Nat.zero_le _, fun _ => hlength⟩
  case cause => exact iff_of_true (by simp) (h.cause.mp (by simp [hp]))
  all_goals simp

/-! ## PIXEL -/

/-- A sample consumed in a frame leaves a later position, or, while a command is in progress, the frame's end. -/
theorem StateInv.consume {x : Nat} {s : State} (h : StateInv s) (hp : s.phase = .frame)
    (hx : x < 2 ^ s.params.sampleBits) (hlt : s.pixIdx.toNat < s.length)
    (hnext : s.inFlight = none → s.pixIdx.toNat + 1 < s.length) : StateInv (s.consume x) := by
  have hpix : (s.consume x).pixIdx.toNat = s.pixIdx.toNat + 1 := consume_pixIdx_toNat hlt
  have hrun := consume_runLen_le x s
  have hle : s.runLen.toNat ≤ s.pixIdx.toNat := (h.frame_pos hp).1
  have hdone : s.done ≠ true := fun hd => by have := (h.done_idle hd).1; rw [hp] at this; cases this
  constructor
  case accOk => exact h.accOk.congr (by rw [consume_frame]) (by rw [consume_frame]) (by rw [consume_frame])
  case prev_lt => exact consume_prev_lt h.prev_lt hx
  case cfg_both => simpa using h.cfg_both
  case unconf_cfg => simp [hp]
  case configured => simpa using h.configured
  case frame_pos =>
    intro _
    rw [hpix, consume_length, consume_inFlight]
    exact ⟨by omega, by omega, hnext⟩
  case run_zero => simp [hp]
  case cause => simpa using h.cause
  case done_idle => simp [hdone]

theorem consume_holdByte (x : Nat) (b : Byte) (s : State) : (s.holdByte b).consume x = (s.consume x).holdByte b := by
  by_cases h : x = s.params.invalidMarker
  · rw [consume_of_invalid (s := s) h, consume_of_invalid (s := s.holdByte b) h]; rfl
  · rw [consume_of_valid (s := s) h, consume_of_valid (s := s.holdByte b) h]; rfl

/-- Wherever a PIXEL stops, the writes it has made keep the invariants of a command in progress. -/
theorem PixelWrites.stateInv {x : Nat} {s u : State} (hu : PixelWrites x s u) (h : StateInv s)
    (hidle : s.inFlight = .none) (hp : s.phase = .frame) (hx : x < 2 ^ s.params.sampleBits) (b : Byte) :
    StateInv (u.holdByte b) := by
  have hheld : StateInv ((s.consume x).holdByte b) := by
    rw [← consume_holdByte]
    exact (h.holdByte b).consume hp hx ((h.frame_pos hp).2.2 hidle) (by simp)
  cases hu with
  | none => exact h.holdByte b
  | sample => exact hheld
  | closing => exact hheld.clearRun

/-- The PIXEL that completes the frame leaves PIX_IDX = LENGTH (spec/10 R29). -/
theorem completed_pixIdx {x : Nat} {s : State} (bs : List Byte) (hl : s.atLast = true) :
    (((s.consume x).clearRun.afterBytes bs).emptyAcc.finishFrame.respond .ok).pixIdx.toNat =
      (((s.consume x).clearRun.afterBytes bs).emptyAcc.finishFrame.respond .ok).length := by
  have hpos : s.pixIdx.toNat + 1 = s.length := (atLast_iff s).mp hl
  have hd := Delivers.completed (s.consume x).clearRun bs
  rw [hd.length, hd.pixIdx]
  show (s.consume x).pixIdx.toNat = (s.consume x).length
  rw [consume_pixIdx_toNat (by omega), consume_length, hpos]

/-- The PIXEL that completes the frame ends in a state with DONE = 1 (spec/43 R166). -/
theorem StateInv.completed {x : Nat} {s t : State} {bs : List Byte} (h : StateInv s) (hp : s.phase = .frame)
    (hx : x < 2 ^ s.params.sampleBits) (hl : s.atLast = true)
    (ht : t = ((s.consume x).clearRun.afterBytes bs).emptyAcc.finishFrame.respond .ok) : StateInv t := by
  have hd : Delivers bs (s.consume x).clearRun t := by rw [ht]; exact .completed _ bs
  have hpix : t.pixIdx.toNat = t.length := by rw [ht]; exact completed_pixIdx bs hl
  have hphase : t.phase = .idle := by rw [ht]; rfl
  have hcause : t.errCause = none := by
    rw [ht]
    show (s.consume x).errCause = none
    rw [consume_errCause]
    exact h.cause.mp (by simp [hp])
  have hcfg : s.cfgW ≠ 0 := h.configured (.inr hp)
  constructor
  case accOk => rw [ht]; exact accOk_emptyAcc (s.consume x)
  case prev_lt => rw [hd.prev, hd.params]; exact consume_prev_lt h.prev_lt hx
  case cfg_both => rw [hd.cfgW, hd.cfgH]; simpa using h.cfg_both
  case unconf_cfg => simp [hphase]
  case configured => intro _; rw [hd.cfgW]; simpa using hcfg
  case frame_pos => simp [hphase]
  case run_zero => intro _; rw [hd.runLen]; rfl
  case cause => simp [hphase, hcause]
  case done_idle => exact fun _ => ⟨hphase, hpix⟩

/-! ## Commands -/

/-- An emission that starts within the invariants ends within them. -/
theorem Delivers.stateInv {u t : State} {bs : List Byte} (hd : Delivers bs u t) (hc : Closes u t) (h : StateInv u)
    (hacc : AccOk t) : StateInv t := by
  have hkeep := h.congr (t := t) hacc hd.params hd.cfgW hd.cfgH hd.pixIdx hd.runLen hd.prev
  cases hc with
  | ok hphase hdone hcause hflight _ => exact hkeep hphase hdone hcause fun hn => hflight ▸ hn
  | aborted hphase hdone hcause _ =>
    refine .of_error hacc ?_ ?_ hphase (by simp [hcause]) hdone
    · rw [hd.prev, hd.params]; exact h.prev_lt
    · rw [hd.cfgW, hd.cfgH]; exact h.cfg_both
  | waiting hphase hdone hcause hflight => exact hkeep hphase hdone hcause fun hn => absurd hn hflight

theorem PixelEnds.stateInv {x : Nat} {s t : State} (he : PixelEnds x s t) (h : StateInv s)
    (hidle : s.inFlight = none) (hp : s.phase = .frame) (hx : x < 2 ^ s.params.sampleBits) (hacc : AccOk t) :
    StateInv t := by
  have hlt : s.pixIdx.toNat < s.length := (h.frame_pos hp).2.2 hidle
  cases he with
  | consumed t bs hl ht =>
    have hnext : s.pixIdx.toNat + 1 ≠ s.length := fun e => by rw [(atLast_iff s).mpr e] at hl; cases hl
    exact (Delivers.responded ht).stateInv (.responded ht) (h.consume hp hx hlt fun _ => by omega) hacc
  | completed bs hl => exact h.completed hp hx hl rfl
  | aborted u bs hu =>
    have hu' := hu.stateInv h hidle hp hx 0
    exact .of_error hacc hu'.prev_lt hu'.cfg_both rfl (by simp) rfl
  | waiting t u bs b hu ht =>
    have hd : Delivers bs u t := .held ht
    have hflight : t.inFlight = some b := by rw [ht]; rfl
    exact (hu.stateInv h hidle hp hx b).congr hacc hd.params hd.cfgW hd.cfgH hd.pixIdx hd.runLen hd.prev
      (by rw [ht]; rfl) (by rw [ht]; rfl) (by rw [ht]; rfl) (by simp [hflight])

/-- Every command that the DFE takes keeps the invariants. -/
theorem exec_stateInv {i : Instr} {s t : State} (hwf : i.wellFormed = true) (hidle : s.inFlight = none)
    (h : StateInv s) (he : exec i s = .next t) : StateInv t := by
  have hacc : AccOk t := exec_accOk h.accOk he
  cases exec_ends he with
  | rejected i code hc => exact h.respond code
  | nop => exact h.respond .ok
  | clear => exact h.leaveError.respond .ok
  | config w h' hp hw hh he =>
    have hfits : w < 2 ^ 16 ∧ h' < 2 ^ 16 := by simpa [Instr.wellFormed] using hwf
    exact (h.construct hp hw hh hfits.1 hfits.2).respond .ok
  | frameStart w h' hp hw hh he => exact (h.beginFrame hp).respond .ok
  | bypass i t hi hp he =>
    obtain ⟨bs, hd, hc⟩ := he.outcome
    exact hd.stateInv hc h hacc
  | overflow x hp => exact h.abort .overflow
  | pixel x t hp hx he => exact he.stateInv h hidle hp hx hacc

/-- Settles O54: a step resets, holds its state, or takes a word, whose command keeps the invariants. -/
theorem stepKeepsInvariant : Obligations.StepKeepsInvariant := by
  unfold Obligations.StepKeepsInvariant
  intro s t h hstep
  rcases step_cases hstep with ⟨-, rfl⟩ | ⟨-, rfl, -⟩ | ⟨-, hidle, w, rest, -, hw⟩
  · exact .takeReset s
  · exact h
  · rcases runWord_cases hw with ⟨why, -, rfl⟩ | ⟨i, hd, he⟩
    · exact (h.takeWord rest).respond .rejReserved
    · exact exec_stateInv (s := s.takeWord rest) (decode_wellFormed hd) hidle (h.takeWord rest) he

/-! ## Reachable states -/

theorem step_params {s t : State} (h : step s = .next t) : t.params = s.params := by
  rcases step_cases h with ⟨-, rfl⟩ | ⟨-, rfl, -⟩ | ⟨-, -, w, rest, -, hw⟩
  · rfl
  · rfl
  · rcases runWord_cases hw with ⟨why, -, rfl⟩ | ⟨i, -, he⟩
    · rfl
    · exact exec_params (s := s.takeWord rest) he

theorem Reachable.params {p : Params} {s : State} (h : Reachable p s) : s.params = p := by
  induction h with
  | reset => rfl
  | step s t _ hstep ih => rw [step_params hstep, ih]
  | environment s port answers resetLine _ ih => exact ih

theorem Reachable.stateInv {p : Params} {s : State} (h : Reachable p s) : StateInv s := by
  induction h with
  | reset => exact resetMeetsInvariant p
  | step s t _ hstep ih => exact stepKeepsInvariant s t ih hstep
  | environment s port answers resetLine _ ih =>
    exact ih.congr ih.accOk rfl rfl rfl rfl rfl rfl rfl rfl rfl id

theorem causeCode_eq_zero_iff (cause : Option AbortCode) : causeCode cause = 0 ↔ cause = none := by
  cases cause with
  | none => simp [causeCode]
  | some code => cases code <;> simp [causeCode, AbortCode.resp, Resp.code]

/-- A PIXEL that takes STATE from FRAME to IDLE has completed the frame, which empties the accumulator
(spec/43 R166). -/
theorem exec_pixel_completes {x : Nat} {s t : State} (h : exec (.pixel x) s = .next t) (hp : s.phase = .frame)
    (ht : t.phase = .idle) :
    s.atLast = true ∧ ∃ bs, t = ((s.consume x).clearRun.afterBytes bs).emptyAcc.finishFrame.respond .ok := by
  have hne : t.phase ≠ s.phase := by simp [hp, ht]
  cases exec_ends h with
  | rejected i code hc => exact absurd rfl hne
  | bypass i t hi _ he => simp at hi
  | overflow x _ => cases ht
  | pixel x t _ hx he =>
    rcases he.closes with hc | hdone
    · cases hc with
      | ok hphase => exact absurd hphase hne
      | aborted hphase => rw [ht] at hphase; cases hphase
      | waiting hphase => exact absurd hphase hne
    · exact hdone

/-- Settles O55: the invariants hold in every reachable state, and a frame ends with FlushBits. -/
theorem reachableStatesMeetR38 : Obligations.ReachableStatesMeetR38 := by
  unfold Obligations.ReachableStatesMeetR38
  refine ⟨fun p s hr hidle => ?_, fun p s t x hr h hp ht => ?_⟩
  · have hI := hr.stateInv
    obtain ⟨hfree, -, hzero⟩ := hI.accOk
    rw [hr.params] at hfree
    refine ⟨⟨hfree, fun _ => hzero⟩, ⟨fun hp => ?_, fun hp => ?_⟩, fun hp => ?_, hI.run_zero, ?_, hI.done_idle⟩
    · have hcfgW := hI.unconf_cfg hp
      exact ⟨hcfgW, hI.cfg_both.mp hcfgW⟩
    · have hcfgW := hI.configured hp
      exact ⟨BitVec.toNat_pos_of_ne_zero hcfgW, BitVec.toNat_pos_of_ne_zero (hI.cfg_both.not.mp hcfgW)⟩
    · obtain ⟨hrun, -, hlt⟩ := hI.frame_pos hp
      exact ⟨hlt hidle, hrun⟩
    · rw [causeCode_eq_zero_iff]; exact hI.cause
  · obtain ⟨-, bs, rfl⟩ := exec_pixel_completes h hp ht
    have hparams : (s.consume x).params = p := (consume_params x s).trans hr.params
    refine ⟨?_, rfl⟩
    show (BitVec.ofNat 7 (s.consume x).params.accWidth).toNat = p.accWidth
    rw [hparams, accWidth_toNat]

/-! ## STATE -/

/-- An emission changes STATE by ABORT_SINK alone. -/
theorem Closes.error_of_phase_ne {s t : State} (h : Closes s t) (hne : t.phase ≠ s.phase) :
    t.phase = .error ∧ t.lastResp = .abortSink := by
  cases h with
  | ok hphase => exact absurd hphase hne
  | aborted hphase _ _ hresp => exact ⟨hphase, hresp⟩
  | waiting hphase => exact absurd hphase hne

theorem phase_of_acceptsBypass {p : Phase} (h : p.acceptsBypass = true) : p = .unconf ∨ p = .idle := by
  cases p <;> simp_all [Phase.acceptsBypass]

/-- The transitions of STATE that a command makes (spec/10 R21). -/
theorem exec_phase_ne {i : Instr} {s t : State} (hI : StateInv s) (h : exec i s = .next t)
    (hne : t.phase ≠ s.phase) :
    (s.phase = .unconf ∧ t.phase = .idle ∧ ∃ a b, i = .config a b) ∨
    (s.phase = .idle ∧ t.phase = .frame ∧ ∃ a b, i = .frameStart a b) ∨
    (s.phase = .frame ∧ t.phase = .idle ∧ s.pixIdx.toNat + 1 = s.length ∧ ∃ x, i = .pixel x) ∨
    (s.phase ≠ .error ∧ t.phase = .error ∧ (t.lastResp = .abortSink ∨ t.lastResp = .abortOverflow)) ∨
    ((s.phase = .error ∨ s.phase = .frame ∨ s.phase = .idle) ∧ (t.phase = .idle ∨ t.phase = .unconf) ∧
      i = .clear) := by
  have hsink : Closes s t → s.phase ≠ .error ∧ t.phase = .error ∧
      (t.lastResp = .abortSink ∨ t.lastResp = .abortOverflow) := by
    intro hc
    obtain ⟨hphase, hresp⟩ := hc.error_of_phase_ne hne
    exact ⟨fun e => hne (hphase.trans e.symm), hphase, .inl hresp⟩
  cases exec_ends h with
  | rejected i code hc => exact absurd rfl hne
  | nop => exact absurd rfl hne
  | clear =>
    refine .inr (.inr (.inr (.inr ⟨?_, ?_, rfl⟩)))
    · cases hp : s.phase with
      | unconf => exact absurd (by simp [hp, hI.unconf_cfg hp]) hne
      | idle => simp
      | frame => simp
      | error => simp
    · by_cases hc : s.cfgW = 0#16 <;> simp [hc]
  | config w h' hp hw hh he =>
    rcases phase_of_acceptsBypass hp with hu | hi
    · exact .inl ⟨hu, rfl, w, h', rfl⟩
    · exact absurd hi.symm hne
  | frameStart w h' hp hw hh he => exact .inr (.inl ⟨hp, rfl, w, h', rfl⟩)
  | bypass i t hi hp he =>
    obtain ⟨bs, -, hc⟩ := he.outcome
    exact .inr (.inr (.inr (.inl (hsink hc))))
  | overflow x hp => exact .inr (.inr (.inr (.inl ⟨by simp [hp], rfl, .inr rfl⟩)))
  | pixel x t hp hx he =>
    rcases he.closes with hc | ⟨hl, bs, rfl⟩
    · exact .inr (.inr (.inr (.inl (hsink hc))))
    · exact .inr (.inr (.inl ⟨hp, rfl, (atLast_iff s).mp hl, x, rfl⟩))

/-- Settles O38: only reset and commands change STATE. -/
theorem phaseTransitions : Obligations.PhaseTransitions := by
  unfold Obligations.PhaseTransitions
  refine ⟨⟨rfl, rfl, rfl, rfl⟩, fun s t hI hstep hne => ?_⟩
  rcases step_cases hstep with ⟨hr, rfl⟩ | ⟨-, rfl, -⟩ | ⟨hr, hidle, w, rest, hport, hw⟩
  · exact .inl ⟨hr, rfl⟩
  · exact absurd rfl hne
  · rcases runWord_cases hw with ⟨why, -, rfl⟩ | ⟨i, hd, he⟩
    · exact absurd rfl hne
    · exact .inr ⟨hr, hidle, w, rest, i, hport, hd, exec_phase_ne (s := s.takeWord rest) (hI.takeWord rest) he hne⟩

/-! ## DONE -/

/-- What a command does to DONE: it leaves it with STATE, or clears it, or completes the frame (spec/10 R29). -/
theorem exec_done {i : Instr} {s t : State} (h : exec i s = .next t) :
    (t.done = s.done ∧ t.phase = s.phase) ∨ (t.done = false ∧ ((∃ x, i = .pixel x) → t.phase = .error)) ∨
    (t.done = true ∧ (∃ x, i = .pixel x) ∧ s.phase = .frame ∧ t.phase = .idle ∧ t.pixIdx.toNat = t.length) := by
  have hemits : Closes s t →
      (t.done = s.done ∧ t.phase = s.phase) ∨ (t.done = false ∧ ((∃ x, i = .pixel x) → t.phase = .error)) := by
    intro hc
    cases hc with
    | ok hphase hdone => exact .inl ⟨hdone, hphase⟩
    | aborted hphase hdone => exact .inr ⟨hdone, fun _ => hphase⟩
    | waiting hphase hdone => exact .inl ⟨hdone, hphase⟩
  cases exec_ends h with
  | rejected i code hc => exact .inl ⟨rfl, rfl⟩
  | nop => exact .inl ⟨rfl, rfl⟩
  | clear => exact .inr (.inl ⟨rfl, by simp⟩)
  | config w h' hp hw hh he => exact .inr (.inl ⟨rfl, by simp⟩)
  | frameStart w h' hp hw hh he => exact .inr (.inl ⟨rfl, by simp⟩)
  | bypass i t hi hp he =>
    obtain ⟨bs, -, hc⟩ := he.outcome
    exact (hemits hc).imp_right .inl
  | overflow x hp => exact .inr (.inl ⟨rfl, fun _ => rfl⟩)
  | pixel x t hp hx he =>
    rcases he.closes with hc | ⟨hl, bs, rfl⟩
    · exact (hemits hc).imp_right .inl
    · exact .inr (.inr ⟨rfl, ⟨x, rfl⟩, hp, rfl, completed_pixIdx bs hl⟩)

/-- Settles O44: DONE is set by the completing PIXEL alone, and the invariants keep it out of ERROR. -/
theorem doneMarksCompletedFrame : Obligations.DoneMarksCompletedFrame := by
  unfold Obligations.DoneMarksCompletedFrame
  intro i s t hI h
  refine ⟨fun ht hs => ?_, fun hi hp ht => ?_, fun hp => ?_, fun hi hpass => (exec_restart hi hpass h).2⟩
  · rcases exec_done h with ⟨hdone, -⟩ | ⟨hdone, -⟩ | ⟨-, ⟨x, rfl⟩, hp, hidle, hpix⟩
    · rw [hdone, hs] at ht; cases ht
    · rw [hdone] at ht; cases ht
    · exact ⟨x, rfl, hp, hidle, hpix⟩
  · rcases exec_done h with ⟨-, hphase⟩ | ⟨-, herror⟩ | ⟨hdone, -⟩
    · rw [hphase, hp] at ht; cases ht
    · rw [herror hi] at ht; cases ht
    · exact hdone
  · rcases exec_done h with ⟨hdone, hphase⟩ | ⟨hdone, -⟩ | ⟨-, -, -, hidle, -⟩
    · rw [hdone, ← Bool.not_eq_true]
      intro hs
      have hidle : s.phase = .idle := (hI.done_idle hs).1
      rw [hphase, hidle] at hp; cases hp
    · exact hdone
    · rw [hidle] at hp; cases hp

end Sys2Proof.Machine
end

section
/-! A bypass command past its checks is one insertion, or one flush, and waits where that does (spec/41 R110, R111,
spec/42 R140, R141, spec/70 R244). -/

namespace Sys2Proof.Machine

/-! ## Bypass commands past their checks -/

theorem passes_putBits_iff (n v : Nat) (s : State) :
    Passes (.putBits n v) s ↔ s.phase.acceptsBypass = true ∧ n ≤ s.params.accWidth := by
  cases hp : s.phase <;> simp [Passes, legalIn, badOperand, mismatched, blockedByPending, overflows, hp,
    Phase.acceptsBypass]

theorem passes_flush_iff (s : State) : Passes .flush s ↔ s.phase.acceptsBypass = true := by
  cases hp : s.phase <;> simp [Passes, legalIn, badOperand, mismatched, blockedByPending, overflows, hp,
    Phase.acceptsBypass]

theorem passes_encDelta_iff (d : Int) (s : State) :
    Passes (.encDelta d) s ↔ s.phase.acceptsBypass = true ∧ deltaCat d ≤ 31 := by
  cases hp : s.phase <;> simp [Passes, legalIn, badOperand, mismatched, blockedByPending, overflows, hp,
    Phase.acceptsBypass]

theorem passes_encRun_iff (r : Nat) (s : State) :
    Passes (.encRun r) s ↔ s.phase.acceptsBypass = true ∧ runOverflow s.params r = false := by
  cases hp : s.phase <;> simp [Passes, legalIn, badOperand, mismatched, blockedByPending, overflows, hp,
    Phase.acceptsBypass, runOverflow]

theorem exec_putBits_of_passes {n v : Nat} {s : State} (hpass : Passes (.putBits n v) s) :
    exec (.putBits n v) s = .next (putBits n v s).close := by
  obtain ⟨hp, hn⟩ := (passes_putBits_iff n v s).mp hpass
  simp [exec, execPutBits, hp, Nat.not_lt.mpr hn]

theorem exec_flush_of_passes {s : State} (hpass : Passes .flush s) : exec .flush s = .next (flushBits s).close := by
  simp [exec, execFlush, (passes_flush_iff s).mp hpass]

theorem exec_encDelta_of_passes {d : Int} {s : State} (hpass : Passes (.encDelta d) s) :
    exec (.encDelta d) s = .next (encDelta d s).close := by
  obtain ⟨hp, hd⟩ := (passes_encDelta_iff d s).mp hpass
  simp [exec, execEncDelta, hp, deltaOverflow, Nat.not_lt.mpr hd]

theorem exec_encRun_of_passes {r : Nat} {s : State} (hpass : Passes (.encRun r) s) :
    exec (.encRun r) s = .next (encRun r s).close := by
  obtain ⟨hp, hr⟩ := (passes_encRun_iff r s).mp hpass
  simp [exec, execEncRun, hp, hr]

/-- PUT_BITS, ENC_DELTA and ENC_RUN insert their bits and respond. -/
theorem exec_insertion {i : Instr} {s : State}
    (hi : (∃ n v, i = .putBits n v) ∨ (∃ d, i = .encDelta d) ∨ ∃ r, i = .encRun r) (hacc : AccOk s)
    (hpass : Passes i s) : ∃ f, exec i s = .next f.close ∧ Emission (bypassBits i s) s f := by
  rcases hi with ⟨n, v, rfl⟩ | ⟨d, rfl⟩ | ⟨r, rfl⟩
  · obtain ⟨-, hn⟩ := (passes_putBits_iff n v s).mp hpass
    exact ⟨_, exec_putBits_of_passes hpass, putBits_emission hacc hn⟩
  · obtain ⟨-, hd⟩ := (passes_encDelta_iff d s).mp hpass
    exact ⟨_, exec_encDelta_of_passes hpass, encDelta_emission hacc hd⟩
  · exact ⟨_, exec_encRun_of_passes hpass, encRun_emission hacc⟩

/-! ## Waiting for the sink -/

theorem exec_insertion_never {i : Instr} {s : State} {k : Nat}
    (hi : (∃ n v, i = .putBits n v) ∨ (∃ d, i = .encDelta d) ∨ ∃ r, i = .encRun r) (hacc : AccOk s)
    (hpass : Passes i s) (hk : k < appendedBytes (bypassBits i s) s) (hok : AnswersOk k s)
    (hnever : s.answerAt k = .never) :
    ∃ t, exec i s = .next t ∧ WaitsAfter k (s.pendingBits ++ bypassBits i s) s t := by
  obtain ⟨f, hexec, hf⟩ := exec_insertion hi hacc hpass
  obtain ⟨t, rfl, ht⟩ := hf.never k hk hok hnever
  exact ⟨t, hexec, ht⟩

theorem exec_flush_never {s : State} {k : Nat} (hacc : AccOk s) (hpass : Passes .flush s)
    (hk : k < (s.occ + 7) / 8) (hok : AnswersOk k s) (hnever : s.answerAt k = .never) :
    ∃ t, exec .flush s = .next t ∧ WaitsAfter k (s.pendingBits ++ padding s.occ) s t := by
  obtain ⟨t, hflush, ht⟩ := flushBits_never hacc hk hok hnever
  exact ⟨t, by rw [exec_flush_of_passes hpass, hflush, Flow.close_waiting], ht⟩

/-- Settles O27: a bypass command waits where its flush or its insertion does. -/
theorem bypassCommandWaitsForTheSink : Obligations.BypassCommandWaitsForTheSink := by
  unfold Obligations.BypassCommandWaitsForTheSink
  rintro i s k (rfl | hi) hacc hpass hk hok hnever
  · rw [if_pos rfl] at hk
    exact exec_flush_never hacc hpass hk hok hnever
  · have hne : i ≠ .flush := by
      rintro rfl
      simp at hi
    rw [if_neg hne] at hk
    exact exec_insertion_never hi hacc hpass hk hok hnever

end Sys2Proof.Machine
end

section
/-! The places where a PIXEL waits for the sink: its own bits, the closing run and the frame's flush (spec/43 R164,
R166, spec/70 R244). -/

namespace Sys2Proof.Machine

/-! ## Operations after an insertion -/

/-- The answers left after an insertion that went through. -/
theorem Appends.answersOk {bits : List Bool} {s u : State} {k : Nat} (h : Appends bits s u) (hok : AnswersOk k s) :
    AnswersOk (k - appendedBytes bits s) u := fun j hj => by
  rw [h.answers]
  exact hok _ (by omega)

/-- An insertion after another waits for a byte beyond the first one's. -/
theorem Emission.never_after {b₁ b₂ : List Bool} {s u : State} {f : Flow} {k : Nat} (h₁ : Appends b₁ s u)
    (h₂ : Emission b₂ u f) (hlo : appendedBytes b₁ s ≤ k) (hhi : k < appendedBytes (b₁ ++ b₂) s)
    (hok : AnswersOk k s) (hnever : s.answerAt k = .never) :
    ∃ t, f = .waiting t ∧ WaitsAfter k (s.pendingBits ++ b₁ ++ b₂) s t := by
  have hanswer : u.answerAt (k - appendedBytes b₁ s) = .never := by
    rw [h₁.answers, Nat.add_sub_cancel' hlo, hnever]
  rw [appendedBytes_append h₁] at hhi
  obtain ⟨t, hf, ht⟩ := h₂.never _ (by omega) (h₁.answersOk hok) hanswer
  have hwaits := WaitsAfter.after h₁ ht
  rw [Nat.add_sub_cancel' hlo, ← List.append_assoc] at hwaits
  exact ⟨t, hf, hwaits⟩

/-! ## The last PIXEL of a frame -/

/-- The last PIXEL, once its own bits went through, ends the frame (spec/43 R164). -/
theorem exec_lastPixel {x : Nat} {s : State} (hacc : AccOk s) (hpass : Passes (.pixel x) s)
    (hlast : s.pixIdx.toNat + 1 = s.length) (hok : AnswersOk (appendedBytes (pixelBits x s) s) s) :
    ∃ u, exec (.pixel x) s = .next (endFrame u).close ∧ Appends (pixelBits x s) (s.consume x) u := by
  obtain ⟨hp, hx, ho⟩ := passes_pixel hpass
  obtain ⟨t, ht, hu⟩ := consumeSample_ok hacc (sample_lt hx) hok
  exact ⟨t.advance, by rw [exec_pixel_body hp hx ho, ht, Flow.andThen_going, if_pos ((atLast_iff s).mpr hlast)], hu⟩

theorem endFrame_of_encRun_waiting {u t : State} (h : encRun u.runLen.toNat u = .waiting t) :
    endFrame u = .waiting t := by
  rw [endFrame, h, Flow.andThen_waiting]

/-- Once the closing run went through, the frame is flushed with RUN_LEN = 0 (spec/43 R166). -/
theorem endFrame_of_encRun_going {u v : State} (h : encRun u.runLen.toNat u = .going v) :
    endFrame u = (flushBits v.clearRun).andThen fun w => .going w.finishFrame := by
  rw [endFrame, h, Flow.andThen_going]

/-- The closing run of a frame, after the last PIXEL's own bits, goes through. -/
theorem closingRun_ok {x : Nat} {s u : State} (hI : StateInv s) (hp : s.phase = .frame)
    (hu : Appends (pixelBits x s) (s.consume x) u)
    (hok : AnswersOk (appendedBytes (pixelBits x s ++ closingBits x s) s) s) :
    ∃ v, encRun u.runLen.toNat u = .going v ∧
      Appends (pixelBits x s ++ closingBits x s) (s.consume x).clearRun v.clearRun := by
  have hok' : AnswersOk (appendedBytes (closingBits x s) u) u := by
    have h := hu.answersOk (k := appendedBytes (pixelBits x s ++ closingBits x s) s) fun j hj =>
      (consume_answers x s j).trans (hok j hj)
    rwa [← appendedBytes_consume _ x, appendedBytes_append hu, Nat.add_sub_cancel_left] at h
  obtain ⟨v, hv, hclosing⟩ := (closing_emission hI hp hu).ok hok'
  exact ⟨v, hv, (hu.trans hclosing).clearRun⟩

/-! ## Where a PIXEL waits -/

/-- A PIXEL that waits within its own bits has written nothing else (spec/43 R164). -/
theorem exec_pixel_waits_own {x : Nat} {s : State} {k : Nat} (hacc : AccOk s) (hpass : Passes (.pixel x) s)
    (hk : k < appendedBytes (pixelBits x s) s) (hok : AnswersOk k s) (hnever : s.answerAt k = .never) :
    ∃ t, exec (.pixel x) s = .next t ∧ WaitsAfter k (s.pendingBits ++ pixelBits x s) s t := by
  obtain ⟨hp, hx, ho⟩ := passes_pixel hpass
  obtain ⟨t, ht, hwaits⟩ := consumeSample_never hacc (sample_lt hx) hk hok hnever
  exact ⟨t, by rw [exec_pixel_body hp hx ho, ht, Flow.andThen_waiting, Flow.close_waiting], hwaits⟩

/-- The last PIXEL waits within the closing run, its sample consumed (spec/43 R166). -/
theorem exec_pixel_waits_closing {x : Nat} {s : State} {k : Nat} (hI : StateInv s) (hpass : Passes (.pixel x) s)
    (hlast : s.pixIdx.toNat + 1 = s.length) (hlo : appendedBytes (pixelBits x s) s ≤ k)
    (hhi : k < appendedBytes (pixelBits x s ++ closingBits x s) s) (hok : AnswersOk k s)
    (hnever : s.answerAt k = .never) :
    ∃ t, exec (.pixel x) s = .next t ∧
      WaitsAfter k (s.pendingBits ++ pixelBits x s ++ closingBits x s) (s.consume x) t := by
  obtain ⟨hp, -, -⟩ := passes_pixel hpass
  obtain ⟨u, hexec, hu⟩ := exec_lastPixel hI.accOk hpass hlast (answersOk_mono hok hlo)
  rw [← appendedBytes_consume _ x] at hlo hhi
  obtain ⟨t, ht, hwaits⟩ := Emission.never_after hu (closing_emission hI hp hu) hlo hhi
    (fun j hj => (consume_answers x s j).trans (hok j hj)) ((consume_answers x s k).trans hnever)
  rw [consume_pending] at hwaits
  exact ⟨t, by rw [hexec, endFrame_of_encRun_waiting ht, Flow.close_waiting], hwaits⟩

/-- The last PIXEL waits within the frame's flush, its sample consumed and RUN_LEN = 0 (spec/43 R166). -/
theorem exec_pixel_waits_flush {x : Nat} {s : State} {k : Nat} (hI : StateInv s) (hpass : Passes (.pixel x) s)
    (hlast : s.pixIdx.toNat + 1 = s.length) (hlo : appendedBytes (pixelBits x s ++ closingBits x s) s ≤ k)
    (hhi : k < flushedBytes (pixelBits x s ++ closingBits x s) s) (hok : AnswersOk k s)
    (hnever : s.answerAt k = .never) :
    ∃ t, exec (.pixel x) s = .next t ∧
      WaitsAfter k (s.pendingBits ++ pixelBits x s ++ closingBits x s ++
        padding (s.pendingBits ++ pixelBits x s ++ closingBits x s).length) (s.consume x).clearRun t := by
  obtain ⟨hp, -, -⟩ := passes_pixel hpass
  have hown : appendedBytes (pixelBits x s) s ≤ k := (appendedBytes_le_append _ _ s).trans hlo
  obtain ⟨u, hexec, hu⟩ := exec_lastPixel hI.accOk hpass hlast (answersOk_mono hok hown)
  obtain ⟨v, hrun, hv⟩ := closingRun_ok hI hp hu (answersOk_mono hok hlo)
  rw [← appendedBytes_consume _ x] at hlo
  rw [← flushedBytes_consume _ x] at hhi
  have hanswers : ∀ j, (s.consume x).clearRun.answerAt j = s.answerAt j := consume_answers x s
  have hpending : (s.consume x).clearRun.pendingBits = s.pendingBits := consume_pending x s
  obtain ⟨t, ht, hwaits⟩ := flush_after_never hv hlo hhi (fun j hj => (hanswers j).trans (hok j hj))
    ((hanswers k).trans hnever)
  rw [hpending, ← List.append_assoc] at hwaits
  exact ⟨t, by rw [hexec, endFrame_of_encRun_going hrun, ht, Flow.andThen_waiting, Flow.close_waiting], hwaits⟩

/-- Settles O32: a PIXEL emits its own bits, the closing run and the flush in this order, and waits where the
unanswered byte falls. -/
theorem pixelWaitsForTheSink : Obligations.PixelWaitsForTheSink := by
  unfold Obligations.PixelWaitsForTheSink
  intro x s k hI hpass hok hnever
  exact ⟨fun hk => exec_pixel_waits_own hI.accOk hpass hk hok hnever,
    fun hlast hlo hhi => exec_pixel_waits_closing hI hpass hlast hlo hhi hok hnever,
    fun hlast hlo hhi => exec_pixel_waits_flush hI hpass hlast hlo hhi hok hnever⟩

end Sys2Proof.Machine
end

section
/-! The formats of a command word read their own fields back, so that `decode` and `encode` are inverse to each other
(spec/30 R81 to R88). -/

namespace Sys2Proof.Machine

/-! ## Fields of a word, in the arithmetic of its value -/

/-- OP is the topmost field of a word (spec/30 R80). -/
theorem opcodeOf_eq (w : Word) : opcodeOf w = w.toNat / 2 ^ 60 := by
  have hw := w.isLt
  rw [opcodeOf, zextField_eq]
  omega

theorem zeroFieldN_eq (w : Word) : zeroFieldN w = w.toNat % 2 ^ 60 := by simp [zeroFieldN, zextField_eq]

theorem zeroFieldDS_eq (w : Word) : zeroFieldDS w = w.toNat / 2 ^ 32 % 2 ^ 28 := zextField_eq w 59 32

theorem zeroFieldB_eq (w : Word) : zeroFieldB w = w.toNat / 2 ^ 38 % 2 ^ 22 := zextField_eq w 59 38

theorem operandW_eq (w : Word) : operandW w = w.toNat / 2 ^ 16 % 2 ^ 16 := zextField_eq w 31 16

theorem operandH_eq (w : Word) : operandH w = w.toNat % 2 ^ 16 := by simp [operandH, zextField_eq]

theorem operandA_eq (w : Word) : operandA w = w.toNat % 2 ^ 32 := by simp [operandA, zextField_eq]

theorem operandN_eq (w : Word) : operandN w = w.toNat / 2 ^ 32 % 2 ^ 6 := zextField_eq w 37 32

theorem operandV_eq (w : Word) : operandV w = w.toNat % 2 ^ 32 := operandA_eq w

/-! ## Fields of the four formats -/

section
variable (op : BitVec 4) (x y : BitVec 16) (n : BitVec 6) (a : BitVec 32)

@[simp] theorem opcodeOf_formatN : opcodeOf (formatN op) = op.toNat := by
  rw [opcodeOf_eq, formatN_toNat]; omega

@[simp] theorem opcodeOf_formatD : opcodeOf (formatD op x y) = op.toNat := by
  rw [opcodeOf_eq, formatD_toNat]; omega

@[simp] theorem opcodeOf_formatS : opcodeOf (formatS op a) = op.toNat := by
  rw [opcodeOf_eq, formatS_toNat]; omega

@[simp] theorem opcodeOf_formatB : opcodeOf (formatB op n a) = op.toNat := by
  rw [opcodeOf_eq, formatB_toNat]; omega

@[simp] theorem zeroFieldN_formatN : zeroFieldN (formatN op) = 0 := by
  rw [zeroFieldN_eq, formatN_toNat]; omega

@[simp] theorem zeroFieldDS_formatD : zeroFieldDS (formatD op x y) = 0 := by
  rw [zeroFieldDS_eq, formatD_toNat]; omega

@[simp] theorem zeroFieldDS_formatS : zeroFieldDS (formatS op a) = 0 := by
  rw [zeroFieldDS_eq, formatS_toNat]; omega

@[simp] theorem zeroFieldB_formatB : zeroFieldB (formatB op n a) = 0 := by
  rw [zeroFieldB_eq, formatB_toNat]; omega

@[simp] theorem operandW_formatD : operandW (formatD op x y) = x.toNat := by
  rw [operandW_eq, formatD_toNat]; omega

@[simp] theorem operandH_formatD : operandH (formatD op x y) = y.toNat := by
  rw [operandH_eq, formatD_toNat]; omega

@[simp] theorem operandA_formatS : operandA (formatS op a) = a.toNat := by
  rw [operandA_eq, formatS_toNat]; omega

@[simp] theorem operandN_formatB : operandN (formatB op n a) = n.toNat := by
  rw [operandN_eq, formatB_toNat]; omega

@[simp] theorem operandV_formatB : operandV (formatB op n a) = a.toNat := by
  rw [operandV_eq, formatB_toNat]; omega

end

/-- The signed operand is the same field of the word as the unsigned one (spec/30 R85). -/
theorem operandD_eq_toInt {w : Word} {a : BitVec 32} (h : operandA w = a.toNat) : operandD w = a.toInt :=
  congrArg BitVec.toInt (BitVec.eq_of_toNat_eq h)

@[simp] theorem operandD_formatS (op : BitVec 4) (a : BitVec 32) : operandD (formatS op a) = a.toInt :=
  operandD_eq_toInt (operandA_formatS op a)

/-! ## Decoding a word of each format -/

@[simp] theorem checkZero_zero (i : Instr) : checkZero 0 i = .instr i := rfl

theorem decode_nop : decode (formatN 0x0#4) = .instr .nop := by simp [decode]

theorem decode_config (w h : BitVec 16) : decode (formatD 0x1#4 w h) = .instr (.config w.toNat h.toNat) := by
  simp [decode]

theorem decode_frameStart (w h : BitVec 16) : decode (formatD 0x2#4 w h) = .instr (.frameStart w.toNat h.toNat) := by
  simp [decode]

theorem decode_pixel (a : BitVec 32) : decode (formatS 0x3#4 a) = .instr (.pixel a.toNat) := by simp [decode]

theorem decode_putBits (n : BitVec 6) (v : BitVec 32) :
    decode (formatB 0x4#4 n v) = .instr (.putBits n.toNat v.toNat) := by simp [decode]

theorem decode_flush : decode (formatN 0x5#4) = .instr .flush := by simp [decode]

theorem decode_encDelta (a : BitVec 32) : decode (formatS 0x6#4 a) = .instr (.encDelta a.toInt) := by simp [decode]

theorem decode_encRun (a : BitVec 32) : decode (formatS 0x7#4 a) = .instr (.encRun a.toNat) := by simp [decode]

theorem decode_clear : decode (formatN 0x8#4) = .instr .clear := by simp [decode]

/-- Settles O10: an operand that fits its field is the value of the field that carries it. -/
theorem decodeOfEncode : Obligations.DecodeOfEncode := by
  unfold Obligations.DecodeOfEncode
  intro i hwf
  cases i with
  | nop => exact decode_nop
  | flush => exact decode_flush
  | clear => exact decode_clear
  | config w h =>
    obtain ⟨hw, hh⟩ : w < 2 ^ 16 ∧ h < 2 ^ 16 := by simpa [Instr.wellFormed] using hwf
    rw [encode, decode_config, BitVec.toNat_ofNat, BitVec.toNat_ofNat, Nat.mod_eq_of_lt hw, Nat.mod_eq_of_lt hh]
  | frameStart w h =>
    obtain ⟨hw, hh⟩ : w < 2 ^ 16 ∧ h < 2 ^ 16 := by simpa [Instr.wellFormed] using hwf
    rw [encode, decode_frameStart, BitVec.toNat_ofNat, BitVec.toNat_ofNat, Nat.mod_eq_of_lt hw, Nat.mod_eq_of_lt hh]
  | pixel x =>
    have hx : x < 2 ^ 32 := by simpa [Instr.wellFormed] using hwf
    rw [encode, decode_pixel, BitVec.toNat_ofNat, Nat.mod_eq_of_lt hx]
  | putBits n v =>
    obtain ⟨hn, hv⟩ : n < 2 ^ 6 ∧ v < 2 ^ 32 := by simpa [Instr.wellFormed] using hwf
    rw [encode, decode_putBits, BitVec.toNat_ofNat, BitVec.toNat_ofNat, Nat.mod_eq_of_lt hn, Nat.mod_eq_of_lt hv]
  | encDelta d =>
    obtain ⟨hlo, hhi⟩ : -2 ^ 31 ≤ d ∧ d < 2 ^ 31 := by simpa [Instr.wellFormed] using hwf
    rw [encode, decode_encDelta, BitVec.toInt_ofInt_eq_self (by norm_num) hlo hhi]
  | encRun r =>
    have hr : r < 2 ^ 32 := by simpa [Instr.wellFormed] using hwf
    rw [encode, decode_encRun, BitVec.toNat_ofNat, Nat.mod_eq_of_lt hr]

/-- Settles O9: each field of the word is a quotient and a remainder of its value. -/
theorem decodeReadsEveryField : Obligations.DecodeReadsEveryField := by
  unfold Obligations.DecodeReadsEveryField
  refine ⟨fun w => ?_, fun w why s h => runWord_reserved h s⟩
  rw [← opcodeOf_eq, ← sext32Field_eq, ← zeroFieldN_eq, ← zeroFieldDS_eq, ← zeroFieldB_eq, ← operandW_eq,
    ← operandH_eq, ← operandN_eq, ← operandA_eq]
  rfl

/-! ## A word is put together again from its fields -/

theorem checkZero_eq_zero {z : Nat} {i j : Instr} (h : checkZero z j = .instr i) : z = 0 := by
  by_contra hz
  rw [checkZero, if_neg hz] at h
  cases h

/-- A command is decoded only where the zero field is zero (spec/30 R88). -/
theorem checkZero_inv {z : Nat} {i j : Instr} (h : checkZero z j = .instr i) : z = 0 ∧ j = i :=
  ⟨checkZero_eq_zero h, checkZero_eq_instr h⟩

section
variable {op : BitVec 4} {w : Word}

theorem formatN_of_fields (hop : opcodeOf w = op.toNat) (hz : zeroFieldN w = 0) : formatN op = w := by
  apply BitVec.eq_of_toNat_eq
  rw [opcodeOf_eq] at hop
  rw [zeroFieldN_eq] at hz
  rw [formatN_toNat]
  omega

theorem formatD_of_fields {x y : BitVec 16} (hop : opcodeOf w = op.toNat) (hz : zeroFieldDS w = 0)
    (hx : x.toNat = operandW w) (hy : y.toNat = operandH w) : formatD op x y = w := by
  apply BitVec.eq_of_toNat_eq
  rw [opcodeOf_eq] at hop
  rw [zeroFieldDS_eq] at hz
  rw [formatD_toNat, hx, hy, operandW_eq, operandH_eq]
  omega

theorem formatS_of_fields {a : BitVec 32} (hop : opcodeOf w = op.toNat) (hz : zeroFieldDS w = 0)
    (ha : a.toNat = operandA w) : formatS op a = w := by
  apply BitVec.eq_of_toNat_eq
  rw [opcodeOf_eq] at hop
  rw [zeroFieldDS_eq] at hz
  rw [formatS_toNat, ha, operandA_eq]
  omega

theorem formatB_of_fields {n : BitVec 6} {v : BitVec 32} (hop : opcodeOf w = op.toNat) (hz : zeroFieldB w = 0)
    (hn : n.toNat = operandN w) (hv : v.toNat = operandV w) : formatB op n v = w := by
  apply BitVec.eq_of_toNat_eq
  rw [opcodeOf_eq] at hop
  rw [zeroFieldB_eq] at hz
  rw [formatB_toNat, hn, hv, operandN_eq, operandV_eq]
  omega

end

/-- A field's value in a bit vector of the field's width (spec/30 R85). -/
theorem ofNat_zextField_toNat (w : Word) (hi lo : Nat) :
    (BitVec.ofNat (hi - lo + 1) (zextField w hi lo)).toNat = zextField w hi lo :=
  Nat.mod_eq_of_lt (zextField_lt w hi lo)

theorem ofInt_operandD_toNat (w : Word) : (BitVec.ofInt 32 (operandD w)).toNat = operandA w :=
  congrArg BitVec.toNat (BitVec.ofInt_toInt (x := w.extractLsb 31 0))

/-- The decoder checks the whole word: OP, the format's zero field and the operands (spec/30 R88). -/
theorem encode_of_decode {w : Word} {i : Instr} (h : decode w = .instr i) : encode i = w := by
  have hW := ofNat_zextField_toNat w 31 16
  have hH := ofNat_zextField_toNat w 15 0
  have hA := ofNat_zextField_toNat w 31 0
  have hN := ofNat_zextField_toNat w 37 32
  have hD := ofInt_operandD_toNat w
  unfold decode at h
  split at h
  case h_10 => cases h
  all_goals obtain ⟨hz, rfl⟩ := checkZero_inv h
  case h_1 hop | h_6 hop | h_9 hop => exact formatN_of_fields hop hz
  case h_2 hop | h_3 hop => exact formatD_of_fields hop hz hW hH
  case h_4 hop | h_8 hop => exact formatS_of_fields hop hz hA
  case h_5 hop => exact formatB_of_fields hop hz hN hA
  case h_7 hop => exact formatS_of_fields hop hz hD

/-- Settles O11: a word is the word of its own fields, and a field's value fits the field. -/
theorem encodeOfDecode : Obligations.EncodeOfDecode := by
  unfold Obligations.EncodeOfDecode
  exact fun w i h => ⟨encode_of_decode h, decode_wellFormed h⟩

end Sys2Proof.Machine
end

section
/-! What the assembler and the port do with commands and words: worked encodings, expansions, and steps
(spec/30 R88, R91, R92, spec/70 R242). -/

namespace Sys2Proof.Machine

/-! ## Worked encodings -/

theorem decode_of_encode_eq {i : Instr} {w : Word} (hword : encode i = w) (hwf : i.wellFormed = true) :
    decode w = .instr i := by
  rw [← hword]
  exact decodeOfEncode i hwf

/-- Settles O8: each printed word is the word of its command. -/
theorem decodesWorkedEncodings : Obligations.DecodesWorkedEncodings := by
  unfold Obligations.DecodesWorkedEncodings
  refine ⟨decode_nop, decode_of_encode_eq (i := .config 640 480) ?_ ?_,
    decode_of_encode_eq (i := .frameStart 2 2) ?_ ?_, decode_of_encode_eq (i := .pixel 5) ?_ ?_,
    decode_of_encode_eq (i := .putBits 20 0xABCDE) ?_ ?_, decode_flush,
    decode_of_encode_eq (i := .encDelta (-1)) ?_ ?_, decode_of_encode_eq (i := .encRun 255) ?_ ?_, decode_clear,
    fun s => ⟨runWord_reserved (why := .opcode) ?_ s, runWord_reserved (why := .zeroField) ?_ s⟩⟩
  all_goals decide

/-! ## Expansions -/

theorem checked_of_wellFormed {is : List Instr} (h : ∀ i ∈ is, i.wellFormed = true) : checked is = some is :=
  if_pos (List.all_eq_true.mpr h)

theorem wellFormed_pixel (x : BitVec 32) : (Instr.pixel x.toNat).wellFormed = true := decide_eq_true x.isLt

theorem wellFormed_invalidMarker (p : Params) : (Instr.pixel p.invalidMarker).wellFormed = true :=
  decide_eq_true (lt_trans (sample_lt (invalidMarker_lt p)) (by norm_num))

theorem wellFormed_config (w h : BitVec 16) : (Instr.config w.toNat h.toNat).wellFormed = true :=
  Bool.and_eq_true_iff.mpr ⟨decide_eq_true w.isLt, decide_eq_true h.isLt⟩

theorem wellFormed_frameStart (w h : BitVec 16) : (Instr.frameStart w.toNat h.toNat).wellFormed = true :=
  wellFormed_config w h

/-- FRAME expands to FRAME_START and one PIXEL per sample (spec/30 R91). -/
theorem expand_frame (m : Nat) (w h : BitVec 16) {samples : List (BitVec 32)}
    (hlen : samples.length = w.toNat * h.toNat) :
    (AsmLine.frame w.toNat h.toNat (samples.map BitVec.toNat)).expand m =
      some (.frameStart w.toNat h.toNat :: samples.map fun x => .pixel x.toNat) := by
  have hfits : ∀ i ∈ Instr.frameStart w.toNat h.toNat :: samples.map (fun x => .pixel x.toNat),
      i.wellFormed = true := by
    simp [wellFormed_frameStart, wellFormed_pixel]
  rw [AsmLine.expand, List.length_map, if_pos hlen, List.map_map]
  exact checked_of_wellFormed hfits

/-- Settles O12: every command of an expansion fits its word, and a FRAME of another length is refused first. -/
theorem pseudoInstructionExpansions : Obligations.PseudoInstructionExpansions := by
  unfold Obligations.PseudoInstructionExpansions
  refine ⟨fun p => ?pixelInv, fun m w h samples hlen => expand_frame m w h hlen,
    fun m w h samples hlen => if_neg hlen, fun m k x => ?pixelRep, fun m w h => ?newWriter⟩
  case pixelInv =>
    exact checked_of_wellFormed (List.forall_mem_singleton.mpr (wellFormed_invalidMarker p))
  case pixelRep =>
    refine checked_of_wellFormed fun i hi => ?_
    rw [List.eq_of_mem_replicate hi]
    exact wellFormed_pixel x
  case newWriter =>
    exact checked_of_wellFormed
      (List.forall_mem_cons.mpr ⟨rfl, List.forall_mem_singleton.mpr (wellFormed_config w h)⟩)

/-! ## Steps -/

/-- A step takes the word at the head of the port and runs its command (spec/70 R242, spec/30 R88). -/
theorem step_instr {s : State} {w : Word} {rest : List Word} {i : Instr} (hr : s.resetLine = false)
    (hidle : s.inFlight = none) (hport : s.port = w :: rest) (hd : decode w = .instr i) :
    step s = exec i (s.takeWord rest) :=
  (step_word hr hidle hport).trans (runWord_instr hd _)

/-- Settles O13: a presented word is at the head of the port of a DFE that is ready for it. -/
theorem stepRunsDecodedCommand : Obligations.StepRunsDecodedCommand := by
  unfold Obligations.StepRunsDecodedCommand
  exact ⟨fun s w rest i hr hidle hport hd => ⟨decode_wellFormed hd, step_instr hr hidle hport hd⟩,
    fun s nbits w i hd =>
      step_instr (s := s.withFetchWord nbits w) (State.presentWord_resetLine s _) (State.presentWord_inFlight s _)
        (State.presentWord_port s _) hd⟩

/-! ## Writer construction -/

/-- CLEAR leads to a state in which CONFIG is legal, with an empty accumulator (spec/44 R191, spec/60 R204). -/
theorem passes_config_leaveError {w h : Nat} (s : State) (hw : w ≠ 0) (hh : h ≠ 0) :
    Passes (.config w h) (s.leaveError.respond .ok) := by
  have hlegal : (s.leaveError.respond .ok).phase.acceptsBypass = true := by
    by_cases hc : s.cfgW = 0#16 <;> simp [hc, Phase.acceptsBypass]
  have hempty : (s.leaveError.respond .ok).accEmpty = true :=
    (State.accEmpty_iff _).mpr (accWidth_toNat s.params)
  exact (passes_config_iff w h _).mpr ⟨hlegal, hw, hh, hempty⟩

/-- Settles O22: what CLEAR leaves of a writer, the accepted CONFIG sets up anew. -/
theorem newWriterFromAnyState : Obligations.NewWriterFromAnyState := by
  unfold Obligations.NewWriterFromAnyState
  intro w h s hw hh
  have hpass : Passes (.config w.toNat h.toNat) (s.leaveError.respond .ok) :=
    passes_config_leaveError s (fun e => hw (BitVec.eq_of_toNat_eq e)) (fun e => hh (BitVec.eq_of_toNat_eq e))
  refine ⟨s.leaveError.respond .ok, rfl, ?_⟩
  rw [exec_config_of_passes hpass, State.construct, BitVec.ofNat_toNat, BitVec.ofNat_toNat, BitVec.setWidth_eq,
    BitVec.setWidth_eq]
  rfl

end Sys2Proof.Machine
end

section
/-! The BitWriter's operations with the whole state they leave (spec/41 R101 to R106), the bypass commands PUT_BITS and
FLUSH over them (spec/41 R110, R111), and what every bypass command leaves (spec/42 R140, R141). -/

namespace Sys2Proof.Machine

/-! ## One byte -/

/-- Settles O45: an accepted byte is counted, and any other answer is only drawn. -/
theorem emitByteCountsAcceptedBytes : Obligations.EmitByteCountsAcceptedBytes := by
  unfold Obligations.EmitByteCountsAcceptedBytes
  refine fun b s => ⟨fun h => ?_, emitByte_err, emitByte_never⟩
  rw [emitByte_ok h, State.afterBytes, List.length_singleton, List.drop_one]
  rfl

/-! ## PutBits -/

/-- The fast path puts the bits under the pending ones (spec/41 R101). -/
theorem putBits_fits {n : Nat} (v : Nat) {s : State} (hn : n ≤ s.free.toNat) :
    putBits n v s = .going { s with
      acc := s.acc ||| BitVec.ofNat 64 (v % 2 ^ n * 2 ^ (s.free.toNat - n))
      free := BitVec.ofNat 7 (s.free.toNat - n) } := by
  rw [putBits, if_pos hn, putBitsFast, State.setAcc, lowBits, Nat.shiftLeft_eq, BitVec.ofNat_or, BitVec.ofNat_toNat,
    BitVec.setWidth_eq]

/-- No bits: nothing at all is changed (spec/41 R106). -/
theorem putBits_zero (v : Nat) (s : State) : putBits 0 v s = .going s := by
  rw [putBits_fits v (Nat.zero_le _), pow_zero, Nat.mod_one, Nat.zero_mul, Nat.sub_zero, BitVec.ofNat_toNat,
    BitVec.setWidth_eq, BitVec.or_zero]

/-- Bits put under a number whose low bits are zero are added to it. -/
theorem or_eq_add_of_mod {a b f : Nat} (ha : a % 2 ^ f = 0) (hb : b < 2 ^ f) : a ||| b = a + b := by
  obtain ⟨q, rfl⟩ := Nat.dvd_of_mod_eq_zero ha
  exact (Nat.two_pow_add_eq_or_of_lt hb q).symm

/-- The bits that fill the accumulator are as many as it has free. -/
theorem lowBits_shiftRight_lt {n f : Nat} (v : Nat) (hn : f < n) : lowBits n v >>> (n - f) < 2 ^ f := by
  rw [Nat.shiftRight_eq_div_pow, Nat.div_lt_iff_lt_mul (by positivity), ← pow_add, Nat.add_sub_cancel' hn.le]
  exact lowBits_lt n v

/-- The slow path's first write: the bits that fit fill the accumulator (spec/41 R101). -/
def State.fillAcc (n v : Nat) (s : State) : State :=
  s.setAcc (s.acc.toNat ||| lowBits n v >>> (n - s.free.toNat)) 0

theorem fillAcc_acc_toNat {n : Nat} (v : Nat) {s : State} (hacc : AccOk s) (hn : s.free.toNat < n) :
    (s.fillAcc n v).acc.toNat = s.acc.toNat + v % 2 ^ n / 2 ^ (n - s.free.toNat) := by
  obtain ⟨hfree, hlt, hzero⟩ := hacc
  have hfill := lowBits_shiftRight_lt v hn
  have hfull : s.acc.toNat ||| lowBits n v >>> (n - s.free.toNat) < 2 ^ s.params.accWidth :=
    Nat.or_lt_two_pow hlt (hfill.trans_le (Nat.pow_le_pow_right (by norm_num) hfree))
  rw [State.fillAcc, State.setAcc_acc, ofNat64_toNat hfull, or_eq_add_of_mod hzero hfill,
    Nat.shiftRight_eq_div_pow, lowBits]

/-- A whole accumulator word is the bits of ACC (spec/41 R102). -/
theorem bytesBits_word (s : State) :
    bytesBits (s.accBytes (s.params.accWidth / 8)) = bitsN s.params.accWidth s.acc.toNat := by
  have hword : 8 * (s.params.accWidth / 8) = s.params.accWidth :=
    Nat.mul_div_cancel' (Nat.dvd_of_mod_eq_zero s.params.accWidth_mod)
  rw [bytesBits_accBytes s _ hword.le, hword, Nat.sub_self, Nat.shiftRight_zero]

theorem emitWord_ok {s : State} (hok : AnswersOk (s.params.accWidth / 8) s) :
    emitWord s = .going (s.afterBytes (s.accBytes (s.params.accWidth / 8))).emptyAcc := by
  rw [emitWord, emitBytes_ok (by rwa [length_accBytes]), Flow.andThen_going]

/-- The slow path, when the sink accepts the word: the word is what was pending and the bits that filled it, and the
other bits stand at the top of ACC (spec/41 R101, R102). -/
theorem putBits_spills {n : Nat} (v : Nat) {s : State} (hacc : AccOk s) (hn : s.free.toNat < n)
    (hok : AnswersOk (s.params.accWidth / 8) s) :
    ∃ bs : List Byte, bs.length = s.params.accWidth / 8 ∧
      bytesBits bs = bitsN s.params.accWidth (s.acc.toNat + v % 2 ^ n / 2 ^ (n - s.free.toNat)) ∧
      putBits n v s = .going ((s.afterBytes bs).setAcc
        (v % 2 ^ (n - s.free.toNat) * 2 ^ (s.params.accWidth - (n - s.free.toNat)))
        (s.params.accWidth - (n - s.free.toNat))) := by
  have hword := emitWord_ok (s := s.fillAcc n v) hok
  have hlow : lowBits (n - s.free.toNat) (lowBits n v) = v % 2 ^ (n - s.free.toNat) :=
    Nat.mod_mod_of_dvd v (Nat.pow_dvd_pow 2 (Nat.sub_le _ _))
  refine ⟨(s.fillAcc n v).accBytes (s.params.accWidth / 8), length_accBytes _ _,
    (bytesBits_word (s.fillAcc n v)).trans (congrArg (bitsN _) (fillAcc_acc_toNat v hacc hn)), ?_⟩
  rw [putBits, if_neg (Nat.not_le.mpr hn), putBitsSlow, ← State.fillAcc, hword, Flow.andThen_going, hlow,
    Nat.shiftLeft_eq]
  rfl

/-- An insertion of `n` bits that does not fit is one of a whole word's bytes (spec/41 R101, R102). -/
theorem appendedBytes_of_gt {n : Nat} (v : Nat) {s : State} (hacc : AccOk s) (hn : s.free.toNat < n)
    (hw : n ≤ s.params.accWidth) : appendedBytes (bitsN n v) s = s.params.accWidth / 8 := by
  have hfree := hacc.1
  rw [appendedBytes, length_bitsN, State.occ]
  exact lazyBytes_of_gt (by omega) (by omega)

/-! ## Emission is lazy -/

/-- An insertion that goes on has appended its bits. -/
theorem Emission.appends_of_going {bits : List Bool} {s t : State} (h : Emission bits s (.going t)) :
    Appends bits s t := by
  rcases h.cases with ⟨u, hu, happ⟩ | ⟨k, u, hu, -⟩ | ⟨k, u, hu, -⟩
  · cases hu; exact happ
  · cases hu
  · cases hu

/-- An insertion puts the bytes that it emits in the sink, and no others (spec/41 R106). -/
theorem Appends.sink_length {bits : List Bool} {s t : State} (h : Appends bits s t) :
    t.sink.length = s.sink.length + appendedBytes bits s := by
  obtain ⟨bs, hlen, ht⟩ := h.rest
  rw [ht, ← hlen]
  exact List.length_append

/-- Settles O46: the fast path emits nothing, the slow path one word, and a flush what is pending. -/
theorem lazyEmission : Obligations.LazyEmission := by
  unfold Obligations.LazyEmission
  refine ⟨putBits_zero, fun n v s hn => ⟨_, putBits_fits v hn, rfl⟩, fun n v s t hacc hn hw h => ?spills,
    fun s t h => ?flush⟩
  case spills =>
    have happ : Appends (bitsN n v) s t := (h ▸ putBits_emission hacc hw).appends_of_going
    rw [happ.sink_length, appendedBytes_of_gt v hacc hn hw]
  case flush =>
    obtain ⟨bs, hlen, rfl⟩ := flushBits_going h
    rw [← hlen]
    exact List.length_append

/-! ## Commands that drive the BitWriter -/

theorem bypassState_iff (s : State) : BypassState s ↔ s.phase.acceptsBypass = true :=
  ⟨fun h => by rcases h with h | h <;> rw [h] <;> rfl, phase_of_acceptsBypass⟩

/-- Outside a frame the bytes are counted in TOTAL_BYTES alone (spec/41 R103). -/
theorem afterBytes_of_bypass {s : State} (h : BypassState s) (bs : List Byte) :
    s.afterBytes bs = { s with
      sink := s.sink ++ bs
      sinkAnswers := s.sinkAnswers.drop bs.length
      draws := s.draws + bs.length
      totalBytes := s.totalBytes + BitVec.ofNat 64 bs.length } := by
  have hframe : s.phase ≠ .frame := by rcases h with h | h <;> rw [h] <;> decide
  rw [State.afterBytes, if_neg hframe]

theorem passes_putBits {n : Nat} (v : Nat) {s : State} (h : BypassState s) (hn : n ≤ s.params.accWidth) :
    Passes (.putBits n v) s :=
  (passes_putBits_iff n v s).mpr ⟨(bypassState_iff s).mp h, hn⟩

theorem passes_flush {s : State} (h : BypassState s) : Passes .flush s :=
  (passes_flush_iff s).mpr ((bypassState_iff s).mp h)

theorem exec_putBits_rejState {n v : Nat} {s : State} (h : ¬ BypassState s) :
    exec (.putBits n v) s = .next (s.reject .rejState) := by
  rw [bypassState_iff] at h
  simp [exec, execPutBits, h]

theorem exec_putBits_rejOperand {n v : Nat} {s : State} (h : BypassState s) (hn : s.params.accWidth < n) :
    exec (.putBits n v) s = .next (s.reject .rejOperand) := by
  rw [bypassState_iff] at h
  simp [exec, execPutBits, h, hn]

theorem exec_flush_rejState {s : State} (h : ¬ BypassState s) : exec .flush s = .next (s.reject .rejState) := by
  rw [bypassState_iff] at h
  simp [exec, execFlush, h]

/-! ## The reserved words of the two commands -/

theorem decode_putBits_reserved {w : Word} (hop : opcodeOf w = 0x4) (hz : zeroFieldB w ≠ 0) :
    decode w = .reserved .zeroField := by
  simp [decode, hop, checkZero, hz]

theorem decode_flush_reserved {w : Word} (hop : opcodeOf w = 0x5) (hz : zeroFieldN w ≠ 0) :
    decode w = .reserved .zeroField := by
  simp [decode, hop, checkZero, hz]

/-! ## PUT_BITS -/

theorem exec_putBits_spills {n : Nat} (v : Nat) {s : State} (hacc : AccOk s) (hs : BypassState s)
    (hn : s.free.toNat < n) (hw : n ≤ s.params.accWidth) (hok : AnswersOk (s.params.accWidth / 8) s) :
    ∃ bs : List Byte,
      bytesBits bs = bitsN s.params.accWidth (s.acc.toNat + v % 2 ^ n / 2 ^ (n - s.free.toNat)) ∧
      exec (.putBits n v) s = .next { s with
        acc := BitVec.ofNat 64 (v % 2 ^ (n - s.free.toNat) * 2 ^ (s.params.accWidth - (n - s.free.toNat)))
        free := BitVec.ofNat 7 (s.params.accWidth - (n - s.free.toNat))
        totalBytes := s.totalBytes + BitVec.ofNat 64 (s.params.accWidth / 8)
        lastResp := .ok
        sink := s.sink ++ bs
        sinkAnswers := s.sinkAnswers.drop (s.params.accWidth / 8)
        draws := s.draws + s.params.accWidth / 8 } := by
  obtain ⟨bs, hlen, hbits, hput⟩ := putBits_spills v hacc hn hok
  refine ⟨bs, hbits, ?_⟩
  rw [exec_putBits_of_passes (passes_putBits v hs hw), hput, afterBytes_of_bypass hs, hlen]
  rfl

/-- PUT_BITS, ENC_DELTA and ENC_RUN abort where their insertion does (spec/41 R103, spec/60 R205). -/
theorem exec_insertion_err {i : Instr} {s : State} {k : Nat}
    (hi : (∃ n v, i = .putBits n v) ∨ (∃ d, i = .encDelta d) ∨ ∃ r, i = .encRun r) (hacc : AccOk s)
    (hpass : Passes i s) (hk : k < appendedBytes (bypassBits i s) s) (hok : AnswersOk k s)
    (herr : s.answerAt k = .err) :
    ∃ t, exec i s = .next t ∧ AbortsAfter k (s.pendingBits ++ bypassBits i s) s t := by
  obtain ⟨f, hexec, hf⟩ := exec_insertion hi hacc hpass
  obtain ⟨t, rfl, ht⟩ := hf.err k hk hok herr
  exact ⟨t, hexec, ht⟩

/-- Settles O23: PUT_BITS past its checks is the fast or the slow path of PutBits. -/
theorem putBitsAppends : Obligations.PutBitsAppends := by
  unfold Obligations.PutBitsAppends
  intro n v s hacc
  refine ⟨decode_putBits n v, exec_putBits_rejState, exec_putBits_rejOperand, fun hs hn => ?fits,
    exec_putBits_spills v.toNat hacc, fun k hk hs hn hw hok herr => ?err,
    fun w hop hz => runWord_reserved (decode_putBits_reserved hop hz) s⟩
  case fits =>
    rw [exec_putBits_of_passes (passes_putBits _ hs (hn.trans hacc.1)), putBits_fits _ hn]
    rfl
  case err =>
    exact exec_insertion_err (.inl ⟨_, _, rfl⟩) hacc (passes_putBits _ hs hw)
      (hk.trans_eq (appendedBytes_of_gt _ hacc hn hw).symm) hok herr

/-! ## FLUSH -/

theorem exec_flush_ok {s : State} (hacc : AccOk s) (hs : BypassState s) (hok : AnswersOk ((s.occ + 7) / 8) s) :
    ∃ bs : List Byte, bytesBits bs = s.pendingBits ++ padding s.occ ∧
      exec .flush s = .next { s with
        acc := 0
        free := BitVec.ofNat 7 s.params.accWidth
        totalBytes := s.totalBytes + BitVec.ofNat 64 ((s.occ + 7) / 8)
        lastResp := .ok
        sink := s.sink ++ bs
        sinkAnswers := s.sinkAnswers.drop ((s.occ + 7) / 8)
        draws := s.draws + (s.occ + 7) / 8 } := by
  obtain ⟨bs, hlen, hbits, hflush⟩ := flush_after_ok (.nil hacc) hok
  rw [List.append_nil, length_pendingBits] at hbits
  refine ⟨bs, hbits, ?_⟩
  rw [exec_flush_of_passes (passes_flush hs), hflush, afterBytes_of_bypass hs, hlen]
  rfl

theorem exec_flush_err {s : State} {k : Nat} (hacc : AccOk s) (hpass : Passes .flush s)
    (hk : k < (s.occ + 7) / 8) (hok : AnswersOk k s) (herr : s.answerAt k = .err) :
    ∃ t, exec .flush s = .next t ∧ AbortsAfter k (s.pendingBits ++ padding s.occ) s t := by
  obtain ⟨t, hflush, ht⟩ := flushBits_err hacc hk hok herr
  exact ⟨t, by rw [exec_flush_of_passes hpass, hflush, Flow.close_aborted], ht⟩

/-- Settles O24: FLUSH past its check is FlushBits. -/
theorem flushWritesPendingBits : Obligations.FlushWritesPendingBits := by
  unfold Obligations.FlushWritesPendingBits
  exact ⟨decode_flush,
    fun s hacc => ⟨exec_flush_rejState, exec_flush_ok hacc,
      fun k hk hs => exec_flush_err hacc (passes_flush hs) hk⟩,
    fun w s hop hz => runWord_reserved (decode_flush_reserved hop hz) s⟩

/-! ## What a bypass command leaves -/

/-- A bypass command is rejected, or it emits in UNCONF or IDLE (spec/60 R204). -/
theorem exec_bypass_cases {i : Instr} {s t : State}
    (hi : i = .flush ∨ (∃ n v, i = .putBits n v) ∨ (∃ d, i = .encDelta d) ∨ ∃ r, i = .encRun r)
    (h : exec i s = .next t) : (∃ code, t = s.reject code) ∨ (BypassState s ∧ Ends s t) := by
  cases exec_ends h with
  | rejected i code hc => exact .inl ⟨code, rfl⟩
  | bypass i t hi' hp he => exact .inr ⟨(bypassState_iff s).mpr hp, he⟩
  | nop | clear | config | frameStart | overflow | pixel => simp at hi

/-- An emission leaves the command port and the reset input to the host (spec/70 R230, R242). -/
theorem Ends.port {s t : State} (h : Ends s t) : t.port = s.port ∧ t.resetLine = s.resetLine := by
  cases h with
  | done t bs h => rw [h]; exact ⟨rfl, rfl⟩
  | aborted bs => exact ⟨rfl, rfl⟩
  | waiting t bs b h => rw [h]; exact ⟨rfl, rfl⟩

/-- Settles O43: an emission writes none of these elements, and it counts no frame byte outside FRAME. -/
theorem bypassLeavesRunState : Obligations.BypassLeavesRunState := by
  unfold Obligations.BypassLeavesRunState
  intro i s t hi h
  rcases exec_bypass_cases hi h with ⟨code, rfl⟩ | ⟨hs, he⟩
  · simp
  · obtain ⟨bs, hd, hc⟩ := he.outcome
    obtain ⟨hport, hreset⟩ := he.port
    have hframe : t.frameBytes = s.frameBytes := by
      rw [hd.frameBytes, ← State.afterBytes_frameBytes, afterBytes_of_bypass hs]
    refine ⟨hd.params, hd.cfgW, hd.cfgH, hd.pixIdx, hd.runLen, hd.prev, hframe, hport, hreset, ?_⟩
    cases hc with
    | ok hphase hdone hcause => exact .inl ⟨hdone, hphase, hcause⟩
    | aborted hphase hdone hcause hresp => exact .inr ⟨hdone, hphase, hcause, hresp⟩
    | waiting hphase hdone hcause => exact .inl ⟨hdone, hphase, hcause⟩

end Sys2Proof.Machine
end

section
/-! The stream law (spec/41 R105): a sequence of insertions and a flush, as one string of bits. -/

namespace Sys2Proof.Machine

/-! ## Insertions and a flush -/

/-- An initial part of a sequence puts no more bytes in the sink. -/
theorem flushedBytes_putAllBits_le {qs ps : List (Nat × Nat)} (h : qs <+: ps) (s : State) :
    flushedBytes (putAllBits qs) s ≤ flushedBytes (putAllBits ps) s := by
  have hlen : (putAllBits qs).length ≤ (putAllBits ps).length := (h.flatMap _).length_le
  unfold flushedBytes
  omega

/-- After an insertion the sink lags the string by what is pending (spec/41 R105, R106). -/
theorem Appends.lag {bits : List Bool} {s t : State} (h : Appends bits s t) :
    ∃ bs : List Byte, t.sink = s.sink ++ bs ∧ bytesBits bs <+: s.pendingBits ++ bits ∧
      (s.pendingBits ++ bits).length - 8 * bs.length ≤ s.params.accWidth := by
  obtain ⟨bs, -, ht, hbits⟩ := h.sink_eq
  have hocc : t.occ ≤ s.params.accWidth := by rw [← h.params]; exact Nat.sub_le _ _
  refine ⟨bs, by rw [ht]; rfl, hbits ▸ List.prefix_append _ _, ?_⟩
  rw [← hbits, List.length_append, length_bytesBits, length_pendingBits, Nat.add_sub_cancel_left]
  exact hocc

/-- A sequence of insertions inserts the strings one after the other, if the sink accepts the bytes of a flush after
it. -/
theorem putAll_appends {ps : List (Nat × Nat)} {s : State} (hacc : AccOk s)
    (hfits : ∀ nv ∈ ps, nv.1 ≤ s.params.accWidth) (hok : AnswersOk (flushedBytes (putAllBits ps) s) s) :
    ∃ t, putAll ps s = .going t ∧ Appends (putAllBits ps) s t :=
  (putAll_emission hacc hfits).ok (answersOk_mono hok (appendedBytes_le_flushedBytes _ s))

/-- A sequence of insertions and a flush put the pending bits, the strings and the padding in the sink. -/
theorem putAll_flush {ps : List (Nat × Nat)} {s : State} (hacc : AccOk s)
    (hfits : ∀ nv ∈ ps, nv.1 ≤ s.params.accWidth) (hok : AnswersOk (flushedBytes (putAllBits ps) s) s) :
    ∃ bs : List Byte, bs.length = flushedBytes (putAllBits ps) s ∧
      bytesBits bs = s.pendingBits ++ putAllBits ps ++ padding (s.pendingBits ++ putAllBits ps).length ∧
      (putAll ps s).andThen flushBits = .going (s.afterBytes bs).emptyAcc := by
  obtain ⟨u, hput, happ⟩ := putAll_appends hacc hfits hok
  obtain ⟨bs, hlen, hbits, hflush⟩ := flush_after_ok happ hok
  exact ⟨bs, hlen, hbits, by rw [hput, Flow.andThen_going, hflush]⟩

/-! ## From an empty accumulator -/

theorem occ_of_empty {s : State} (h : s.free.toNat = s.params.accWidth) : s.occ = 0 := by
  rw [State.occ, h, Nat.sub_self]

theorem pendingBits_of_empty {s : State} (h : s.free.toNat = s.params.accWidth) : s.pendingBits = [] :=
  List.length_eq_zero_iff.mp ((length_pendingBits s).trans (occ_of_empty h))

theorem flushedBytes_of_empty {s : State} (h : s.free.toNat = s.params.accWidth) (bits : List Bool) :
    flushedBytes bits s = (bits.length + 7) / 8 := by
  rw [flushedBytes, occ_of_empty h, Nat.zero_add]

/-- Settles O47: the sequence inserts the concatenation of its strings, and so does each initial part of it. -/
theorem streamLaw : Obligations.StreamLaw := by
  unfold Obligations.StreamLaw
  intro ps s hacc hempty hfits hok
  have hpending := pendingBits_of_empty hempty
  rw [← flushedBytes_of_empty hempty] at hok ⊢
  refine ⟨?whole, ?between⟩
  case whole =>
    obtain ⟨bs, hlen, hbits, hrun⟩ := putAll_flush hacc hfits hok
    rw [hpending, List.nil_append] at hbits
    exact ⟨_, bs, hrun, rfl, hbits, hlen⟩
  case between =>
    intro qs hqs
    obtain ⟨u, hput, happ⟩ := putAll_appends hacc (fun nv hnv => hfits nv (hqs.subset hnv))
      (answersOk_mono hok (flushedBytes_putAllBits_le hqs s))
    obtain ⟨bs, hsink, hinitial, hlag⟩ := happ.lag
    rw [hpending, List.nil_append] at hinitial hlag
    exact ⟨u, bs, hput, hsink, hinitial, hlag⟩

end Sys2Proof.Machine
end

section
/-! The numbers of the Huffman encoder: the categories of deltas and runs, their raw bits and the overflows
(spec/42 R132, R133, R135, R136, R138); and that a decoder reads a symbol back (spec/42 R139). -/

namespace Sys2Proof.Machine

/-! ## Delta categories -/

/-- The powers of two up to a number are those below its bit length (spec/00 R9). -/
theorem two_pow_le_iff_lt_bitlen (m j : Nat) : 2 ^ j ≤ m ↔ j < bitlen m := by
  rw [← not_lt, lt_two_pow_iff_bitlen_le, not_le]

theorem bitlen_eq_iff (m k : Nat) : bitlen m = k ↔ m < 2 ^ k ∧ ∀ j < k, 2 ^ j ≤ m := by
  simp only [lt_two_pow_iff_bitlen_le, two_pow_le_iff_lt_bitlen]
  constructor
  · rintro rfl
    exact ⟨le_rfl, fun j hj => hj⟩
  · rintro ⟨hle, hleast⟩
    exact hle.eq_of_not_lt fun hlt => lt_irrefl _ (hleast _ hlt)

theorem deltaCat_eq_zero_iff (d : Int) : deltaCat d = 0 ↔ d = 0 := by
  constructor
  · intro hcat
    by_contra hd
    exact absurd (deltaCat_bounds hd).1 (by omega)
  · rintro rfl
    exact deltaCat_zero

/-- Category k ≥ 1 is two intervals, of positive and of negative deltas (spec/42 R132). -/
theorem deltaCat_eq_iff {d : Int} {k : Nat} (hk : 1 ≤ k) :
    deltaCat d = k ↔ 2 ^ (k - 1) ≤ d.natAbs ∧ d.natAbs ≤ 2 ^ k - 1 := by
  rw [two_pow_le_iff_lt_bitlen, Nat.le_sub_one_iff_lt (by positivity), lt_two_pow_iff_bitlen_le, deltaCat]
  omega

/-- Settles O48: each clause is a bound on the bit length of the magnitude. -/
theorem deltaCategories : Obligations.DeltaCategories := by
  unfold Obligations.DeltaCategories
  exact ⟨deltaCat_eq_zero_iff, fun _ _ hk => deltaCat_eq_iff hk, bitlen_eq_iff⟩

/-! ## Overflow -/

theorem deltaOverflow_eq_false_iff (d : Int) : deltaOverflow d = false ↔ deltaCat d ≤ 31 := by
  rw [deltaOverflow, decide_eq_false_iff_not, not_lt]

/-- There is no category 32 (spec/42 R133). -/
theorem deltaOverflow_iff (d : Int) : deltaOverflow d = true ↔ 2 ^ 31 ≤ d.natAbs := by
  rw [← not_lt, ← deltaCat_le_iff, ← deltaOverflow_eq_false_iff, Bool.not_eq_false]

theorem runOverflow_iff (p : Params) (r : Nat) :
    runOverflow p r = true ↔ 255 ≤ r ∧ 2 ^ p.runEscBits ≤ r - 255 := by
  rw [runOverflow, Bool.and_eq_true, decide_eq_true_iff, decide_eq_true_iff]

theorem runOverflow_eq_false_iff (p : Params) (r : Nat) :
    runOverflow p r = false ↔ r < 255 ∨ r - 255 < 2 ^ p.runEscBits := by
  rw [← Bool.not_eq_true, runOverflow_iff, not_and_or, not_le, not_le]

/-- Settles O50: two samples differ by less than 2^SAMPLE_BITS. -/
theorem frameDeltaNeverOverflows : Obligations.FrameDeltaNeverOverflows := by
  unfold Obligations.FrameDeltaNeverOverflows
  intro p x y hx hy
  have hcat : deltaCat ((x : Int) - y) ≤ p.sampleBits := by
    rw [deltaCat_le_iff]
    omega
  exact ⟨hcat, (deltaOverflow_eq_false_iff _).mpr (hcat.trans p.sampleBits_le)⟩

/-! ## Raw bits of a delta -/

theorem deltaRaw_of_pos {d : Int} (hd : 0 < d) : (deltaRaw d : Int) = d := by
  rw [deltaRaw, if_pos hd, Int.toNat_of_nonneg hd.le]

theorem deltaRaw_of_neg {d : Int} (hd : d < 0) : (deltaRaw d : Int) = d + (2 ^ deltaCat d - 1) := by
  have hlt : (d.natAbs : Int) < 2 ^ deltaCat d := mod_cast (deltaCat_bounds hd.ne).2.2
  rw [deltaRaw, if_neg hd.not_gt, Int.toNat_of_nonneg (by omega)]

/-- The raw bits of a negative delta are the ones' complement of its magnitude (spec/42 R133). -/
theorem deltaRaw_add_natAbs {d : Int} (hd : d < 0) : deltaRaw d + d.natAbs + 1 = 2 ^ deltaCat d := by
  zify
  rw [deltaRaw_of_neg hd, abs_of_neg hd]
  ring

/-- The top bit of a number of at most k bits says in which half of 0..2^k−1 it is. -/
theorem testBit_pred_eq_decide {m k : Nat} (hk : 1 ≤ k) (hm : m < 2 ^ k) :
    m.testBit (k - 1) = decide (2 ^ (k - 1) ≤ m) := by
  by_cases hhalf : 2 ^ (k - 1) ≤ m
  · rw [decide_eq_true hhalf]
    exact Nat.testBit_of_two_pow_le_and_two_pow_add_one_gt hhalf (by rwa [Nat.sub_add_cancel hk])
  · rw [decide_eq_false hhalf]
    exact Nat.testBit_lt_two_pow (not_le.mp hhalf)

/-- The top raw bit of a delta is its sign: 1 if it is positive, 0 if it is negative (spec/42 R133). -/
theorem deltaRaw_testBit {d : Int} (hd : d ≠ 0) : (deltaRaw d).testBit (deltaCat d - 1) = decide (0 < d) := by
  obtain ⟨hk, hlow, -⟩ := deltaCat_bounds hd
  rw [testBit_pred_eq_decide hk (deltaRaw_lt d), decide_eq_decide]
  rcases hd.lt_or_gt with hneg | hpos
  · have hsum := deltaRaw_add_natAbs hneg
    have hdouble := Nat.two_pow_pred_add_two_pow_pred hk
    omega
  · have hraw := deltaRaw_of_pos hpos
    omega

/-- Every number of k bits is the raw value of a delta of category k, which the decoder of spec/42 R139 computes:
the number itself in the upper half, and 2^k−1 below it in the lower. -/
theorem exists_deltaRaw_eq {k m : Nat} (hk : 1 ≤ k) (hm : m < 2 ^ k) : ∃ d, deltaCat d = k ∧ deltaRaw d = m := by
  have hdouble := Nat.two_pow_pred_add_two_pow_pred hk
  have hpos : 0 < 2 ^ (k - 1) := by positivity
  by_cases hhalf : 2 ^ (k - 1) ≤ m
  · have hcat : deltaCat (m : Int) = k := (deltaCat_eq_iff hk).mpr (by omega)
    have hraw := deltaRaw_of_pos (d := (m : Int)) (by omega)
    exact ⟨m, hcat, by omega⟩
  · have hcat : deltaCat ((m : Int) - (2 ^ k - 1 : Nat)) = k := (deltaCat_eq_iff hk).mpr (by omega)
    have hraw := deltaRaw_add_natAbs (d := (m : Int) - (2 ^ k - 1 : Nat)) (by omega)
    rw [hcat] at hraw
    exact ⟨_, hcat, by omega⟩

/-- Settles O49: the raw bits fit, they determine the delta within its category, and none is unused. -/
theorem deltaRawIsABijection : Obligations.DeltaRawIsABijection := by
  unfold Obligations.DeltaRawIsABijection
  refine ⟨fun k hk => ⟨?fits, ?injective, fun m hm => exists_deltaRaw_eq hk hm⟩,
    fun d hd => ⟨deltaRaw_of_pos hd, ?positive⟩, fun d hd => ⟨deltaRaw_of_neg hd, ?negative⟩, deltaOverflow_iff⟩
  case fits =>
    rintro d rfl
    exact deltaRaw_lt d
  case injective => exact fun d hd e he hraw => deltaRaw_inj (hd.trans he.symm) hraw
  case positive => rw [deltaRaw_testBit hd.ne', decide_eq_true hd]
  case negative => rw [deltaRaw_testBit hd.ne, decide_eq_false hd.not_gt]

/-! ## Runs -/

/-- Two runs of one category are equal, or both take the escape (spec/42 R136). -/
theorem eq_or_escape_of_runCat_eq {r q : Nat} (h : runCat r = runCat q) : r = q ∨ (255 ≤ r ∧ 255 ≤ q) := by
  unfold runCat runEscape at h
  split at h <;> split at h <;> omega

theorem runBits_of_le {r : Nat} (p : Params) (hr : r ≤ 254) : runBits p r = codeword (cbRun p r) := by
  rw [runBits, runCat, if_pos hr, if_pos hr, List.append_nil]

theorem runBits_of_ge {r : Nat} (p : Params) (hr : 255 ≤ r) :
    runBits p r = codeword (cbRun p 255) ++ bitsN p.runEscBits (r - 255) := by
  rw [runBits, runCat, if_neg (by omega), if_neg (by omega), runEscape, runRemainder, runEscape]

/-- Settles O51: an escape of 32 bits holds every 32-bit run, and the first run past a narrower one is one of them. -/
theorem runCategories : Obligations.RunCategories := by
  unfold Obligations.RunCategories
  refine ⟨fun r => rfl, runOverflow_iff, fun p r hesc hr => ?wide, fun p hesc => ?narrow, fun p r => ?bits⟩
  case wide =>
    rw [runOverflow_eq_false_iff, hesc]
    omega
  case narrow =>
    have hpow : 2 ^ p.runEscBits ≤ 2 ^ 31 := Nat.pow_le_pow_right (by norm_num) (by omega)
    have hover : runOverflow p (255 + 2 ^ p.runEscBits) = true :=
      (runOverflow_iff p _).mpr ⟨Nat.le_add_right _ _, (Nat.add_sub_cancel_left _ _).ge⟩
    exact ⟨255 + 2 ^ p.runEscBits, by omega, hover⟩
  case bits =>
    split
    · next hr => exact runBits_of_le p hr
    · next hr => exact runBits_of_ge p (by omega)

/-! ## Decoding -/

/-- Codewords of a prefix-free codebook, read at indices within the codebook (spec/20 R61, spec/42 R139). -/
theorem codeword_unique_of_lt {n : Nat} [NeZero n] {cb : Vector Entry n} (hp : prefixFree n cb) {i j : Nat}
    (hi : i < n) (hj : j < n) {x y : List Bool}
    (h : codeword (cb.get (Fin.ofNat n i)) ++ x = codeword (cb.get (Fin.ofNat n j)) ++ y) : i = j ∧ x = y := by
  obtain ⟨hindex, hrest⟩ := codeword_unique hp h
  have hmod : i % n = j % n := congrArg Fin.val hindex
  rw [Nat.mod_eq_of_lt hi, Nat.mod_eq_of_lt hj] at hmod
  exact ⟨hmod, hrest⟩

/-- A stream begins with the raw bits of one number of that width only. -/
theorem bitsN_append_inj_of_lt {n v w : Nat} {x y : List Bool} (hv : v < 2 ^ n) (hw : w < 2 ^ n)
    (h : bitsN n v ++ x = bitsN n w ++ y) : v = w ∧ x = y := by
  obtain ⟨hmod, hrest⟩ := bitsN_append_inj h
  rw [Nat.mod_eq_of_lt hv, Nat.mod_eq_of_lt hw] at hmod
  exact ⟨hmod, hrest⟩

/-- A stream begins with one run symbol only: the codeword gives the category, and the raw bits after an escape the
remainder. -/
theorem runBits_append_inj {p : Params} {r q : Nat} {x y : List Bool} (hp : prefixFree 256 p.runCb)
    (hr : runOverflow p r = false) (hq : runOverflow p q = false) (h : runBits p r ++ x = runBits p q ++ y) :
    r = q ∧ x = y := by
  have hwords := h
  rw [runBits, runBits, List.append_assoc, List.append_assoc] at hwords
  obtain ⟨hcat, -⟩ :=
    codeword_unique_of_lt hp (Nat.lt_succ_of_le (runCat_le r)) (Nat.lt_succ_of_le (runCat_le q)) hwords
  rcases eq_or_escape_of_runCat_eq hcat with rfl | ⟨her, heq⟩
  · exact ⟨rfl, List.append_cancel_left h⟩
  · rw [runBits_of_ge p her, runBits_of_ge p heq, List.append_assoc, List.append_assoc] at h
    rw [runOverflow_eq_false_iff] at hr hq
    obtain ⟨hrem, hrest⟩ :=
      bitsN_append_inj_of_lt (hr.resolve_left her.not_gt) (hq.resolve_left heq.not_gt) (List.append_cancel_left h)
    exact ⟨by omega, hrest⟩

/-- A stream begins with one delta symbol only: the codeword gives the category, and the raw bits the delta in it. -/
theorem deltaBits_append_inj {p : Params} {d e : Int} {x y : List Bool} (hp : prefixFree 32 p.deltaCb)
    (hd : deltaOverflow d = false) (he : deltaOverflow e = false) (h : deltaBits p d ++ x = deltaBits p e ++ y) :
    d = e ∧ x = y := by
  rw [deltaBits, deltaBits, List.append_assoc, List.append_assoc] at h
  rw [deltaOverflow_eq_false_iff] at hd he
  obtain ⟨hcat, hraws⟩ := codeword_unique_of_lt hp (Nat.lt_succ_of_le hd) (Nat.lt_succ_of_le he) h
  have hfits := deltaRaw_lt d
  rw [hcat] at hraws hfits
  obtain ⟨hraw, hrest⟩ := bitsN_append_inj_of_lt hfits (deltaRaw_lt e) hraws
  exact ⟨deltaRaw_inj hcat hraw, hrest⟩

/-- Settles O52: each alphabet's symbols are read one way, and both raw values are inverted. -/
theorem symbolsDecodable : Obligations.SymbolsDecodable := by
  unfold Obligations.SymbolsDecodable
  exact ⟨fun _ _ _ _ _ hp hr hq => runBits_append_inj hp hr hq,
    fun _ _ _ _ _ hp hd he => deltaBits_append_inj hp hd he, fun _ hd => deltaRaw_inverse hd,
    fun _ hr => (Nat.add_sub_of_le hr).symm⟩

end Sys2Proof.Machine
end

section
/-! The bypass commands ENC_DELTA and ENC_RUN: their rejections, and the symbol that they insert past their checks
(spec/42 R140, R141). -/

namespace Sys2Proof.Machine

/-! ## Insertions -/

/-- PUT_BITS, ENC_DELTA and ENC_RUN append their bits and respond OK, where their insertion goes on (spec/60 R200). -/
theorem exec_insertion_ok {i : Instr} {s : State}
    (hi : (∃ n v, i = .putBits n v) ∨ (∃ d, i = .encDelta d) ∨ ∃ r, i = .encRun r) (hacc : AccOk s)
    (hpass : Passes i s) (hok : AnswersOk (appendedBytes (bypassBits i s) s) s) :
    ∃ t, exec i s = .next t ∧ Appends (bypassBits i s) (s.respond .ok) t := by
  obtain ⟨f, hexec, hf⟩ := exec_insertion hi hacc hpass
  obtain ⟨t, rfl, ht⟩ := hf.ok hok
  exact ⟨t.respond .ok, hexec, ht.respond .ok⟩

/-- In ENC_DELTA and ENC_RUN a set bit of the zero field makes the word reserved (spec/30 R87). -/
theorem decode_symbol_reserved {w : Word} (hop : opcodeOf w = 0x6 ∨ opcodeOf w = 0x7)
    (hz : zeroFieldDS w ≠ 0) : decode w = .reserved .zeroField := by
  rcases hop with hop | hop
  · simp [decode, hop, checkZero, hz]
  · simp [decode, hop, checkZero, hz]

/-! ## ENC_DELTA -/

/-- The only operand without a category is −2^31 (spec/42 R140). -/
theorem deltaOverflow_toInt_iff (d : BitVec 32) : deltaOverflow d.toInt = true ↔ d = 0x80000000 := by
  rw [deltaOverflow_iff, ← BitVec.toInt_inj]
  have hmin : (0x80000000 : BitVec 32).toInt = -2 ^ 31 := by decide
  have hlow := BitVec.le_toInt d
  have hhigh := BitVec.toInt_lt (x := d)
  omega

theorem passes_encDelta {d : BitVec 32} {s : State} (hs : BypassState s) (hd : d ≠ 0x80000000) :
    Passes (.encDelta d.toInt) s := by
  rw [passes_encDelta_iff, ← deltaOverflow_eq_false_iff, ← Bool.not_eq_true, deltaOverflow_toInt_iff]
  exact ⟨(bypassState_iff s).mp hs, hd⟩

theorem exec_encDelta_rejState {d : Int} {s : State} (h : ¬ BypassState s) :
    exec (.encDelta d) s = .next (s.reject .rejState) := by
  rw [bypassState_iff] at h
  simp [exec, execEncDelta, h]

theorem exec_encDelta_rejOverflow {d : Int} {s : State} (h : BypassState s) (hd : deltaOverflow d = true) :
    exec (.encDelta d) s = .next (s.reject .rejOverflow) := by
  rw [bypassState_iff] at h
  simp [exec, execEncDelta, h, hd]

/-- Settles O25: ENC_DELTA past its checks inserts the symbol of its delta. -/
theorem encDeltaAppendsSymbol : Obligations.EncDeltaAppendsSymbol := by
  unfold Obligations.EncDeltaAppendsSymbol
  intro d s hacc
  exact ⟨decode_encDelta d, exec_encDelta_rejState,
    fun hs hd => exec_encDelta_rejOverflow hs ((deltaOverflow_toInt_iff d).mpr hd),
    fun hs hd hok => exec_insertion_ok (.inr (.inl ⟨_, rfl⟩)) hacc (passes_encDelta hs hd) hok,
    fun _ hk hs hd hok herr => exec_insertion_err (.inr (.inl ⟨_, rfl⟩)) hacc (passes_encDelta hs hd) hk hok herr,
    fun w hop hz => runWord_reserved (decode_symbol_reserved (.inl hop) hz) s⟩

/-! ## ENC_RUN -/

theorem passes_encRun {r : Nat} {s : State} (hs : BypassState s)
    (hr : r < 255 ∨ r - 255 < 2 ^ s.params.runEscBits) : Passes (.encRun r) s :=
  (passes_encRun_iff r s).mpr ⟨(bypassState_iff s).mp hs, (runOverflow_eq_false_iff _ r).mpr hr⟩

theorem exec_encRun_rejState {r : Nat} {s : State} (h : ¬ BypassState s) :
    exec (.encRun r) s = .next (s.reject .rejState) := by
  rw [bypassState_iff] at h
  simp [exec, execEncRun, h]

theorem exec_encRun_rejOverflow {r : Nat} {s : State} (h : BypassState s) (hr : runOverflow s.params r = true) :
    exec (.encRun r) s = .next (s.reject .rejOverflow) := by
  rw [bypassState_iff] at h
  simp [exec, execEncRun, h, hr]

/-- Settles O26: ENC_RUN past its checks inserts the symbol of its run. -/
theorem encRunAppendsSymbol : Obligations.EncRunAppendsSymbol := by
  unfold Obligations.EncRunAppendsSymbol
  intro r s hacc
  exact ⟨decode_encRun r, exec_encRun_rejState,
    fun hs hge hesc => exec_encRun_rejOverflow hs ((runOverflow_iff _ _).mpr ⟨hge, hesc⟩),
    fun hs hr hok => exec_insertion_ok (.inr (.inr ⟨_, rfl⟩)) hacc (passes_encRun hs hr) hok,
    fun _ hk hs hr hok herr => exec_insertion_err (.inr (.inr ⟨_, rfl⟩)) hacc (passes_encRun hs hr) hk hok herr,
    fun w hop hz => runWord_reserved (decode_symbol_reserved (.inr hop) hz) s⟩

end Sys2Proof.Machine
end

section
/-! CONFIG and FRAME_START: each rejection under its own condition, and what they write past their checks (spec/43 R160,
R162, spec/60 R209). -/

namespace Sys2Proof.Machine

/-- In CONFIG, FRAME_START and PIXEL a set bit of the zero field makes the word reserved (spec/30 R87). -/
theorem decode_frameCommand_reserved {w : Word} (hop : opcodeOf w = 0x1 ∨ opcodeOf w = 0x2 ∨ opcodeOf w = 0x3)
    (hz : zeroFieldDS w ≠ 0) : decode w = .reserved .zeroField := by
  rcases hop with hop | hop | hop
  · simp [decode, hop, checkZero, hz]
  · simp [decode, hop, checkZero, hz]
  · simp [decode, hop, checkZero, hz]

theorem accEmpty_eq_false {s : State} (h : s.free.toNat ≠ s.params.accWidth) : s.accEmpty = false := by
  rw [← Bool.not_eq_true, State.accEmpty_iff]
  exact h

/-! ## CONFIG -/

theorem exec_config_rejState {w h : Nat} {s : State} (hs : ¬ BypassState s) :
    exec (.config w h) s = .next (s.reject .rejState) := by
  rw [bypassState_iff] at hs
  simp [exec, execConfig, hs]

theorem exec_config_rejOperand {w h : Nat} {s : State} (hs : BypassState s) (hz : w = 0 ∨ h = 0) :
    exec (.config w h) s = .next (s.reject .rejOperand) := by
  rw [bypassState_iff] at hs
  simp [exec, execConfig, hs, hz]

theorem exec_config_rejPending {w h : Nat} {s : State} (hs : BypassState s) (hw : w ≠ 0) (hh : h ≠ 0)
    (hpending : s.free.toNat ≠ s.params.accWidth) : exec (.config w h) s = .next (s.reject .rejPending) := by
  rw [bypassState_iff] at hs
  simp [exec, execConfig, hs, hw, hh, accEmpty_eq_false hpending]

theorem passes_config {w h : Nat} {s : State} (hs : BypassState s) (hw : w ≠ 0) (hh : h ≠ 0)
    (hempty : s.free.toNat = s.params.accWidth) : Passes (.config w h) s :=
  (passes_config_iff w h s).mpr ⟨(bypassState_iff s).mp hs, hw, hh, (State.accEmpty_iff s).mpr hempty⟩

/-- The operands of CONFIG are its two fields of 16 bits (spec/30 R85). -/
theorem construct_toNat (w h : BitVec 16) (s : State) :
    s.construct w.toNat h.toNat = { s.construct w.toNat h.toNat with cfgW := w, cfgH := h } := by
  simp [State.construct]

/-- Settles O20: CONFIG is rejected by the first of its checks that fails, and constructs the writer past them. -/
theorem configConstructsWriter : Obligations.ConfigConstructsWriter := by
  unfold Obligations.ConfigConstructsWriter
  intro w h s
  have hne : ∀ {x : BitVec 16}, x ≠ 0 → x.toNat ≠ 0 := fun hx e => hx (BitVec.eq_of_toNat_eq e)
  refine ⟨decode_config w h, exec_config_rejState, fun hs hz => exec_config_rejOperand hs ?zero,
    fun hs hw hh => exec_config_rejPending hs (hne hw) (hne hh), fun hs hw hh hempty => ?accepted,
    fun word hop hz => runWord_reserved (decode_frameCommand_reserved (.inl hop) hz) s⟩
  case zero => exact hz.imp (congrArg BitVec.toNat) (congrArg BitVec.toNat)
  case accepted =>
    refine ⟨_, exec_config_of_passes (passes_config hs (hne hw) (hne hh) hempty), ?_, ?_⟩
    · rw [construct_toNat]
      rfl
    · rw [construct_toNat]
      rfl

/-! ## FRAME_START -/

theorem exec_frameStart_rejState {w h : Nat} {s : State} (hp : s.phase ≠ .idle) :
    exec (.frameStart w h) s = .next (s.reject .rejState) := by
  simp [exec, execFrameStart, hp]

theorem exec_frameStart_rejMismatch {w h : Nat} {s : State} (hp : s.phase = .idle)
    (hm : w ≠ s.cfgW.toNat ∨ h ≠ s.cfgH.toNat) : exec (.frameStart w h) s = .next (s.reject .rejMismatch) := by
  rw [exec, execFrameStart, if_neg (not_not.mpr hp), if_pos hm]

theorem exec_frameStart_rejPending {s : State} (hp : s.phase = .idle)
    (hpending : s.free.toNat ≠ s.params.accWidth) :
    exec (.frameStart s.cfgW.toNat s.cfgH.toNat) s = .next (s.reject .rejPending) := by
  simp [exec, execFrameStart, hp, accEmpty_eq_false hpending]

theorem passes_frameStart {s : State} (hp : s.phase = .idle) (hempty : s.free.toNat = s.params.accWidth) :
    Passes (.frameStart s.cfgW.toNat s.cfgH.toNat) s :=
  (passes_frameStart_iff _ _ s).mpr ⟨hp, rfl, rfl, (State.accEmpty_iff s).mpr hempty⟩

/-- Settles O21: FRAME_START is rejected by the first of its checks that fails, and begins the frame past them. -/
theorem frameStartBeginsFrame : Obligations.FrameStartBeginsFrame := by
  unfold Obligations.FrameStartBeginsFrame
  intro w h s
  have hne : ∀ {x y : BitVec 16}, x ≠ y → x.toNat ≠ y.toNat := fun hxy e => hxy (BitVec.eq_of_toNat_eq e)
  refine ⟨decode_frameStart w h, exec_frameStart_rejState,
    fun hp hm => exec_frameStart_rejMismatch hp (hm.imp hne hne), fun hp hw hh hpending => ?pending,
    fun hp hw hh hempty => ?accepted,
    fun word hop hz => runWord_reserved (decode_frameCommand_reserved (.inr (.inl hop)) hz) s⟩
  case pending =>
    subst hw hh
    exact exec_frameStart_rejPending hp hpending
  case accepted =>
    subst hw hh
    exact exec_frameStart_of_passes (passes_frameStart hp hempty)

end Sys2Proof.Machine
end

section
/-! PIXEL past its checks, where the sink accepts what it emits: a sample that is not the last of its frame, and the
last one with the end of the frame (spec/43 R164, R166). -/

namespace Sys2Proof.Machine

/-! ## Checks -/

theorem exec_pixel_rejState {x : Nat} {s : State} (hp : s.phase ≠ .frame) :
    exec (.pixel x) s = .next (s.reject .rejState) := by
  simp [exec, execPixel, hp]

theorem exec_pixel_rejOperand {x : Nat} {s : State} (hp : s.phase = .frame) (hx : 2 ^ s.params.sampleBits ≤ x) :
    exec (.pixel x) s = .next (s.reject .rejOperand) := by
  simp [exec, execPixel, hp, hx]

theorem passes_pixel_iff (x : Nat) (s : State) :
    Passes (.pixel x) s ↔ s.phase = .frame ∧ x < 2 ^ s.params.sampleBits ∧ overflows (.pixel x) s = false := by
  simp [Passes, legalIn, badOperand, mismatched, blockedByPending]

theorem atLast_eq_false {s : State} (h : s.pixIdx.toNat + 1 ≠ s.length) : s.atLast = false := by
  rw [← Bool.not_eq_true, atLast_iff]
  exact h

theorem overflows_pixel_valid {x : Nat} {s : State} (hx : x ≠ s.params.invalidMarker) :
    overflows (.pixel x) s = runOverflow s.params s.runLen.toNat := if_neg hx

/-- An invalid sample is checked only where it ends its frame (spec/43 R164). -/
theorem overflows_pixel_invalid {x : Nat} {s : State} (hx : x = s.params.invalidMarker)
    (hlast : s.pixIdx.toNat + 1 ≠ s.length) : overflows (.pixel x) s = false := by
  simp [overflows, hx, hlast]

/-! ## A sample that is not the last -/

/-- A PIXEL before the last position emits its own bits, makes its writes and responds OK. -/
theorem exec_pixel_ok {x : Nat} {s : State} (hacc : AccOk s) (hpass : Passes (.pixel x) s)
    (hlast : s.pixIdx.toNat + 1 ≠ s.length) (hok : AnswersOk (appendedBytes (pixelBits x s) s) s) :
    ∃ t, exec (.pixel x) s = .next t ∧ Appends (pixelBits x s) ((s.consume x).respond .ok) t := by
  obtain ⟨hp, hx, ho⟩ := passes_pixel hpass
  obtain ⟨t, ht, happ⟩ := consumeSample_ok hacc (sample_lt hx) hok
  refine ⟨t.advance.respond .ok, ?_, happ.respond .ok⟩
  rw [exec_pixel_body hp hx ho, ht, Flow.andThen_going, atLast_eq_false hlast]
  rfl

/-- An invalid sample touches neither the sink nor the accumulator. -/
theorem exec_pixel_invalid {x : Nat} {s : State} (hpass : Passes (.pixel x) s)
    (hlast : s.pixIdx.toNat + 1 ≠ s.length) (hx : x = s.params.invalidMarker) :
    exec (.pixel x) s = .next ((s.consume x).respond .ok) := by
  obtain ⟨hp, hfits, ho⟩ := passes_pixel hpass
  have hinvalid : ¬ validSample s.params x = true := fun hv => validSample_eq_true.mp hv hx
  rw [exec_pixel_body hp hfits ho, consumeSample, consume_eq, if_neg hinvalid, if_neg hinvalid, Flow.andThen_going,
    atLast_eq_false hlast]
  rfl

/-- Settles O28: PIXEL before the last position is rejected, extends the run, or inserts the run and the delta. -/
theorem pixelConsumesSample : Obligations.PixelConsumesSample := by
  unfold Obligations.PixelConsumesSample
  intro x s hI
  refine ⟨decode_pixel x, exec_pixel_rejState, exec_pixel_rejOperand, fun hp hlast hx => ?invalid,
    fun hp hlast hfits hx ho hok => ?valid,
    fun word hop hz => runWord_reserved (decode_frameCommand_reserved (.inr (.inr hop)) hz) s⟩
  case invalid =>
    have hpass : Passes (.pixel x.toNat) s :=
      (passes_pixel_iff _ s).mpr ⟨hp, hx ▸ invalidMarker_lt s.params, overflows_pixel_invalid hx hlast⟩
    rw [exec_pixel_invalid hpass hlast hx, consume_of_invalid hx]
    rfl
  case valid =>
    have hpass : Passes (.pixel x.toNat) s :=
      (passes_pixel_iff _ s).mpr ⟨hp, hfits, (overflows_pixel_valid hx).trans ho⟩
    have hbits := pixelBits_valid (validSample_eq_true.mpr hx)
    rw [← hbits] at hok ⊢
    obtain ⟨t, hexec, happ⟩ := exec_pixel_ok hI.accOk hpass hlast hok
    rw [consume_of_valid hx] at happ
    exact ⟨t, hexec, happ⟩

/-! ## The last sample -/

/-- The PIXEL at the last position puts the pending bits, its own, the closing run and the padding in the sink, and
completes the frame. -/
theorem exec_lastPixel_ok {x : Nat} {s : State} (hI : StateInv s) (hpass : Passes (.pixel x) s)
    (hlast : s.pixIdx.toNat + 1 = s.length)
    (hok : AnswersOk (flushedBytes (pixelBits x s ++ closingBits x s) s) s) :
    ∃ bs : List Byte, bs.length = flushedBytes (pixelBits x s ++ closingBits x s) s ∧
      bytesBits bs = s.pendingBits ++ (pixelBits x s ++ closingBits x s) ++
        padding (s.pendingBits ++ (pixelBits x s ++ closingBits x s)).length ∧
      exec (.pixel x) s = .next (((s.consume x).clearRun.afterBytes bs).emptyAcc.finishFrame.respond .ok) := by
  obtain ⟨hp, -, -⟩ := passes_pixel hpass
  have hall := answersOk_mono hok (appendedBytes_le_flushedBytes _ s)
  have hown := answersOk_mono hall (appendedBytes_le_append _ _ s)
  obtain ⟨u, hexec, hu⟩ := exec_lastPixel hI.accOk hpass hlast hown
  obtain ⟨v, hrun, hv⟩ := closingRun_ok hI hp hu hall
  have hcount : ∀ bits, flushedBytes bits (s.consume x).clearRun = flushedBytes bits s :=
    fun bits => flushedBytes_consume bits x s
  have hpending : (s.consume x).clearRun.pendingBits = s.pendingBits := consume_pending x s
  obtain ⟨bs, hlen, hbits, hflush⟩ := flush_after_ok hv fun j hj =>
    (consume_answers x s j).trans (hok j (by rwa [← hcount]))
  rw [hcount] at hlen
  rw [hpending] at hbits
  exact ⟨bs, hlen, hbits,
    by rw [hexec, endFrame_of_encRun_going hrun, hflush, Flow.andThen_going, Flow.close_going]⟩

/-- In a frame the bytes are counted in both counters (spec/41 R103). -/
theorem afterBytes_of_frame {s : State} (h : s.phase = .frame) (bs : List Byte) :
    s.afterBytes bs = { s with
      sink := s.sink ++ bs
      sinkAnswers := s.sinkAnswers.drop bs.length
      draws := s.draws + bs.length
      totalBytes := s.totalBytes + BitVec.ofNat 64 bs.length
      frameBytes := s.frameBytes + BitVec.ofNat 64 bs.length } := by
  rw [State.afterBytes, if_pos h]

/-- The writes of a PIXEL's sample, by element. -/
theorem consume_clearRun (x : Nat) (s : State) :
    (s.consume x).clearRun = { s with
      runLen := 0
      prev := if x = s.params.invalidMarker then s.prev else BitVec.ofNat 31 x
      pixIdx := s.pixIdx + 1 } := by
  by_cases hx : x = s.params.invalidMarker
  · rw [consume_of_invalid hx, if_pos hx]; rfl
  · rw [consume_of_valid hx, if_neg hx]; rfl

/-- Settles O29: the last PIXEL is its own insertion, the closing run's and a flush. -/
theorem lastPixelEndsFrame : Obligations.LastPixelEndsFrame := by
  unfold Obligations.LastPixelEndsFrame
  intro x s hI hp hlast hx ho hok
  obtain ⟨bs, hlen, hbits, hexec⟩ := exec_lastPixel_ok hI ((passes_pixel_iff _ s).mpr ⟨hp, hx, ho⟩) hlast hok
  rw [← List.append_assoc] at hbits
  have hframe : (s.consume x.toNat).clearRun.phase = .frame := (consume_phase _ s).trans hp
  rw [afterBytes_of_frame hframe, consume_clearRun] at hexec
  exact ⟨bs, hlen, hbits, hexec⟩

end Sys2Proof.Machine
end

section
/-! The symbols and the bits of a frame: its grammar, what they depend on, and that a decoder that knows LENGTH reads
one frame only (spec/43 R170, R171, R173, R174). -/

namespace Sys2Proof.Machine

/-! ## One sample more -/

theorem validSample_eq_false {p : Params} {x : Nat} : validSample p x = false ↔ x = p.invalidMarker := by
  rw [← Bool.not_eq_true, validSample_eq_true, not_not]

theorem symbolsFrom_nil (p : Params) (run prev : Nat) : symbolsFrom p run prev [] = [.run run] := rfl

theorem symbolsFrom_cons_valid {p : Params} {x : Nat} (hx : x ≠ p.invalidMarker) (run prev : Nat) (rest : List Nat) :
    symbolsFrom p run prev (x :: rest) = .run run :: .delta ((x : Int) - prev) :: symbolsFrom p 0 x rest := by
  rw [symbolsFrom, if_pos (validSample_eq_true.mpr hx)]

theorem symbolsFrom_cons_invalid {p : Params} {x : Nat} (hx : x = p.invalidMarker) (run prev : Nat)
    (rest : List Nat) : symbolsFrom p run prev (x :: rest) = symbolsFrom p (run + 1) prev rest := by
  rw [symbolsFrom, validSample_eq_false.mpr hx, if_neg Bool.false_ne_true]

/-! ## The grammar -/

/-- A run of invalid samples before a valid one is one Run and its Delta (spec/43 R170). -/
theorem symbolsFrom_run_delta {p : Params} {v : Nat} (hv : v ≠ p.invalidMarker) (prev r : Nat) (rest : List Nat) :
    symbolsFrom p 0 prev (List.replicate r p.invalidMarker ++ v :: rest) =
      .run r :: .delta ((v : Int) - prev) :: symbolsFrom p 0 v rest := by
  rw [symbolsFrom_invalid, Nat.zero_add, symbolsFrom_cons_valid hv]

/-- What is left of a frame is its closing Run (spec/43 R170). -/
theorem symbolsFrom_closing (p : Params) (prev r : Nat) :
    symbolsFrom p 0 prev (List.replicate r p.invalidMarker) = [.run r] := by
  have h := symbolsFrom_invalid p 0 prev r []
  rwa [List.append_nil, Nat.zero_add, symbolsFrom_nil] at h

theorem length_symbolsFrom (p : Params) (run prev : Nat) (samples : List Nat) :
    (symbolsFrom p run prev samples).length = 2 * samples.countP (· ≠ p.invalidMarker) + 1 := by
  induction samples generalizing run prev with
  | nil => rfl
  | cons x rest ih =>
    by_cases hx : x = p.invalidMarker
    · rw [symbolsFrom_cons_invalid hx, ih, List.countP_cons_of_neg (by simpa using hx)]
    · rw [symbolsFrom_cons_valid hx, List.length_cons, List.length_cons, ih,
        List.countP_cons_of_pos (by simpa using hx)]
      omega

/-- Run and Delta in turn, beginning with a Run. -/
def Alternates (symbols : List Symbol) : Prop :=
  ∀ j < symbols.length,
    (j % 2 = 0 → ∃ r, symbols[j]? = some (.run r)) ∧ (j % 2 = 1 → ∃ d, symbols[j]? = some (.delta d))

theorem alternates_run (r : Nat) : Alternates [.run r] := by
  intro j hj
  obtain rfl : j = 0 := by simpa using hj
  exact ⟨fun _ => ⟨r, rfl⟩, fun h => absurd h (by decide)⟩

theorem Alternates.cons {symbols : List Symbol} (h : Alternates symbols) (r : Nat) (d : Int) :
    Alternates (.run r :: .delta d :: symbols) := by
  intro j hj
  match j with
  | 0 => exact ⟨fun _ => ⟨r, rfl⟩, fun h => absurd h (by decide)⟩
  | 1 => exact ⟨fun h => absurd h (by decide), fun _ => ⟨d, rfl⟩⟩
  | j + 2 =>
    rw [Nat.add_mod_right]
    exact h j (by simpa using hj)

theorem symbolsFrom_alternates (p : Params) (run prev : Nat) (samples : List Nat) :
    Alternates (symbolsFrom p run prev samples) := by
  induction samples generalizing run prev with
  | nil => exact alternates_run run
  | cons x rest ih =>
    by_cases hx : x = p.invalidMarker
    · rw [symbolsFrom_cons_invalid hx]
      exact ih (run + 1) prev
    · rw [symbolsFrom_cons_valid hx]
      exact (ih 0 x).cons run _

/-- Settles O56: each valid sample adds a Run and its Delta, and the end of the frame the closing Run. -/
theorem frameGrammar : Obligations.FrameGrammar := by
  unfold Obligations.FrameGrammar
  exact ⟨fun p prev r v rest hv => symbolsFrom_run_delta hv prev r rest, symbolsFrom_closing,
    fun p samples => ⟨length_symbolsFrom p 0 p.prevInit samples, symbolsFrom_alternates p 0 p.prevInit samples⟩⟩

/-! ## What the bits depend on -/

/-- The symbols depend on INVALID_MARKER alone of the parameters. -/
theorem symbolsFrom_congr {p q : Params} (hmarker : p.invalidMarker = q.invalidMarker) (run prev : Nat)
    (samples : List Nat) : symbolsFrom p run prev samples = symbolsFrom q run prev samples := by
  induction samples generalizing run prev with
  | nil => rfl
  | cons x rest ih => rw [symbolsFrom, symbolsFrom, validSample, validSample, hmarker, ih, ih]

/-- The bits of a symbol depend on the codebooks and RUN_ESC_BITS alone of the parameters. -/
theorem symbolBits_congr {p q : Params} (hesc : p.runEscBits = q.runEscBits) (hdelta : p.deltaCb = q.deltaCb)
    (hrun : p.runCb = q.runCb) : symbolBits p = symbolBits q := by
  funext symbol
  cases symbol with
  | run r => rw [symbolBits, symbolBits, runBits, runBits, cbRun, cbRun, hesc, hrun]
  | delta d => rw [symbolBits, symbolBits, deltaBits, deltaBits, cbDelta, cbDelta, hdelta]

theorem frameBody_congr {p q : Params} (hprev : p.prevInit = q.prevInit) (hmarker : p.invalidMarker = q.invalidMarker)
    (hesc : p.runEscBits = q.runEscBits) (hdelta : p.deltaCb = q.deltaCb) (hrun : p.runCb = q.runCb)
    (samples : List Nat) : frameBody p samples = frameBody q samples := by
  rw [frameBody, frameBody, frameSymbols, frameSymbols, hprev, symbolsFrom_congr hmarker,
    symbolBits_congr hesc hdelta hrun]

/-! ## Decoding -/

/-- No run of the symbols overflows its escape (spec/60 R207). -/
def RunsFit (p : Params) (symbols : List Symbol) : Prop := ∀ r, Symbol.run r ∈ symbols → runOverflow p r = false

theorem RunsFit.head {p : Params} {r : Nat} {symbols : List Symbol} (h : RunsFit p (.run r :: symbols)) :
    runOverflow p r = false := h r List.mem_cons_self

theorem RunsFit.suffix {p : Params} {front symbols : List Symbol} (h : RunsFit p (front ++ symbols)) :
    RunsFit p symbols := fun r hr => h r (List.mem_append_right front hr)

/-- The bits of the rest of a frame. -/
def bitsFrom (p : Params) (run prev : Nat) (samples : List Nat) : List Bool :=
  (symbolsFrom p run prev samples).flatMap (symbolBits p)

theorem frameBody_eq (p : Params) (samples : List Nat) : frameBody p samples = bitsFrom p 0 p.prevInit samples := rfl

theorem bitsFrom_cons_valid {p : Params} {x : Nat} (hx : x ≠ p.invalidMarker) (run prev : Nat) (rest : List Nat) :
    bitsFrom p run prev (x :: rest) =
      runBits p run ++ (deltaBits p ((x : Int) - prev) ++ bitsFrom p 0 x rest) := by
  rw [bitsFrom, symbolsFrom_cons_valid hx, List.flatMap_cons, List.flatMap_cons]
  rfl

theorem bitsFrom_cons_invalid {p : Params} {x : Nat} (hx : x = p.invalidMarker) (run prev : Nat) (rest : List Nat) :
    bitsFrom p run prev (x :: rest) = bitsFrom p (run + 1) prev rest := by
  rw [bitsFrom, symbolsFrom_cons_invalid hx, bitsFrom]

/-- The first symbol is a Run, of at least the invalid samples seen so far. -/
theorem symbolsFrom_head (p : Params) (run prev : Nat) (samples : List Nat) :
    ∃ r rest, run ≤ r ∧ symbolsFrom p run prev samples = .run r :: rest := by
  induction samples generalizing run with
  | nil => exact ⟨run, [], le_rfl, rfl⟩
  | cons x rest ih =>
    by_cases hx : x = p.invalidMarker
    · obtain ⟨r, symbols, hr, h⟩ := ih (run + 1)
      exact ⟨r, symbols, by omega, (symbolsFrom_cons_invalid hx run prev rest).trans h⟩
    · exact ⟨run, _, le_rfl, symbolsFrom_cons_valid hx run prev rest⟩

section
variable {p : Params} (hdelta : prefixFree 32 p.deltaCb) (hrun : prefixFree 256 p.runCb)
include hrun

/-- A valid sample and an invalid one do not begin one stream: the Runs before them differ. -/
theorem bitsFrom_valid_ne_invalid {x z : Nat} {run prev : Nat} {f g : List Nat} {u v : List Bool}
    (hx : x ≠ p.invalidMarker) (hz : z = p.invalidMarker) (hf : RunsFit p (symbolsFrom p run prev (x :: f)))
    (hg : RunsFit p (symbolsFrom p run prev (z :: g))) :
    bitsFrom p run prev (x :: f) ++ u ≠ bitsFrom p run prev (z :: g) ++ v := by
  intro h
  obtain ⟨r, symbols, hr, hsymbols⟩ := symbolsFrom_head p (run + 1) prev g
  rw [symbolsFrom_cons_valid hx] at hf
  rw [symbolsFrom_cons_invalid hz, hsymbols] at hg
  have hhead : bitsFrom p (run + 1) prev g = runBits p r ++ symbols.flatMap (symbolBits p) := by
    rw [bitsFrom, hsymbols, List.flatMap_cons, symbolBits]
  rw [bitsFrom_cons_valid hx, bitsFrom_cons_invalid hz, hhead, List.append_assoc, List.append_assoc _ _ v] at h
  obtain ⟨hlen, -⟩ := runBits_append_inj hrun hf.head hg.head h
  omega

include hdelta

/-- From the same run and baseline, a stream begins with the rest of one frame only, once its length is known. -/
theorem bitsFrom_append_inj {f g : List Nat} {run prev : Nat} {u v : List Bool} (hlen : f.length = g.length)
    (hprev : prev < 2 ^ p.sampleBits) (hf : ∀ x ∈ f, x < 2 ^ p.sampleBits) (hg : ∀ x ∈ g, x < 2 ^ p.sampleBits)
    (hfruns : RunsFit p (symbolsFrom p run prev f)) (hgruns : RunsFit p (symbolsFrom p run prev g))
    (h : bitsFrom p run prev f ++ u = bitsFrom p run prev g ++ v) : f = g ∧ u = v := by
  induction f generalizing g run prev with
  | nil =>
    obtain rfl := List.length_eq_zero_iff.mp hlen.symm
    exact ⟨rfl, List.append_cancel_left h⟩
  | cons x f ih =>
    obtain ⟨z, g, rfl⟩ := List.exists_cons_of_length_eq_add_one hlen.symm
    have hlen' : f.length = g.length := Nat.succ.inj hlen
    obtain ⟨hx, hftail⟩ := List.forall_mem_cons.mp hf
    obtain ⟨hz, hgtail⟩ := List.forall_mem_cons.mp hg
    by_cases hxm : x = p.invalidMarker <;> by_cases hzm : z = p.invalidMarker
    · rw [symbolsFrom_cons_invalid hxm] at hfruns
      rw [symbolsFrom_cons_invalid hzm] at hgruns
      rw [bitsFrom_cons_invalid hxm, bitsFrom_cons_invalid hzm] at h
      obtain ⟨rfl, huv⟩ := ih hlen' hprev hftail hgtail hfruns hgruns h
      exact ⟨by rw [hxm, hzm], huv⟩
    · exact absurd h.symm (bitsFrom_valid_ne_invalid hrun hzm hxm hgruns hfruns)
    · exact absurd h (bitsFrom_valid_ne_invalid hrun hxm hzm hfruns hgruns)
    · rw [symbolsFrom_cons_valid hxm] at hfruns
      rw [symbolsFrom_cons_valid hzm] at hgruns
      rw [bitsFrom_cons_valid hxm, bitsFrom_cons_valid hzm] at h
      simp only [List.append_assoc] at h
      obtain ⟨-, hfit⟩ := frameDeltaNeverOverflows p x prev hx hprev
      obtain ⟨-, hfit'⟩ := frameDeltaNeverOverflows p z prev hz hprev
      obtain ⟨hd, hrest⟩ := deltaBits_append_inj hdelta hfit hfit' (List.append_cancel_left h)
      obtain rfl : x = z := by omega
      obtain ⟨rfl, huv⟩ := ih hlen' hx hftail hgtail (RunsFit.suffix (front := [_, _]) hfruns)
        (RunsFit.suffix (front := [_, _]) hgruns) hrest
      exact ⟨rfl, huv⟩

end

/-- Settles O59: the frame's symbols determine it, and equal frames have equal padding. -/
theorem framesSelfDelimiting : Obligations.FramesSelfDelimiting := by
  unfold Obligations.FramesSelfDelimiting
  intro p f g x y hdelta hrun hlen hf hg hfruns hgruns h
  rw [frameBits, frameBits, List.append_assoc, List.append_assoc, frameBody_eq, frameBody_eq] at h
  obtain ⟨rfl, hrest⟩ := bitsFrom_append_inj hdelta hrun hlen p.prevInit_lt hf hg hfruns hgruns h
  exact ⟨rfl, List.append_cancel_left hrest⟩

end Sys2Proof.Machine
end

section
/-! A frame's run: FRAME_START and one PIXEL per sample put exactly the frame's bitstream in the sink (spec/43 R167,
R170), whatever else the DFE holds (R173), so that the bytes determine the frame (R175). -/

namespace Sys2Proof.Machine

/-! ## What a frame has yet to emit -/

/-- The symbols of the samples still to come, from the run and the baseline that the DFE holds. -/
def State.restSymbols (samples : List Nat) (s : State) : List Symbol :=
  symbolsFrom s.params s.runLen.toNat s.prev.toNat samples

/-- Their bits. -/
def State.restBits (samples : List Nat) (s : State) : List Bool :=
  bitsFrom s.params s.runLen.toNat s.prev.toNat samples

/-- The symbols that a PIXEL emits for its own sample (spec/43 R164). -/
def pixelSymbols (x : Nat) (s : State) : List Symbol :=
  if x = s.params.invalidMarker then []
  else [.run s.runLen.toNat, .delta ((x : Int) - s.prev.toNat)]

theorem flatMap_pixelSymbols (x : Nat) (s : State) :
    (pixelSymbols x s).flatMap (symbolBits s.params) = pixelBits x s := by
  unfold pixelSymbols pixelBits
  split
  · rfl
  · simp [symbolBits]

/-- RUN_LEN counts the invalid samples without a wrap (spec/10 R24). -/
theorem consume_runLen_invalid {x : Nat} {s : State} (hI : StateInv s) (hp : s.phase = .frame)
    (hx : x = s.params.invalidMarker) : (s.consume x).runLen.toNat = s.runLen.toNat + 1 := by
  obtain ⟨hlt, -, -⟩ := hI.runLen_lt hp
  rw [consume_of_invalid hx]
  exact (BitVec.toNat_add _ _).trans (Nat.mod_eq_of_lt hlt)

/-- A PIXEL's own symbols, then those of the samples after it. -/
theorem restSymbols_cons {x : Nat} {s : State} (hI : StateInv s) (hp : s.phase = .frame)
    (hx : x < 2 ^ s.params.sampleBits) (samples : List Nat) :
    s.restSymbols (x :: samples) = pixelSymbols x s ++ (s.consume x).restSymbols samples := by
  unfold State.restSymbols pixelSymbols
  rw [consume_params]
  by_cases hm : x = s.params.invalidMarker
  · rw [if_pos hm, symbolsFrom_cons_invalid hm, consume_runLen_invalid hI hp hm, consume_of_invalid hm]
    rfl
  · rw [if_neg hm, symbolsFrom_cons_valid hm, consume_prev_valid hm, ofNat31_toNat hx, consume_of_valid hm]
    rfl

theorem restBits_cons {x : Nat} {s : State} (hI : StateInv s) (hp : s.phase = .frame)
    (hx : x < 2 ^ s.params.sampleBits) (samples : List Nat) :
    s.restBits (x :: samples) = pixelBits x s ++ (s.consume x).restBits samples := by
  have h : s.restBits (x :: samples) = (s.restSymbols (x :: samples)).flatMap (symbolBits s.params) := rfl
  rw [h, restSymbols_cons hI hp hx, List.flatMap_append, flatMap_pixelSymbols]
  unfold State.restBits bitsFrom State.restSymbols
  rw [consume_params]

/-- After the last sample the closing run is left (spec/43 R166). -/
theorem restBits_last {x : Nat} {s : State} (hI : StateInv s) (hp : s.phase = .frame)
    (hx : x < 2 ^ s.params.sampleBits) : s.restBits [x] = pixelBits x s ++ closingBits x s := by
  rw [restBits_cons hI hp hx, closingBits_eq hI hp, State.restBits, consume_params, bitsFrom, symbolsFrom_nil,
    List.flatMap_singleton]
  rfl

/-! ## Within a frame -/

/-- The words of the PIXELs of a frame, `rest` behind them (spec/30 R91). -/
def pixelWords (samples : List Nat) (rest : List Word) : List Word := (samples.map fun x => encode (.pixel x)) ++ rest

/-- A frame is in progress and the words of its remaining samples are at the port, `rest` behind them; none will be
rejected or aborted, and the sink answers OK to each byte still to come. -/
structure FrameRest (samples : List Nat) (rest : List Word) (s : State) : Prop where
  inv : StateInv s
  frame : s.phase = .frame
  idle : s.inFlight = none
  noReset : s.resetLine = false
  port : s.port = pixelWords samples rest
  pos : s.pixIdx.toNat + samples.length = s.length
  fits : ∀ x ∈ samples, x < 2 ^ s.params.sampleBits
  runsFit : RunsFit s.params (s.restSymbols samples)
  answers : AnswersOk (flushedBytes (s.restBits samples) s) s

/-- What the rest of a frame leaves, when the sink accepts `bs` from it (spec/43 R164, R166). -/
def State.frameEnd (samples : List Nat) (rest : List Word) (bs : List Byte) (s : State) : State :=
  { s.afterBytes bs with
    phase := .idle
    pixIdx := s.pixIdx + BitVec.ofNat 32 samples.length
    runLen := 0
    prev := BitVec.ofNat 31 (baselineAfter s.params s.prev.toNat samples)
    acc := 0
    free := BitVec.ofNat 7 s.params.accWidth
    done := true
    lastResp := .ok
    port := rest }

/-- A PIXEL that is not the last of its frame, but for the bytes and the accumulator: its word is taken, leaving `ws`,
its own writes are made, and it responds OK (spec/43 R164). -/
def State.afterPixel (x : Nat) (ws : List Word) (s : State) : State := ((s.consume x).takeWord ws).respond .ok

theorem wellFormed_sample {p : Params} {x : Nat} (hx : x < 2 ^ p.sampleBits) :
    (Instr.pixel x).wellFormed = true :=
  decide_eq_true (lt_trans (sample_lt hx) (by norm_num))

/-- A PIXEL's own writes do not depend on the words behind it. -/
theorem takeWord_consume (x : Nat) (ws : List Word) (s : State) :
    (s.takeWord ws).consume x = (s.consume x).takeWord ws := by
  by_cases hx : x = s.params.invalidMarker
  · rw [consume_of_invalid hx, consume_of_invalid (s := s.takeWord ws) hx]; rfl
  · rw [consume_of_valid hx, consume_of_valid (s := s.takeWord ws) hx]; rfl

theorem consume_resetLine (x : Nat) (s : State) : (s.consume x).resetLine = s.resetLine := by rw [consume_frame]

/-- An insertion leaves the geometry, PIX_IDX and the command port. -/
theorem Appends.keeps {bits : List Bool} {s t : State} (h : Appends bits s t) :
    t.length = s.length ∧ t.pixIdx = s.pixIdx ∧ t.inFlight = s.inFlight ∧ t.resetLine = s.resetLine ∧
      t.port = s.port := by
  obtain ⟨bs, -, ht⟩ := h.rest
  rw [ht]
  exact ⟨rfl, rfl, rfl, rfl, rfl⟩

theorem Appends.restSymbols {bits : List Bool} {s t : State} (h : Appends bits s t) (samples : List Nat) :
    t.restSymbols samples = s.restSymbols samples := by
  rw [State.restSymbols, h.params, h.runLen, h.prev, State.restSymbols]

theorem Appends.restBits {bits : List Bool} {s t : State} (h : Appends bits s t) (samples : List Nat) :
    t.restBits samples = s.restBits samples := by
  rw [State.restBits, h.params, h.runLen, h.prev, State.restBits]

/-- The bytes of two insertions and a flush: those of the first insertion, then the others. -/
theorem flushedBytes_append {b₁ b₂ : List Bool} {s t : State} (h : Appends b₁ s t) :
    flushedBytes (b₁ ++ b₂) s = appendedBytes b₁ s + flushedBytes b₂ t := by
  have hwords := eight_mul_lazyBytes s.params.accWidth_mod (s.occ + b₁.length)
  have hpending := lazyPending_le_self s.params.accWidth (s.occ + b₁.length)
  rw [flushedBytes, flushedBytes, appendedBytes, h.pending, List.length_append]
  omega

section
variable {x : Nat} {samples : List Nat} {rest : List Word} {s : State}

theorem FrameRest.head_fits (h : FrameRest (x :: samples) rest s) : x < 2 ^ s.params.sampleBits :=
  h.fits x List.mem_cons_self

/-- The next step is the next sample's PIXEL. -/
theorem FrameRest.step (h : FrameRest (x :: samples) rest s) :
    step s = exec (.pixel x) (s.takeWord (pixelWords samples rest)) :=
  step_instr h.noReset h.idle h.port (decodeOfEncode _ (wellFormed_sample h.head_fits))

/-- The next PIXEL passes its checks: the run it would emit is one of the frame's. -/
theorem FrameRest.passes (h : FrameRest (x :: samples) rest s) : Passes (.pixel x) s := by
  refine (passes_pixel_iff x s).mpr ⟨h.frame, h.head_fits, ?_⟩
  have hruns := h.runsFit
  rw [restSymbols_cons h.inv h.frame h.head_fits] at hruns
  by_cases hx : x = s.params.invalidMarker
  · by_cases hlast : s.pixIdx.toNat + 1 = s.length
    · have hpos := h.pos
      obtain rfl : samples = [] := List.length_eq_zero_iff.mp (by rw [List.length_cons] at hpos; omega)
      have hclosing := hruns.suffix.head
      rw [consume_runLen_invalid h.inv h.frame hx] at hclosing
      rw [overflows_pixel, pixelOverflow, validSample_eq_false.mpr hx, hclosing]
      simp
    · exact overflows_pixel_invalid hx hlast
  · rw [pixelSymbols, if_neg hx] at hruns
    exact (overflows_pixel_valid hx).trans hruns.head


/-- Where more samples follow, the next PIXEL appends its own bits. -/
theorem FrameRest.step_appends (h : FrameRest (x :: samples) rest s) (hne : samples ≠ []) :
    ∃ t, Machine.step s = .next t ∧ Appends (pixelBits x s)
      (s.afterPixel x (pixelWords samples rest)) t := by
  have hlast : s.pixIdx.toNat + 1 ≠ s.length := by
    have hpos := h.pos
    have hlen := List.length_pos_iff.mpr hne
    rw [List.length_cons] at hpos
    omega
  have hok : AnswersOk (appendedBytes (pixelBits x s) s) s := by
    have hall := answersOk_mono h.answers (appendedBytes_le_flushedBytes _ s)
    rw [restBits_cons h.inv h.frame h.head_fits] at hall
    exact answersOk_mono hall (appendedBytes_le_append _ _ s)
  rw [h.step, State.afterPixel, ← takeWord_consume]
  exact exec_pixel_ok (s := s.takeWord _) h.inv.accOk h.passes hlast hok

/-- A PIXEL that is not the last leaves the rest of the frame to be run. -/
theorem FrameRest.next {t : State} (h : FrameRest (x :: samples) rest s) (hstep : Machine.step s = .next t)
    (happ : Appends (pixelBits x s)
      (s.afterPixel x (pixelWords samples rest)) t) :
    FrameRest samples rest t := by
  have hparams : t.params = s.params := happ.params.trans (consume_params x s)
  have hrest : t.restBits samples = (s.consume x).restBits samples := happ.restBits samples
  have hsymbols : t.restSymbols samples = (s.consume x).restSymbols samples := happ.restSymbols samples
  obtain ⟨hgeometry, hadvance, hidle, hreset, hport⟩ := happ.keeps
  have hlength : t.length = s.length := hgeometry.trans (consume_length x s)
  have hpix : t.pixIdx = (s.consume x).pixIdx := hadvance
  have hpos := h.pos
  rw [List.length_cons] at hpos
  have hruns := h.runsFit
  have hok := h.answers
  rw [restSymbols_cons h.inv h.frame h.head_fits] at hruns
  rw [restBits_cons h.inv h.frame h.head_fits] at hok
  constructor
  case inv => exact stepKeepsInvariant s t h.inv hstep
  case frame => exact happ.phase.trans ((consume_phase x s).trans h.frame)
  case idle => exact hidle.trans ((consume_inFlight x s).trans h.idle)
  case noReset => exact hreset.trans ((consume_resetLine x s).trans h.noReset)
  case port => exact hport
  case pos =>
    rw [hpix, hlength, consume_pixIdx_toNat (by omega)]
    omega
  case fits => rw [hparams]; exact (List.forall_mem_cons.mp h.fits).2
  case runsFit =>
    rw [hparams, hsymbols]
    exact hruns.suffix
  case answers =>
    rw [← flushedBytes_consume _ x, ← hrest] at hok
    have hcount := flushedBytes_append (b₂ := t.restBits samples) happ
    have hleft := happ.answersOk (k := flushedBytes (pixelBits x s ++ t.restBits samples) (s.consume x))
      fun j hj => (consume_answers x s j).trans (hok j hj)
    rwa [show flushedBytes (pixelBits x s ++ t.restBits samples) (s.consume x) = _ from hcount,
      Nat.add_sub_cancel_left] at hleft

end

/-! ## The end of a frame -/

/-- Bytes that hold a string padded to a whole byte are as many as it needs. -/
theorem length_of_padded {bs : List Byte} {bits : List Bool} (h : bytesBits bs = bits ++ padding bits.length) :
    bs.length = (bits.length + 7) / 8 := by
  have hlen := congrArg List.length h
  rw [length_bytesBits, List.length_append, length_padding] at hlen
  omega

theorem padding_add_bytes (k n : Nat) : padding (8 * k + n) = padding n := by
  rw [padding, padding, Nat.mul_add_mod]

/-- An insertion, then the padded rest: the bytes of both hold the string of both. -/
theorem Appends.padded {b₁ b₂ : List Bool} {s t : State} {ys : List Byte} (h : Appends b₁ s t)
    (hys : bytesBits ys = t.pendingBits ++ b₂ ++ padding (t.pendingBits ++ b₂).length) :
    ∃ xs : List Byte, t = (s.afterBytes xs).withAccOf t ∧
      bytesBits (xs ++ ys) = s.pendingBits ++ (b₁ ++ b₂) ++ padding (s.pendingBits ++ (b₁ ++ b₂)).length := by
  obtain ⟨xs, -, ht, hxs⟩ := h.sink_eq
  refine ⟨xs, ht, ?_⟩
  rw [bytesBits_append, hys, ← List.append_assoc s.pendingBits, ← hxs, List.append_assoc (bytesBits xs),
    List.length_append (as := bytesBits xs), length_bytesBits, padding_add_bytes, List.append_assoc (bytesBits xs)]

/-- A PIXEL's own writes lead to the same end of the frame. -/
theorem frameEnd_consume {x : Nat} {s : State} (hx : x < 2 ^ s.params.sampleBits) (samples : List Nat)
    (rest : List Word) (bs : List Byte) :
    (s.consume x).frameEnd samples rest bs = s.frameEnd (x :: samples) rest bs := by
  have hpix : s.pixIdx + 1 + BitVec.ofNat 32 samples.length = s.pixIdx + BitVec.ofNat 32 (x :: samples).length := by
    rw [List.length_cons, Nat.add_comm samples.length, BitVec.ofNat_add, BitVec.add_assoc]
    rfl
  by_cases hm : x = s.params.invalidMarker
  · rw [consume_of_invalid hm]
    simp only [State.frameEnd, State.afterBytes, hpix, baselineAfter, validSample_eq_false.mpr hm]
    rfl
  · rw [consume_of_valid hm]
    simp only [State.frameEnd, State.afterBytes, hpix, baselineAfter, validSample_eq_true.mpr hm, ofNat31_toNat hx]
    rfl

/-- The word taken and the response are of no account for the end of the frame. -/
theorem frameEnd_respond_takeWord (s : State) (code : Resp) (ws : List Word) (samples : List Nat) (rest : List Word)
    (bs : List Byte) : ((s.takeWord ws).respond code).frameEnd samples rest bs = s.frameEnd samples rest bs := rfl

theorem frameEnd_afterPixel {x : Nat} {s : State} (hx : x < 2 ^ s.params.sampleBits) (ws : List Word)
    (samples : List Nat) (rest : List Word) (bs : List Byte) :
    (s.afterPixel x ws).frameEnd samples rest bs = s.frameEnd (x :: samples) rest bs := by
  rw [State.afterPixel, frameEnd_respond_takeWord, frameEnd_consume hx]

/-- Bytes that left before the rest of a frame are bytes of the frame. -/
theorem frameEnd_afterBytes (s t : State) (xs ys : List Byte) (samples : List Nat) (rest : List Word) :
    ((s.afterBytes xs).withAccOf t).frameEnd samples rest ys = s.frameEnd samples rest (xs ++ ys) := by
  rw [State.frameEnd, State.frameEnd, ← afterBytes_append]
  rfl

/-- The last PIXEL of a frame leaves the frame's end (spec/43 R166). -/
theorem frameEnd_last {x : Nat} {s : State} (hx : x < 2 ^ s.params.sampleBits) (rest : List Word) (bs : List Byte) :
    ((((s.takeWord rest).consume x).clearRun.afterBytes bs).emptyAcc.finishFrame.respond .ok) =
      s.frameEnd [x] rest bs := by
  rw [← frameEnd_consume hx, takeWord_consume]
  simp [State.frameEnd, State.afterBytes, baselineAfter, State.takeWord, State.clearRun, State.emptyAcc,
    State.finishFrame, State.respond]

section
variable {x : Nat} {samples : List Nat} {rest : List Word} {s : State}

/-- The step of the last sample completes the frame. -/
theorem FrameRest.step_last (h : FrameRest [x] rest s) :
    ∃ bs : List Byte,
      bytesBits bs = s.pendingBits ++ s.restBits [x] ++ padding (s.pendingBits ++ s.restBits [x]).length ∧
      Machine.step s = .next (s.frameEnd [x] rest bs) := by
  have hbits := restBits_last h.inv h.frame h.head_fits
  have hok := h.answers
  rw [hbits] at hok ⊢
  obtain ⟨bs, -, hbytes, hexec⟩ := exec_lastPixel_ok (s := s.takeWord rest) (h.inv.takeWord rest) h.passes h.pos hok
  refine ⟨bs, hbytes, ?_⟩
  rw [h.step, ← frameEnd_last h.head_fits]
  exact hexec

/-- The rest of a frame puts its bits and the padding in the sink, one step for each sample. -/
theorem FrameRest.run (h : FrameRest samples rest s) (hne : samples ≠ []) :
    ∃ bs : List Byte,
      bytesBits bs = s.pendingBits ++ s.restBits samples ++ padding (s.pendingBits ++ s.restBits samples).length ∧
      Host.Core.run core samples.length s = .next (s.frameEnd samples rest bs) := by
  induction samples generalizing s with
  | nil => exact absurd rfl hne
  | cons x samples ih =>
    by_cases hlast : samples = []
    · subst hlast
      obtain ⟨bs, hbits, hstep⟩ := h.step_last
      exact ⟨bs, hbits, run_succ hstep 0⟩
    · obtain ⟨t, hstep, happ⟩ := h.step_appends hlast
      obtain ⟨ys, hys, hrun⟩ := ih (h.next hstep happ) hlast
      obtain ⟨xs, ht, hbits⟩ := happ.padded hys
      have hrest : t.restBits samples = (s.consume x).restBits samples := happ.restBits samples
      have hpending : (s.afterPixel x (pixelWords samples rest)).pendingBits = s.pendingBits :=
        consume_pending x s
      rw [hrest, ← restBits_cons h.inv h.frame h.head_fits, hpending] at hbits
      refine ⟨xs ++ ys, hbits, ?_⟩
      rw [List.length_cons, run_succ hstep, hrun, ht, frameEnd_afterBytes, frameEnd_afterPixel h.head_fits]

end

/-! ## A whole frame -/

/-- An accepted FRAME_START, its word taken from before `ws` (spec/43 R162). -/
def State.frameStarted (ws : List Word) (s : State) : State := (s.takeWord ws).beginFrame.respond .ok

theorem frameStarted_prev (ws : List Word) (s : State) : (s.frameStarted ws).prev.toNat = s.params.prevInit :=
  prevInit_toNat s.params

theorem frameStarted_empty {s : State} (h : s.free.toNat = s.params.accWidth) (ws : List Word) :
    (s.frameStarted ws).free.toNat = (s.frameStarted ws).params.accWidth := h

theorem restSymbols_frameStarted (samples : List Nat) (ws : List Word) (s : State) :
    (s.frameStarted ws).restSymbols samples = frameSymbols s.params samples := by
  rw [State.restSymbols, frameStarted_prev]
  rfl

theorem restBits_frameStarted (samples : List Nat) (ws : List Word) (s : State) :
    (s.frameStarted ws).restBits samples = frameBody s.params samples := by
  rw [State.restBits, frameStarted_prev]
  rfl

section
variable {samples : List Nat} {rest : List Word} {s : State}

/-- The first word of a frame is its FRAME_START, which is accepted. -/
theorem FrameReady.step (h : FrameReady samples rest s) :
    Machine.step s = .next (s.frameStarted (pixelWords samples rest)) := by
  obtain ⟨hidle, hreset⟩ := h.running
  rw [step_instr hreset hidle h.port (decodeOfEncode _ (wellFormed_frameStart _ _))]
  exact exec_frameStart_of_passes (s := s.takeWord _) (passes_frameStart (s := s.takeWord _) h.idle h.empty)

/-- FRAME_START leaves the whole frame to be run. -/
theorem FrameReady.frameRest (h : FrameReady samples rest s) :
    FrameRest samples rest (s.frameStarted (pixelWords samples rest)) := by
  obtain ⟨hidle, hreset⟩ := h.running
  obtain ⟨hlength, -⟩ := h.full
  constructor
  case inv => exact stepKeepsInvariant s _ h.inv h.step
  case frame => rfl
  case idle => exact hidle
  case noReset => exact hreset
  case port => rfl
  case pos => exact (Nat.zero_add _).trans hlength
  case fits => exact h.fits
  case runsFit =>
    rw [restSymbols_frameStarted]
    exact h.noOverflow
  case answers =>
    rw [restBits_frameStarted, flushedBytes_of_empty (frameStarted_empty h.empty _)]
    exact h.answers

/-- The whole state at the end of a frame, from the state before its FRAME_START. -/
theorem frameEnd_frameStarted (hempty : s.free.toNat = s.params.accWidth) (ws : List Word) (bs : List Byte) :
    (s.frameStarted ws).frameEnd samples rest bs = { s with
      phase := .idle
      pixIdx := BitVec.ofNat 32 samples.length
      runLen := 0
      prev := BitVec.ofNat 31 (baselineAfter s.params s.params.prevInit samples)
      acc := 0
      frameBytes := BitVec.ofNat 64 bs.length
      totalBytes := s.totalBytes + BitVec.ofNat 64 bs.length
      done := true
      lastResp := .ok
      port := rest
      sink := s.sink ++ bs
      sinkAnswers := s.sinkAnswers.drop bs.length
      draws := s.draws + bs.length } := by
  have hfree : BitVec.ofNat 7 s.params.accWidth = s.free := by rw [← hempty, BitVec.ofNat_toNat, BitVec.setWidth_eq]
  rw [State.frameEnd, frameStarted_prev, afterBytes_of_frame rfl]
  simp [State.frameStarted, State.beginFrame, State.takeWord, State.respond, hfree]

end

/-- Settles O57: FRAME_START leaves the whole frame to be run, and its run from an empty accumulator puts the frame's
bits and the padding in the sink. -/
theorem frameWritesItsBitstream : Obligations.FrameWritesItsBitstream := by
  unfold Obligations.FrameWritesItsBitstream
  intro samples rest s h
  obtain ⟨-, hne⟩ := h.full
  obtain ⟨bs, hbits, hrun⟩ := h.frameRest.run hne
  rw [pendingBits_of_empty (frameStarted_empty h.empty _), restBits_frameStarted, List.nil_append] at hbits
  exact ⟨bs, hbits, length_of_padded hbits, by rw [run_succ h.step, hrun, frameEnd_frameStarted h.empty]⟩

/-! ## What a frame's bytes depend on, and what they determine -/

/-- Settles O58: equal bitstreams are equal bytes. -/
theorem frameDeterminism : Obligations.FrameDeterminism := by
  unfold Obligations.FrameDeterminism
  intro samples rest₁ rest₂ s₁ s₂ h₁ h₂ hprev hmarker hesc hdelta hrunCb
  obtain ⟨bs₁, hbits₁, -, hrun₁⟩ := frameWritesItsBitstream samples rest₁ s₁ h₁
  obtain ⟨bs₂, hbits₂, -, hrun₂⟩ := frameWritesItsBitstream samples rest₂ s₂ h₂
  rw [frameBits, frameBody_congr hprev hmarker hesc hdelta hrunCb, ← frameBits, ← hbits₂] at hbits₁
  obtain rfl := bytesBits_inj hbits₁
  exact ⟨_, _, bs₁, hrun₁, hrun₂, rfl, rfl, rfl⟩

/-- A frame's run puts its bitstream in the sink after what was there. -/
theorem FrameReady.sink_bits {samples : List Nat} {rest : List Word} {s t : State} (h : FrameReady samples rest s)
    (hrun : Host.Core.run core (samples.length + 1) s = .next t) :
    bytesBits (t.sink.drop s.sink.length) = frameBits s.params samples := by
  obtain ⟨bs, hbits, -, hrun'⟩ := frameWritesItsBitstream samples rest s h
  rw [hrun'] at hrun
  cases hrun
  rw [List.drop_left, hbits]

/-- Settles O60: the bitstreams are self-delimiting. -/
theorem sinkBytesDetermineTheFrame : Obligations.SinkBytesDetermineTheFrame := by
  unfold Obligations.SinkBytesDetermineTheFrame
  intro f g rest₁ rest₂ s₁ s₂ t₁ t₂ h₁ h₂ hparams hlen hdelta hrunCb hrun₁ hrun₂ ⟨more, hmore⟩
  have hbits₁ := h₁.sink_bits hrun₁
  have hbits₂ := h₂.sink_bits hrun₂
  rw [← hmore, bytesBits_append, hbits₁, ← hparams, ← List.append_nil (frameBits _ g)] at hbits₂
  have hgfits := h₂.fits
  have hgruns := h₂.noOverflow
  rw [← hparams] at hgfits hgruns
  exact (framesSelfDelimiting _ f g _ _ hdelta hrunCb hlen h₁.fits hgfits h₁.noOverflow hgruns hbits₂).1

end Sys2Proof.Machine
end

section
/-! The control commands NOP and CLEAR: each does the same in every state, and neither has a check to fail (spec/44 R190,
R191). -/

namespace Sys2Proof.Machine

/-- In NOP and CLEAR a set bit of the zero field makes the word reserved (spec/30 R87). -/
theorem decode_control_reserved {w : Word} (hop : opcodeOf w = 0x0 ∨ opcodeOf w = 0x8) (hz : zeroFieldN w ≠ 0) :
    decode w = .reserved .zeroField := by
  rcases hop with hop | hop
  · simp [decode, hop, checkZero, hz]
  · simp [decode, hop, checkZero, hz]

/-! ## NOP -/

theorem formatN_zero : formatN 0x0#4 = 0 := by decide

theorem exec_nop (s : State) : exec .nop s = .next (s.respond .ok) := rfl

/-- Settles O18: NOP does no more than respond, and it is the word of format N with opcode 0. -/
theorem nopWritesLastRespOnly : Obligations.NopWritesLastRespOnly := by
  unfold Obligations.NopWritesLastRespOnly
  have hzero : decode 0 = .instr .nop := by rw [← formatN_zero, decode_nop]
  exact ⟨hzero, decode_nop, exec_nop, fun w s hop hz => runWord_reserved (decode_control_reserved (.inl hop) hz) s⟩

/-! ## CLEAR -/

theorem exec_clear (s : State) : exec .clear s = .next (s.leaveError.respond .ok) := rfl

/-- Settles O19: CLEAR returns from ERROR, or abandons a frame, to the state that CFG_W tells of. -/
theorem clearLeavesErrorOrAbandonsFrame : Obligations.ClearLeavesErrorOrAbandonsFrame := by
  unfold Obligations.ClearLeavesErrorOrAbandonsFrame
  refine ⟨decode_clear, fun s => ?writes,
    fun w s hop hz => runWord_reserved (decode_control_reserved (.inr hop) hz) s⟩
  case writes =>
    rw [exec_clear, ite_not]
    rfl

end Sys2Proof.Machine
end

section
/-! Steps and commands always answer a next state, and a DFE without a word at its port holds its state (spec/60 R220,
R221, spec/70 R231). -/

namespace Sys2Proof.Machine

/-- Settles O14: a step without a word leaves the state, and so does any number of them. -/
theorem idleDfeHoldsItsState : Obligations.IdleDfeHoldsItsState := by
  unfold Obligations.IdleDfeHoldsItsState
  intro n s hr hport
  induction n with
  | zero => exact run_zero s
  | succ n ih => rw [run_succ (step_idle hr hport), ih]

/-- Each meaning is `.next` of the state that its checks select (spec/60 R221). -/
theorem exec_total (i : Instr) (s : State) : ∃ t, exec i s = .next t := by
  cases i with
  | nop | config | frameStart | pixel | putBits | flush | encDelta | encRun | clear => exact ⟨_, rfl⟩

theorem runWord_total (w : Word) (s : State) : ∃ t, runWord w s = .next t := by
  cases hd : decode w with
  | instr i => rw [runWord_instr hd]; exact exec_total i s
  | reserved why => exact ⟨_, runWord_reserved hd s⟩

/-- Settles O17: a step resets, holds its state or runs a word, and every word answers. -/
theorem everyCommandAnswersANextState : Obligations.EveryCommandAnswersANextState := by
  unfold Obligations.EveryCommandAnswersANextState
  refine ⟨exec_total, fun s => ?_⟩
  unfold step
  cases s.poll with
  | reset => exact ⟨_, rfl⟩
  | hold => exact ⟨_, rfl⟩
  | word w rest => exact runWord_total w _

end Sys2Proof.Machine
end

section
/-! The conditions a command is tested for, in the order of spec/60 R209: under each one the response it gives, and past
them all OK, ABORT_SINK or a wait for the sink. -/

namespace Sys2Proof.Machine

/-! ## The first condition that holds -/

/-- The REJ_STATE condition comes first (spec/60 R204, R209). -/
theorem exec_of_illegal {i : Instr} {s : State} (h : legalIn i s.phase = false) :
    exec i s = .next (s.reject .rejState) := by
  cases i with
  | nop | clear => cases h
  | config => exact exec_config_rejState (by simpa [legalIn] using h)
  | frameStart => exact exec_frameStart_rejState (by simpa [legalIn] using h)
  | pixel => exact exec_pixel_rejState (by simpa [legalIn] using h)
  | putBits => exact exec_putBits_rejState (by simpa [legalIn] using h)
  | flush => exact exec_flush_rejState (by simpa [legalIn] using h)
  | encDelta => exact exec_encDelta_rejState (by simpa [legalIn] using h)
  | encRun => exact exec_encRun_rejState (by simpa [legalIn] using h)

theorem exec_of_badOperand {i : Instr} {s : State} (hl : legalIn i s.phase = true) (hb : badOperand i s = true) :
    exec i s = .next (s.reject .rejOperand) := by
  cases i with
  | config => exact exec_config_rejOperand (by simpa [legalIn] using hl) (by simpa [badOperand] using hb)
  | pixel => exact exec_pixel_rejOperand (by simpa [legalIn] using hl) (by simpa [badOperand] using hb)
  | putBits => exact exec_putBits_rejOperand (by simpa [legalIn] using hl) (by simpa [badOperand] using hb)
  | nop | frameStart | flush | encDelta | encRun | clear => cases hb

theorem exec_of_mismatched {i : Instr} {s : State} (hl : legalIn i s.phase = true) (hm : mismatched i s = true) :
    exec i s = .next (s.reject .rejMismatch) := by
  cases i with
  | frameStart => exact exec_frameStart_rejMismatch (by simpa [legalIn] using hl) (by simpa [mismatched] using hm)
  | nop | config | pixel | putBits | flush | encDelta | encRun | clear => cases hm

theorem exec_of_blockedByPending {i : Instr} {s : State} (hl : legalIn i s.phase = true)
    (hb : badOperand i s = false) (hm : mismatched i s = false) (hpending : blockedByPending i s = true) :
    exec i s = .next (s.reject .rejPending) := by
  cases i with
  | config w h =>
    obtain ⟨hw, hh⟩ : w ≠ 0 ∧ h ≠ 0 := by simpa [badOperand] using hb
    exact exec_config_rejPending (by simpa [legalIn] using hl) hw hh (by simpa [blockedByPending] using hpending)
  | frameStart w h =>
    obtain ⟨rfl, rfl⟩ : w = s.cfgW.toNat ∧ h = s.cfgH.toNat := by simpa [mismatched] using hm
    exact exec_frameStart_rejPending (by simpa [legalIn] using hl) (by simpa [blockedByPending] using hpending)
  | nop | pixel | putBits | flush | encDelta | encRun | clear => cases hpending

/-- A bypass symbol that overflows is rejected (spec/60 R201). -/
theorem exec_of_overflows {i : Instr} {s : State} (hi : ¬ ∃ x, i = .pixel x) (hl : legalIn i s.phase = true)
    (ho : overflows i s = true) : exec i s = .next (s.reject .rejOverflow) := by
  cases i with
  | encDelta d => exact exec_encDelta_rejOverflow (by simpa [legalIn] using hl) ho
  | encRun r => exact exec_encRun_rejOverflow (by simpa [legalIn] using hl) ho
  | pixel x => exact absurd ⟨x, rfl⟩ hi
  | nop | config | frameStart | putBits | flush | clear => cases ho

/-- A PIXEL that overflows is aborted before it emits anything (spec/60 R207). -/
theorem exec_pixel_of_overflows {x : Nat} {s : State} (hp : s.phase = .frame) (hx : x < 2 ^ s.params.sampleBits)
    (ho : overflows (.pixel x) s = true) : exec (.pixel x) s = .next (s.abort .overflow) := by
  rw [overflows_pixel] at ho
  simp [exec, execPixel, hp, Nat.not_le.mpr hx, ho]

/-! ## Past the conditions -/

/-- An emission that has ended has responded OK or ABORT_SINK (spec/60 R200, R205). -/
theorem Closes.lastResp {s t : State} (h : Closes s t) (hidle : t.inFlight = none) :
    t.lastResp = .ok ∨ (t.lastResp = .abortSink ∧ t.phase = .error) := by
  cases h with
  | ok _ _ _ _ hresp => exact .inl hresp
  | aborted hphase _ _ hresp => exact .inr ⟨hresp, hphase⟩
  | waiting _ _ _ hflight => exact absurd hidle hflight

theorem Ends.lastResp {s t : State} (h : Ends s t) (hidle : t.inFlight = none) :
    t.lastResp = .ok ∨ (t.lastResp = .abortSink ∧ t.phase = .error) := by
  obtain ⟨bs, -, hc⟩ := h.outcome
  exact hc.lastResp hidle

theorem PixelEnds.lastResp {x : Nat} {s t : State} (h : PixelEnds x s t) (hidle : t.inFlight = none) :
    t.lastResp = .ok ∨ (t.lastResp = .abortSink ∧ t.phase = .error) := by
  rcases h.closes with hc | ⟨-, bs, rfl⟩
  · exact hc.lastResp hidle
  · exact .inl rfl

/-- A command that meets none of the conditions responds OK or ABORT_SINK, or waits for the sink (spec/60 R209). -/
theorem exec_lastResp_of_passes {i : Instr} {s t : State} (hpass : Passes i s) (h : exec i s = .next t)
    (hidle : t.inFlight = none) : t.lastResp = .ok ∨ (t.lastResp = .abortSink ∧ t.phase = .error) := by
  cases i with
  | nop => cases h; exact .inl rfl
  | clear => cases h; exact .inl rfl
  | config => rw [exec_config_of_passes hpass] at h; cases h; exact .inl rfl
  | frameStart => rw [exec_frameStart_of_passes hpass] at h; cases h; exact .inl rfl
  | pixel => exact (exec_pixel_of_passes hpass h).lastResp hidle
  | putBits n v => rw [exec_putBits_of_passes hpass] at h; cases h; exact (putBits_emits n v s).close.lastResp hidle
  | flush => rw [exec_flush_of_passes hpass] at h; cases h; exact (flushBits_emits s).close.lastResp hidle
  | encDelta d => rw [exec_encDelta_of_passes hpass] at h; cases h; exact (encDelta_emits d s).close.lastResp hidle
  | encRun r => rw [exec_encRun_of_passes hpass] at h; cases h; exact (encRun_emits r s).close.lastResp hidle

/-- Settles O35: each condition of R209 decides the outcome where those before it do not hold. -/
theorem conditionPriority : Obligations.ConditionPriority := by
  unfold Obligations.ConditionPriority
  refine fun s => ⟨fun w why hd => runWord_reserved hd s, fun i =>
    ⟨exec_of_illegal, exec_of_badOperand, fun hl _ hm => exec_of_mismatched hl hm, exec_of_blockedByPending,
      fun hl hb _ _ ho => ?overflow, fun hpass t h hidle => exec_lastResp_of_passes hpass h hidle⟩⟩
  case overflow =>
    by_cases hi : ∃ x, i = .pixel x
    · obtain ⟨x, rfl⟩ := hi
      obtain ⟨hp, hx⟩ : s.phase = .frame ∧ x < 2 ^ s.params.sampleBits :=
        ⟨by simpa [legalIn] using hl, by simpa [badOperand] using hb⟩
      exact ⟨_, exec_pixel_of_overflows hp hx ho, fun _ => ⟨rfl, rfl⟩, fun hn => absurd ⟨x, rfl⟩ hn⟩
    · exact ⟨_, exec_of_overflows hi hl ho, fun hx => absurd hx hi, fun _ => rfl⟩

/-! ## Rejections -/

/-- A command that responds with a reject code was rejected. -/
theorem exec_eq_reject {i : Instr} {s t : State} (h : exec i s = .next t) (hidle : t.inFlight = none)
    (hr : t.lastResp.isReject = true) : ∃ code, t = s.reject code := by
  have hemits : ¬ (t.lastResp = .ok ∨ (t.lastResp = .abortSink ∧ t.phase = .error)) := by
    rintro (e | ⟨e, -⟩) <;> rw [e] at hr <;> cases hr
  cases exec_ends h with
  | rejected i code => exact ⟨code, rfl⟩
  | nop | clear | config | frameStart | overflow => cases hr
  | bypass i t hi hp he => exact absurd (he.lastResp hidle) hemits
  | pixel x t hp hx he => exact absurd (he.lastResp hidle) hemits

/-- Settles O33: a reserved word is rejected, and a command is rejected where it responds so. -/
theorem rejectionChangesOnlyLastResp : Obligations.RejectionChangesOnlyLastResp := by
  unfold Obligations.RejectionChangesOnlyLastResp
  intro w s t h hidle hr
  rcases runWord_cases h with ⟨why, -, rfl⟩ | ⟨i, -, he⟩
  · rfl
  · obtain ⟨code, rfl⟩ := exec_eq_reject he hidle hr
    rfl

/-- A legal command meets one of the later conditions, or none. -/
theorem exec_legal_cases {i : Instr} {s : State} (hl : legalIn i s.phase = true) :
    (∃ code, code ≠ .rejState ∧ exec i s = .next (s.reject code)) ∨
    exec i s = .next (s.abort .overflow) ∨ Passes i s := by
  by_cases hb : badOperand i s = true
  · exact .inl ⟨_, by simp, exec_of_badOperand hl hb⟩
  by_cases hm : mismatched i s = true
  · exact .inl ⟨_, by simp, exec_of_mismatched hl hm⟩
  rw [Bool.not_eq_true] at hb hm
  by_cases hpending : blockedByPending i s = true
  · exact .inl ⟨_, by simp, exec_of_blockedByPending hl hb hm hpending⟩
  by_cases ho : overflows i s = true
  · by_cases hi : ∃ x, i = .pixel x
    · obtain ⟨x, rfl⟩ := hi
      exact .inr (.inl (exec_pixel_of_overflows (by simpa [legalIn] using hl) (by simpa [badOperand] using hb) ho))
    · exact .inl ⟨_, by simp, exec_of_overflows hi hl ho⟩
  rw [Bool.not_eq_true] at hpending ho
  exact .inr (.inr ⟨hl, hb, hm, hpending, ho⟩)

theorem exec_lastResp_of_legal {i : Instr} {s t : State} (hl : legalIn i s.phase = true) (h : exec i s = .next t)
    (hidle : t.inFlight = none) : t.lastResp ≠ .rejState := by
  rcases exec_legal_cases hl with ⟨code, hcode, e⟩ | e | hpass
  · rw [e] at h; cases h; exact hcode
  · rw [e] at h; cases h; simp [AbortCode.resp]
  · rcases exec_lastResp_of_passes hpass h hidle with e | ⟨e, -⟩ <;> simp [e]

/-- Settles O34: REJ_STATE is the first condition tested, and its table is the one of R204. -/
theorem illegalStateRejected : Obligations.IllegalStateRejected := by
  unfold Obligations.IllegalStateRejected
  exact ⟨fun i s => exec_of_illegal, fun i s t => exec_lastResp_of_legal, fun w h x n v r d => by simp [legalIn]⟩

/-! ## ERROR -/

/-- Of the commands only NOP and CLEAR are legal in ERROR (spec/60 R211). -/
theorem legalIn_error {i : Instr} (hnop : i ≠ .nop) (hclear : i ≠ .clear) : legalIn i .error = false := by
  cases i with
  | nop => exact absurd rfl hnop
  | clear => exact absurd rfl hclear
  | config | frameStart | pixel | putBits | flush | encDelta | encRun => simp [legalIn]

theorem exec_in_error {i : Instr} {s : State} (hp : s.phase = .error) (hnop : i ≠ .nop) (hclear : i ≠ .clear) :
    exec i s = .next (s.reject .rejState) :=
  exec_of_illegal (hp ▸ legalIn_error hnop hclear)

/-- Settles O37: a word in ERROR is reserved, a NOP, a CLEAR, or rejected. -/
theorem errorHoldsUntilClearOrReset : Obligations.ErrorHoldsUntilClearOrReset := by
  unfold Obligations.ErrorHoldsUntilClearOrReset
  refine ⟨fun i s hp => exec_in_error hp, fun s t hp hr hstep hport => ?_⟩
  rcases step_cases hstep with ⟨hreset, -⟩ | ⟨-, rfl, -⟩ | ⟨-, -, w, rest, hw, hrun⟩
  · rw [hr] at hreset; cases hreset
  · rfl
  · rcases runWord_cases hrun with ⟨why, -, rfl⟩ | ⟨i, hd, he⟩
    · rfl
    · have hclear : i ≠ .clear := fun e => hport w rest hw (e ▸ hd)
      by_cases hnop : i = .nop
      · subst hnop; cases he; rfl
      · rw [exec_in_error (s := s.takeWord rest) hp hnop hclear] at he; cases he; rfl

end Sys2Proof.Machine
end

section
/-! The two aborts: what causes ABORT_OVERFLOW, where ABORT_SINK ends a PIXEL, and what taking an abort leaves (spec/60
R205 to R210). -/

namespace Sys2Proof.Machine

/-! ## ABORT_OVERFLOW -/

/-- The run that a PIXEL must emit overflows (spec/60 R207). -/
theorem overflows_pixel_iff (x : Nat) (s : State) :
    overflows (.pixel x) s = true ↔
      (x ≠ s.params.invalidMarker ∧ runOverflow s.params s.runLen.toNat = true) ∨
      (x = s.params.invalidMarker ∧ s.pixIdx.toNat + 1 = s.length ∧
        runOverflow s.params (s.runLen.toNat + 1) = true) := by
  by_cases hx : x = s.params.invalidMarker <;> simp [overflows, hx]

/-- A PIXEL that has ended with ABORT_OVERFLOW met its condition. -/
theorem overflows_of_abortOverflow {x : Nat} {s t : State} (h : exec (.pixel x) s = .next t)
    (hidle : t.inFlight = none) (hresp : t.lastResp = .abortOverflow) :
    s.phase = .frame ∧ x < 2 ^ s.params.sampleBits ∧ overflows (.pixel x) s = true := by
  rw [overflows_pixel]
  rcases execPixel_cases x s with ⟨-, e⟩ | ⟨-, -, e⟩ | ⟨hp, hx, ho, -⟩ | ⟨-, -, -, u, e, hu⟩
  · rw [exec, e] at h; cases h; cases hresp
  · rw [exec, e] at h; cases h; cases hresp
  · exact ⟨hp, hx, ho⟩
  · rw [exec, e] at h
    cases h
    rcases hu.lastResp hidle with e | ⟨e, -⟩ <;> rw [hresp] at e <;> cases e

/-- A run that fits in 32 bits does not overflow an escape of 32 bits (spec/60 R207). -/
theorem runOverflow_of_esc32 {p : Params} {r : Nat} (hp : p.runEscBits = 32) (hr : r < 2 ^ 32) :
    runOverflow p r = false := by
  rw [runOverflow_eq_false_iff, hp]
  omega

/-- Settles O30: the overflow of the run is tested before a PIXEL emits, and RUN_LEN + 1 fits in 32 bits. -/
theorem pixelOverflowAborts : Obligations.PixelOverflowAborts := by
  unfold Obligations.PixelOverflowAborts
  refine ⟨fun x s hp hx hrun => ?aborts, fun x s t h _ hidle hresp => overflows_of_abortOverflow h hidle hresp,
    fun x s hesc hI hp => ?unreachable⟩
  case aborts =>
    refine exec_pixel_of_overflows hp hx ((overflows_pixel_iff _ s).mpr ?_)
    rwa [runOverflow_iff, runOverflow_iff]
  case unreachable =>
    obtain ⟨hlt, -, -⟩ := hI.runLen_lt hp
    rw [← Bool.not_eq_true, overflows_pixel_iff, runOverflow_of_esc32 hesc hlt,
      runOverflow_of_esc32 hesc (Nat.lt_of_succ_lt hlt)]
    simp

/-! ## ABORT_SINK in a PIXEL -/

/-- An insertion after another aborts at a byte beyond the first one's. -/
theorem Emission.err_after {b₁ b₂ : List Bool} {s u : State} {f : Flow} {k : Nat} (h₁ : Appends b₁ s u)
    (h₂ : Emission b₂ u f) (hlo : appendedBytes b₁ s ≤ k) (hhi : k < appendedBytes (b₁ ++ b₂) s)
    (hok : AnswersOk k s) (herr : s.answerAt k = .err) :
    ∃ t, f = .aborted t ∧ AbortsAfter k (s.pendingBits ++ b₁ ++ b₂) s t := by
  have hanswer : u.answerAt (k - appendedBytes b₁ s) = .err := by
    rw [h₁.answers, Nat.add_sub_cancel' hlo, herr]
  rw [appendedBytes_append h₁] at hhi
  obtain ⟨t, hf, ht⟩ := h₂.err _ (by omega) (h₁.answersOk hok) hanswer
  have haborts := AbortsAfter.after h₁ ht
  rw [Nat.add_sub_cancel' hlo, ← List.append_assoc] at haborts
  exact ⟨t, hf, haborts⟩

theorem endFrame_of_encRun_aborted {u t : State} (h : encRun u.runLen.toNat u = .aborted t) :
    endFrame u = .aborted t := by
  rw [endFrame, h, Flow.andThen_aborted]

/-- A PIXEL that aborts within its own bits has written nothing of its sample (spec/43 R164, spec/60 R210). -/
theorem exec_pixel_aborts_own {x : Nat} {s : State} {k : Nat} (hacc : AccOk s) (hpass : Passes (.pixel x) s)
    (hk : k < appendedBytes (pixelBits x s) s) (hok : AnswersOk k s) (herr : s.answerAt k = .err) :
    ∃ t, exec (.pixel x) s = .next t ∧ AbortsAfter k (s.pendingBits ++ pixelBits x s) s t := by
  obtain ⟨hp, hx, ho⟩ := passes_pixel hpass
  obtain ⟨t, ht, haborts⟩ := consumeSample_err hacc (sample_lt hx) hk hok herr
  exact ⟨t, by rw [exec_pixel_body hp hx ho, ht, Flow.andThen_aborted, Flow.close_aborted], haborts⟩

/-- The last PIXEL aborts within the closing run, its sample consumed (spec/43 R166, log entry 14). -/
theorem exec_pixel_aborts_closing {x : Nat} {s : State} {k : Nat} (hI : StateInv s) (hpass : Passes (.pixel x) s)
    (hlast : s.pixIdx.toNat + 1 = s.length) (hlo : appendedBytes (pixelBits x s) s ≤ k)
    (hhi : k < appendedBytes (pixelBits x s ++ closingBits x s) s) (hok : AnswersOk k s)
    (herr : s.answerAt k = .err) :
    ∃ t, exec (.pixel x) s = .next t ∧
      AbortsAfter k (s.pendingBits ++ pixelBits x s ++ closingBits x s) (s.consume x) t := by
  obtain ⟨hp, -, -⟩ := passes_pixel hpass
  obtain ⟨u, hexec, hu⟩ := exec_lastPixel hI.accOk hpass hlast (answersOk_mono hok hlo)
  rw [← appendedBytes_consume _ x] at hlo hhi
  obtain ⟨t, ht, haborts⟩ := Emission.err_after hu (closing_emission hI hp hu) hlo hhi
    (fun j hj => (consume_answers x s j).trans (hok j hj)) ((consume_answers x s k).trans herr)
  rw [consume_pending] at haborts
  exact ⟨t, by rw [hexec, endFrame_of_encRun_aborted ht, Flow.close_aborted], haborts⟩

/-- The last PIXEL, once its own bits and the closing run went through, flushes the frame with RUN_LEN = 0 (spec/43
R166). -/
theorem exec_lastPixel_flush {x : Nat} {s : State} (hI : StateInv s) (hpass : Passes (.pixel x) s)
    (hlast : s.pixIdx.toNat + 1 = s.length)
    (hok : AnswersOk (appendedBytes (pixelBits x s ++ closingBits x s) s) s) :
    ∃ v, exec (.pixel x) s = .next ((flushBits v).andThen fun w => .going w.finishFrame).close ∧
      Appends (pixelBits x s ++ closingBits x s) (s.consume x).clearRun v := by
  obtain ⟨hp, -, -⟩ := passes_pixel hpass
  obtain ⟨u, hexec, hu⟩ :=
    exec_lastPixel hI.accOk hpass hlast (answersOk_mono hok (appendedBytes_le_append _ _ s))
  obtain ⟨v, hrun, hv⟩ := closingRun_ok hI hp hu hok
  exact ⟨v.clearRun, by rw [hexec, endFrame_of_encRun_going hrun], hv⟩

/-- The last PIXEL aborts within the frame's flush, its sample consumed and RUN_LEN = 0 (spec/43 R166). -/
theorem exec_pixel_aborts_flush {x : Nat} {s : State} {k : Nat} (hI : StateInv s) (hpass : Passes (.pixel x) s)
    (hlast : s.pixIdx.toNat + 1 = s.length) (hlo : appendedBytes (pixelBits x s ++ closingBits x s) s ≤ k)
    (hhi : k < flushedBytes (pixelBits x s ++ closingBits x s) s) (hok : AnswersOk k s)
    (herr : s.answerAt k = .err) :
    ∃ t, exec (.pixel x) s = .next t ∧
      AbortsAfter k (s.pendingBits ++ pixelBits x s ++ closingBits x s ++
        padding (s.pendingBits ++ pixelBits x s ++ closingBits x s).length) (s.consume x).clearRun t := by
  obtain ⟨v, hexec, hv⟩ := exec_lastPixel_flush hI hpass hlast (answersOk_mono hok hlo)
  have hanswers : ∀ j, (s.consume x).clearRun.answerAt j = s.answerAt j := consume_answers x s
  have hpending : (s.consume x).clearRun.pendingBits = s.pendingBits := consume_pending x s
  obtain ⟨t, ht, haborts⟩ := flush_after_err hv ((appendedBytes_consume _ x s).trans_le hlo)
    (hhi.trans_eq (flushedBytes_consume _ x s).symm) (fun j hj => (hanswers j).trans (hok j hj))
    ((hanswers k).trans herr)
  rw [hpending, ← List.append_assoc] at haborts
  exact ⟨t, by rw [hexec, ht, Flow.andThen_aborted, Flow.close_aborted], haborts⟩

/-- Settles O31: a PIXEL emits its own bits, the closing run and the flush in this order, and aborts where the byte
answered ERR falls. -/
theorem pixelSinkErrorAborts : Obligations.PixelSinkErrorAborts := by
  unfold Obligations.PixelSinkErrorAborts
  intro x s k hI hpass hok herr
  exact ⟨fun hk => exec_pixel_aborts_own hI.accOk hpass hk hok herr,
    fun hlast hlo hhi => exec_pixel_aborts_closing hI hpass hlast hlo hhi hok herr,
    fun hlast hlo hhi => exec_pixel_aborts_flush hI hpass hlast hlo hhi hok herr⟩

/-! ## What an abort leaves -/

theorem Ends.aborted_of_error {s t : State} (h : Ends s t) (hs : s.phase ≠ .error) (ht : t.phase = .error) :
    ∃ bs, t = (s.afterBytes bs).drawAnswer.abort .sink := by
  cases h with
  | aborted bs => exact ⟨bs, rfl⟩
  | done t bs h => rw [h] at ht; exact absurd ht hs
  | waiting t bs b h => rw [h] at ht; exact absurd ht hs

theorem PixelEnds.aborted_of_error {x : Nat} {s t : State} (h : PixelEnds x s t) (hs : s.phase ≠ .error)
    (ht : t.phase = .error) :
    ∃ u bs, PixelWrites x s u ∧ t = (u.afterBytes bs).drawAnswer.abort .sink := by
  cases h with
  | aborted u bs hu => exact ⟨u, bs, hu, rfl⟩
  | completed bs hl => cases ht
  | consumed t bs hl h =>
    rw [h] at ht
    exact absurd ((consume_phase x s).symm.trans ht) hs
  | waiting t u bs b hu h =>
    have hphase : u.phase = s.phase := by rw [hu.frame]
    rw [h] at ht
    exact absurd (hphase.symm.trans ht) hs

/-- A command that enters ERROR takes ABORT_OVERFLOW in the state it was given, or ABORT_SINK after the bytes the sink
accepted and a PIXEL's own writes (spec/60 R205, R206). -/
theorem exec_enters_error {i : Instr} {s t : State} (h : exec i s = .next t) (hs : s.phase ≠ .error)
    (ht : t.phase = .error) :
    t = s.abort .overflow ∨
    ∃ (u : State) (bs : List Byte), u = { s with runLen := u.runLen, prev := u.prev, pixIdx := u.pixIdx } ∧
      t = (u.afterBytes bs).drawAnswer.abort .sink := by
  cases exec_ends h with
  | rejected => exact absurd ht hs
  | nop => exact absurd ht hs
  | clear => by_cases hc : s.cfgW = 0#16 <;> simp [hc] at ht
  | config => cases ht
  | frameStart => cases ht
  | overflow => exact .inl rfl
  | bypass i t hi hp he =>
    obtain ⟨bs, e⟩ := he.aborted_of_error hs ht
    exact .inr ⟨s, bs, rfl, e⟩
  | pixel x t hp hx he =>
    obtain ⟨u, bs, hu, e⟩ := he.aborted_of_error hs ht
    exact .inr ⟨u, bs, hu.frame, e⟩

/-- Settles O36: a PIXEL's own writes are to RUN_LEN, PREV and PIX_IDX, and the bytes before the failing one are
delivered. -/
theorem abortEntry : Obligations.AbortEntry := by
  unfold Obligations.AbortEntry
  intro i s t h hs ht
  rcases exec_enters_error h hs ht with rfl | ⟨u, bs, hu, rfl⟩
  · exact ⟨rfl, accWidth_toNat s.params, rfl, rfl, rfl, rfl, .inl ⟨rfl, rfl, rfl⟩⟩
  · have hd := Delivers.stopped u bs
    rw [hd.params, hd.cfgW, hd.cfgH, hd.sink, hd.totalBytes, hu]
    exact ⟨rfl, accWidth_toNat s.params, rfl, rfl, rfl, rfl, .inr ⟨rfl, rfl, bs, rfl, rfl⟩⟩

end Sys2Proof.Machine
end

section
/-! Reset (spec/70 R230, R232), the hang on a sink that never answers (spec/70 R244), and the handshake of the command
port (spec/70 R242). -/

namespace Sys2Proof.Machine

/-! ## Reset -/

theorem settleInFlight_none {s : State} (h : s.inFlight = none) : s.settleInFlight = s := by
  unfold State.settleInFlight
  rw [h]

theorem settleInFlight_sink_some {s : State} {b : Byte} (h : s.inFlight = some b) :
    s.settleInFlight.sink = if Config.inFlightAccepted s.draws then s.sink ++ [b] else s.sink := by
  unfold State.settleInFlight
  rw [h]

/-- Settles O3: the step takes the reset, and only the byte in flight, by a draw, can still reach the sink. -/
theorem resetTakesPriority : Obligations.ResetTakesPriority := by
  unfold Obligations.ResetTakesPriority
  intro s hreset
  refine ⟨s.takeReset, step_reset hreset, rfl, rfl, rfl, rfl, rfl, prevInit_toNat s.params, rfl,
    accWidth_toNat s.params, rfl, rfl, rfl, rfl, rfl, rfl, fun hidle => ?_, fun b hflight => ?_, rfl⟩
  · rw [State.takeReset_sink, settleInFlight_none hidle]
  · rw [State.takeReset_sink, settleInFlight_sink_some hflight]
    split
    · exact .inr rfl
    · exact .inl rfl

/-! ## A sink that never answers -/

/-- A state that a step leaves as it is, any number of steps leave as it is. -/
theorem run_of_step_eq_self {s : State} (h : step s = .next s) (n : Nat) : Host.Core.run core n s = .next s := by
  induction n with
  | zero => exact run_zero s
  | succ n ih => rw [run_succ h, ih]

/-- Settles O15: a step of a waiting command leaves the state. -/
theorem unansweredCommandHangs : Obligations.UnansweredCommandHangs := by
  unfold Obligations.UnansweredCommandHangs
  exact fun n s b hreset hflight => run_of_step_eq_self (step_waiting hreset hflight) n

/-! ## The command port -/

theorem PixelWrites.port {x : Nat} {s u : State} (h : PixelWrites x s u) : u.port = s.port := by rw [h.frame]

theorem PixelEnds.port {x : Nat} {s t : State} (h : PixelEnds x s t) : t.port = s.port := by
  have hconsume : (s.consume x).port = s.port := by rw [consume_frame]
  cases h with
  | consumed t bs hl h => rw [h]; exact hconsume
  | completed bs hl => exact hconsume
  | aborted u bs hu => exact show u.port = s.port from hu.port
  | waiting t u bs b hu h => rw [h]; exact show u.port = s.port from hu.port

/-- No command takes a word from the port or puts one there. -/
theorem exec_port {i : Instr} {s t : State} (h : exec i s = .next t) : t.port = s.port := by
  cases exec_ends h with
  | rejected | nop | clear | config | frameStart | overflow => rfl
  | bypass i t hi hp he => exact he.port.1
  | pixel x t hp hx he => exact he.port

theorem runWord_port {w : Word} {s t : State} (h : runWord w s = .next t) : t.port = s.port := by
  rcases runWord_cases h with ⟨why, -, rfl⟩ | ⟨i, -, he⟩
  · rfl
  · exact exec_port he

/-- Settles O16: a reset and a held step leave the port, and a step that takes the head runs it over the rest. -/
theorem portIsTakenInOrder : Obligations.PortIsTakenInOrder := by
  unfold Obligations.PortIsTakenInOrder
  intro s t hstep
  rcases step_cases hstep with ⟨hreset, rfl⟩ | ⟨-, rfl, hheld⟩ | ⟨hreset, hidle, w, rest, hport, hrun⟩
  · refine ⟨.inl rfl, fun _ => rfl, fun w rest _ _ hr => ?_⟩
    rw [hreset] at hr; cases hr
  · refine ⟨.inl rfl, fun _ => rfl, fun w rest hport hidle _ => ?_⟩
    rcases hheld with hflight | hempty
    · exact absurd hidle hflight
    · rw [hempty] at hport; cases hport
  · have hrest : t.port = rest := runWord_port hrun
    refine ⟨.inr ⟨w, rest, hport, hrest, hidle, step_word hreset hidle hport⟩, fun hflight => absurd hidle hflight,
      fun w' rest' hport' _ _ => ?_⟩
    rw [hport] at hport'; cases hport'; exact hrest

end Sys2Proof.Machine
end

section
/-! What a reset leaves of the environment: the words at the command port and the sink's next answers (spec/70 section 1,
log entry 8). -/

namespace Sys2Proof.Machine

/-- With the reset input asserted, the one thing a step can do is take the reset. -/
theorem eq_takeReset_of_step {s t : State} (hreset : s.resetLine = true) (h : step s = .next t) : t = s.takeReset := by
  rw [step_reset hreset] at h
  cases h
  rfl

/-- Settles O4: the step is the reset itself, which keeps the port and the answers and releases the input. -/
theorem resetKeepsThePort : Obligations.ResetKeepsThePort := by
  unfold Obligations.ResetKeepsThePort
  intro s t hreset hstep
  obtain rfl : t = s.takeReset := eq_takeReset_of_step hreset hstep
  exact ⟨s.takeReset_port, s.takeReset_sinkAnswers, s.takeReset_resetLine⟩

end Sys2Proof.Machine
end
